-- ==== Sys2Proof/Word.lean ====
section
/-!
DEFINITION. The word types of TWM: bytes, and the 32-bit words of commands, host accesses and RES (R10, R55).
-/

namespace Sys2Proof

/-- One byte: what a bus or line event carries, and one element of PBUF, STR, DBUF and TMEM. -/
abbrev Byte := BitVec 8

/-- A 32-bit word: a command word (R81), the data of a host access (R56), the result register RES (R31). -/
abbrev Word := BitVec 32

end Sys2Proof
end

