-- ==== Sys2Proof/Syntax.lean ====
section
/-!
DEFINITION. The commands of TWM: one constructor per row of spec/opcode_table.json (R90).
-/

namespace Sys2Proof

/-- Where WRITE_TEXT takes its string from (format X, R82, R88): SRC = 0 names a TMEM byte address, SRC = 1 is STR. -/
inductive TextSrc where
  | tmem (addr : BitVec 8)
  | str
  deriving DecidableEq, Repr

/-- Where a number write takes its value from (formats V8 and V16, R82, R87): SRC = 0 is the immediate, SRC = 1 is RES. -/
inductive NumSrc (w : Nat) where
  | imm (v : BitVec w)
  | res
  deriving DecidableEq, Repr

/-- The 20 commands of R90. `nb` is the byte count NB, `sadd` the slave address, `reg` a sensor register address,
`sc` the scale bit SC, `div` the baud divisor. -/
inductive Instr where
  | i2cWrite (sadd : BitVec 7) (nb : BitVec 2)
  | i2cRead (sadd : BitVec 7) (nb : BitVec 2)
  | decodeReg (reg : BitVec 6) (sc : Bool)
  | scale (reg : BitVec 6)
  | mkstr
  | sensorInit
  | readMfrId
  | readDeviceId
  | readCurrent
  | readVoltage
  | readTemperature
  | readPower
  | readEnergy
  | readCharge
  | uartInit (div : BitVec 16)
  | uartStart
  | uartStop
  | writeText (src : TextSrc)
  | writeU8 (src : NumSrc 8)
  | writeU16 (src : NumSrc 16)
  deriving DecidableEq, Repr

end Sys2Proof
end

