-- ==== Sys2Proof/WellFormed.lean ====
section
/-!
DEFINITION. Which command terms an encoding exists for (R86, R89). The constraints of R87 and R88 (SRC = 1 needs a
zero field) hold by the operand types of Syntax.lean, and the field widths by the widths of the arguments.
-/

namespace Sys2Proof

/-- A transaction moves 1, 2 or 3 bytes: NB = 0 is illegal (R86). -/
def okByteCount (nb : BitVec 2) : Bool := nb != 0#2

/-- The baud divisor is not 0 (R89). -/
def okDivisor (div : BitVec 16) : Bool := div != 0#16

/-- The command has an encoding. -/
def Instr.wf : Instr → Bool
  | .i2cWrite _ nb => okByteCount nb
  | .i2cRead _ nb => okByteCount nb
  | .uartInit div => okDivisor div
  | .decodeReg _ _ => true
  | .scale _ => true
  | .mkstr => true
  | .sensorInit => true
  | .readMfrId => true
  | .readDeviceId => true
  | .readCurrent => true
  | .readVoltage => true
  | .readTemperature => true
  | .readPower => true
  | .readEnergy => true
  | .readCharge => true
  | .uartStart => true
  | .uartStop => true
  | .writeText _ => true
  | .writeU8 _ => true
  | .writeU16 _ => true

end Sys2Proof
end

