-- ==== Sys2Proof/Decode.lean ====
section
/-!
DEFINITION. The decoder of command words, total on every 32-bit word and rejecting by name (R81 to R91, R95), the
encoder written from the same tables, and the assembler text of a command (R93).
-/

namespace Sys2Proof

/-- Why a word is illegal: the five cases of R91, in its order. -/
inductive IllegalReason where
  | unknownOpcode
  | reservedBit
  | zeroByteCount
  | sourceWithImmediate
  | zeroDivisor
  deriving DecidableEq, Repr

/-- The bits `lo + w - 1` down to `lo` of a word: the field notation `v[hi:lo]` of R10. -/
def field (v : Word) (lo w : Nat) : BitVec w := v.extractLsb' lo w

/-- The opcode OP = v[31:24] (R81). -/
def opcodeOf (v : Word) : BitVec 8 := field v 24 8

/-- Format N (R83): the operand field is 0. -/
def decodeN (i : Instr) (v : Word) : Except IllegalReason Instr :=
  if field v 0 24 = 0#24 then .ok i else .error .reservedBit

/-- Format T (R84, R86): v[23:10] and v[7] are fixed 0, NB = v[9:8] is not 0, SADD = v[6:0]. -/
def decodeT (mk : BitVec 7 → BitVec 2 → Instr) (v : Word) : Except IllegalReason Instr :=
  if field v 10 14 = 0#14 ∧ field v 7 1 = 0#1 then
    if okByteCount (field v 8 2) then .ok (mk (field v 0 7) (field v 8 2)) else .error .zeroByteCount
  else .error .reservedBit

/-- Format RS (R85): v[23:9] and v[7:6] are fixed 0, SC = v[8], REG = v[5:0]. -/
def decodeRS (mk : BitVec 6 → Bool → Instr) (v : Word) : Except IllegalReason Instr :=
  if field v 9 15 = 0#15 ∧ field v 6 2 = 0#2 then .ok (mk (field v 0 6) (field v 8 1 == 1#1)) else .error .reservedBit

/-- Format R (R85): v[23:6] is fixed 0, REG = v[5:0]. -/
def decodeR (mk : BitVec 6 → Instr) (v : Word) : Except IllegalReason Instr :=
  if field v 6 18 = 0#18 then .ok (mk (field v 0 6)) else .error .reservedBit

/-- Format V8 (R87): v[22:8] is fixed 0; SRC = v[23] is 0 with IMM8 = v[7:0], or 1 with IMM8 = 0. -/
def decodeV8 (mk : NumSrc 8 → Instr) (v : Word) : Except IllegalReason Instr :=
  if field v 8 15 = 0#15 then
    if field v 23 1 = 0#1 then .ok (mk (.imm (field v 0 8)))
    else if field v 0 8 = 0#8 then .ok (mk .res) else .error .sourceWithImmediate
  else .error .reservedBit

/-- Format V16 (R87): v[22:16] is fixed 0; SRC = v[23] is 0 with IMM16 = v[15:0], or 1 with IMM16 = 0. -/
def decodeV16 (mk : NumSrc 16 → Instr) (v : Word) : Except IllegalReason Instr :=
  if field v 16 7 = 0#7 then
    if field v 23 1 = 0#1 then .ok (mk (.imm (field v 0 16)))
    else if field v 0 16 = 0#16 then .ok (mk .res) else .error .sourceWithImmediate
  else .error .reservedBit

/-- Format X (R88): v[22:8] is fixed 0; SRC = v[23] is 0 with ADDR = v[7:0], or 1 with ADDR = 0. -/
def decodeX (mk : TextSrc → Instr) (v : Word) : Except IllegalReason Instr :=
  if field v 8 15 = 0#15 then
    if field v 23 1 = 0#1 then .ok (mk (.tmem (field v 0 8)))
    else if field v 0 8 = 0#8 then .ok (mk .str) else .error .sourceWithImmediate
  else .error .reservedBit

/-- Format B (R89): v[23:16] is fixed 0, DIV = v[15:0] is not 0. -/
def decodeB (mk : BitVec 16 → Instr) (v : Word) : Except IllegalReason Instr :=
  if field v 16 8 = 0#8 then
    if okDivisor (field v 0 16) then .ok (mk (field v 0 16)) else .error .zeroDivisor
  else .error .reservedBit

/-- The opcodes 0x0_ of R90: the Bus Transaction Driver. -/
def decodeBtd (v : Word) : Except IllegalReason Instr :=
  if opcodeOf v = 0x01#8 then decodeT .i2cWrite v
  else if opcodeOf v = 0x02#8 then decodeT .i2cRead v
  else .error .unknownOpcode

/-- The opcodes 0x1_ of R90: the Register Codec. -/
def decodeCodec (v : Word) : Except IllegalReason Instr :=
  if opcodeOf v = 0x10#8 then decodeRS .decodeReg v
  else if opcodeOf v = 0x11#8 then decodeR .scale v
  else if opcodeOf v = 0x12#8 then decodeN .mkstr v
  else .error .unknownOpcode

/-- The opcodes 0x2_ of R90: the composite sensor commands, all of format N. -/
def decodeSensor (v : Word) : Except IllegalReason Instr :=
  if opcodeOf v = 0x20#8 then decodeN .sensorInit v
  else if opcodeOf v = 0x21#8 then decodeN .readMfrId v
  else if opcodeOf v = 0x22#8 then decodeN .readDeviceId v
  else if opcodeOf v = 0x23#8 then decodeN .readCurrent v
  else if opcodeOf v = 0x24#8 then decodeN .readVoltage v
  else if opcodeOf v = 0x25#8 then decodeN .readTemperature v
  else if opcodeOf v = 0x26#8 then decodeN .readPower v
  else if opcodeOf v = 0x27#8 then decodeN .readEnergy v
  else if opcodeOf v = 0x28#8 then decodeN .readCharge v
  else .error .unknownOpcode

/-- The opcodes 0x3_ of R90: the Serial Console Driver. -/
def decodeConsole (v : Word) : Except IllegalReason Instr :=
  if opcodeOf v = 0x30#8 then decodeB .uartInit v
  else if opcodeOf v = 0x31#8 then decodeN .uartStart v
  else if opcodeOf v = 0x32#8 then decodeN .uartStop v
  else if opcodeOf v = 0x33#8 then decodeX .writeText v
  else if opcodeOf v = 0x34#8 then decodeV8 .writeU8 v
  else if opcodeOf v = 0x35#8 then decodeV16 .writeU16 v
  else .error .unknownOpcode

/-- The decoder: the opcode map of R90 by its unit, v[31:28]; every opcode that is not in the map is illegal (R91). -/
def decode (v : Word) : Except IllegalReason Instr :=
  if field v 28 4 = 0#4 then decodeBtd v
  else if field v 28 4 = 1#4 then decodeCodec v
  else if field v 28 4 = 2#4 then decodeSensor v
  else if field v 28 4 = 3#4 then decodeConsole v
  else .error .unknownOpcode

/-- The formats of R82. -/
inductive Format where
  | N | T | RS | R | V8 | V16 | X | B
  deriving DecidableEq, Repr

/-- The mask of the fixed bits of a format (R83 to R89). -/
def Format.mask : Format → Word
  | .N => 0xFFFFFFFF#32
  | .T => 0xFFFFFC80#32
  | .RS => 0xFFFFFEC0#32
  | .R => 0xFFFFFFC0#32
  | .V8 => 0xFF7FFF00#32
  | .V16 => 0xFF7F0000#32
  | .X => 0xFF7FFF00#32
  | .B => 0xFFFF0000#32

/-- The opcode map R90 as opcodes with their formats: a second reading of the tables, by mask and match, which the decoder
does not use. Claims compare the two. -/
def opcodeRows : List (BitVec 8 × Format) :=
  [(0x01#8, .T), (0x02#8, .T), (0x10#8, .RS), (0x11#8, .R), (0x12#8, .N), (0x20#8, .N), (0x21#8, .N), (0x22#8, .N),
   (0x23#8, .N), (0x24#8, .N), (0x25#8, .N), (0x26#8, .N), (0x27#8, .N), (0x28#8, .N), (0x30#8, .B), (0x31#8, .N),
   (0x32#8, .N), (0x33#8, .X), (0x34#8, .V8), (0x35#8, .V16)]

/-- The constraint a format puts on its operands, broken (R86 to R89): cases 3 to 5 of R91. -/
def Format.broken (f : Format) (v : Word) : Bool :=
  match f with
  | .T => v &&& 0x00000300#32 == 0#32
  | .V8 => v &&& 0x00800000#32 != 0#32 && v &&& 0x000000FF#32 != 0#32
  | .V16 => v &&& 0x00800000#32 != 0#32 && v &&& 0x0000FFFF#32 != 0#32
  | .X => v &&& 0x00800000#32 != 0#32 && v &&& 0x000000FF#32 != 0#32
  | .B => v &&& 0x0000FFFF#32 == 0#32
  | .N => false
  | .RS => false
  | .R => false

/-- A word is a legal encoding of a row of R90: its fixed bits are the row's match `OP << 24`, and its operands meet the
format's constraint. -/
def legalFor (v : Word) (row : BitVec 8 × Format) : Bool :=
  v &&& row.2.mask == row.1.setWidth 32 <<< 24 && !row.2.broken v

/-- The command read from an instruction whose bits are `w`, numbered as spec/opcode_table.json numbers them. A command
is one 32-bit word, so bits 31:0 are the word written to CMD; the bits above `nbits` are 0. -/
def decodeTableWord (nbits w : Nat) : Option Instr :=
  if w % 2 ^ nbits < 2 ^ 32 then (decode (BitVec.ofNat 32 (w % 2 ^ nbits))).toOption else none

/-- A field `f` put at bit `lo` of a word, as a number. -/
def place {w : Nat} (lo : Nat) (f : BitVec w) : Nat := f.toNat * 2 ^ lo

/-- The opcode of a command (R90). -/
def Instr.opcode : Instr → BitVec 8
  | .i2cWrite _ _ => 0x01#8
  | .i2cRead _ _ => 0x02#8
  | .decodeReg _ _ => 0x10#8
  | .scale _ => 0x11#8
  | .mkstr => 0x12#8
  | .sensorInit => 0x20#8
  | .readMfrId => 0x21#8
  | .readDeviceId => 0x22#8
  | .readCurrent => 0x23#8
  | .readVoltage => 0x24#8
  | .readTemperature => 0x25#8
  | .readPower => 0x26#8
  | .readEnergy => 0x27#8
  | .readCharge => 0x28#8
  | .uartInit _ => 0x30#8
  | .uartStart => 0x31#8
  | .uartStop => 0x32#8
  | .writeText _ => 0x33#8
  | .writeU8 _ => 0x34#8
  | .writeU16 _ => 0x35#8

/-- The operand field of a command as a number, laid out by its format (R82). -/
def Instr.operandBits : Instr → Nat
  | .i2cWrite sadd nb => place 8 nb + place 0 sadd
  | .i2cRead sadd nb => place 8 nb + place 0 sadd
  | .decodeReg reg sc => place 8 (BitVec.ofBool sc) + place 0 reg
  | .scale reg => place 0 reg
  | .uartInit div => place 0 div
  | .writeText (.tmem addr) => place 0 addr
  | .writeText .str => place 23 1#1
  | .writeU8 (.imm v) => place 0 v
  | .writeU8 .res => place 23 1#1
  | .writeU16 (.imm v) => place 0 v
  | .writeU16 .res => place 23 1#1
  | .mkstr => 0
  | .sensorInit => 0
  | .readMfrId => 0
  | .readDeviceId => 0
  | .readCurrent => 0
  | .readVoltage => 0
  | .readTemperature => 0
  | .readPower => 0
  | .readEnergy => 0
  | .readCharge => 0
  | .uartStart => 0
  | .uartStop => 0

/-- The encoder: OP in bits 31:24 and the operand field below it (R81, R82). -/
def encode (i : Instr) : Word := BitVec.ofNat 32 (place 24 i.opcode + i.operandBits)

/-- The mnemonic of a command (R90). -/
def Instr.mnemonic : Instr → String
  | .i2cWrite _ _ => "I2C_WRITE"
  | .i2cRead _ _ => "I2C_READ"
  | .decodeReg _ _ => "DECODE"
  | .scale _ => "SCALE"
  | .mkstr => "MKSTR"
  | .sensorInit => "SENSOR_INIT"
  | .readMfrId => "READ_MFR_ID"
  | .readDeviceId => "READ_DEVICE_ID"
  | .readCurrent => "READ_CURRENT"
  | .readVoltage => "READ_VOLTAGE"
  | .readTemperature => "READ_TEMPERATURE"
  | .readPower => "READ_POWER"
  | .readEnergy => "READ_ENERGY"
  | .readCharge => "READ_CHARGE"
  | .uartInit _ => "UART_INIT"
  | .uartStart => "UART_START"
  | .uartStop => "UART_STOP"
  | .writeText _ => "WRITE_TEXT"
  | .writeU8 _ => "WRITE_U8"
  | .writeU16 _ => "WRITE_U16"

/-- The operands of a command in the assembler syntax of R93, numbers in decimal. -/
def Instr.asmOperands : Instr → String
  | .i2cWrite sadd nb => " " ++ toString sadd.toNat ++ ", " ++ toString nb.toNat
  | .i2cRead sadd nb => " " ++ toString sadd.toNat ++ ", " ++ toString nb.toNat
  | .decodeReg reg false => " " ++ toString reg.toNat
  | .decodeReg reg true => " " ++ toString reg.toNat ++ ", SC"
  | .scale reg => " " ++ toString reg.toNat
  | .uartInit div => " " ++ toString div.toNat
  | .writeText (.tmem addr) => " " ++ toString addr.toNat
  | .writeText .str => " STR"
  | .writeU8 (.imm v) => " " ++ toString v.toNat
  | .writeU8 .res => " RES"
  | .writeU16 (.imm v) => " " ++ toString v.toNat
  | .writeU16 .res => " RES"
  | .mkstr => ""
  | .sensorInit => ""
  | .readMfrId => ""
  | .readDeviceId => ""
  | .readCurrent => ""
  | .readVoltage => ""
  | .readTemperature => ""
  | .readPower => ""
  | .readEnergy => ""
  | .readCharge => ""
  | .uartStart => ""
  | .uartStop => ""

/-- A command as one line of the assembler syntax (R93). -/
def Instr.asm (i : Instr) : String := i.mnemonic ++ i.asmOperands

end Sys2Proof
end

