-- ==== Sys2Proof/Config.lean ====
section
/-!
DEFINITION. The configuration of a launch (R9), its defaults, its well-formedness (R132, R209), and the free values:
the choice of the next mover (R7), the bytes the sensor answers (R116) and the INIT parameters a launch does not fix
(D17).
-/

namespace Sys2Proof

/-- The size of TMEM in bytes, fixed at 256 (R9, D30). -/
def Config.tmemSize : Nat := 256

/-- The sensor's slave address SENSOR_SADD, 7 bits (R9). -/
def Config.sensorSadd : BitVec 7 := 0x40#7

/-- The width of a sensor register: 16 or 24 bits (R130). -/
inductive Width where
  | w16
  | w24
  deriving DecidableEq, Repr

/-- A Register Descriptor (R130): the scaled value is `v * M / 2^S`, rounded down. -/
structure Descriptor where
  addr : BitVec 6
  width : Width
  signed : Bool
  M : Nat
  S : Nat
  deriving DecidableEq, Repr

/-- The register-address parameters of R9. A parameter of 64 or more (R209) is excluded by the width. -/
structure RegAddrs where
  config : BitVec 6
  adcConfig : BitVec 6
  shuntCal : BitVec 6
  vbus : BitVec 6
  dieTemp : BitVec 6
  current : BitVec 6
  power : BitVec 6
  energy : BitVec 6
  charge : BitVec 6
  mfrId : BitVec 6
  deviceId : BitVec 6
  deriving DecidableEq, Repr

/-- The default register addresses of R9 (general knowledge of the INA228: K4). -/
def RegAddrs.default : RegAddrs :=
  { config := 0x00#6, adcConfig := 0x01#6, shuntCal := 0x02#6, vbus := 0x05#6, dieTemp := 0x06#6, current := 0x07#6,
    power := 0x08#6, energy := 0x09#6, charge := 0x0A#6, mfrId := 0x3E#6, deviceId := 0x3F#6 }

/-- ENERGY_CHARGE_MODE (R162). -/
inductive EnergyChargeMode where
  | bug
  | dedicated
  deriving DecidableEq, Repr

/-- The five OPEN parameters SENSOR_INIT sends (R9, D17). -/
structure InitWords where
  rst : BitVec 16
  rangeReg : BitVec 6
  range : BitVec 16
  adc : BitVec 16
  shuntCal : BitVec 16
  deriving DecidableEq, Repr, Inhabited

/-- The configuration of a launch: fixed before reset, and changed by no step (R221). `init` is `none` where the
launch does not fix the five INIT parameters; a launch whose program uses SENSOR_INIT is then refused (R209), and a state
that no launch gives has the free value `Config.openInit` for them. -/
structure Config where
  regs : RegAddrs
  desc : List Descriptor
  mode : EnergyChargeMode
  init : Option InitWords
  deriving DecidableEq, Repr

/-- The descriptor table of R131 for given register addresses and POWER_SIGNED. -/
def Config.defaultTable (r : RegAddrs) (powerSigned : Bool) : List Descriptor :=
  [ { addr := r.vbus, width := .w24, signed := true, M := 1, S := 0 },
    { addr := r.dieTemp, width := .w16, signed := false, M := 1, S := 0 },
    { addr := r.current, width := .w24, signed := true, M := 1000000, S := 19 },
    { addr := r.power, width := .w24, signed := powerSigned, M := 1, S := 0 },
    { addr := r.mfrId, width := .w16, signed := false, M := 1, S := 0 },
    { addr := r.deviceId, width := .w16, signed := false, M := 1, S := 0 } ]

/-- The configuration with the table of R131 and the entries `extra` the user adds for ENERGY_ADDR and CHARGE_ADDR
(R131, R162). -/
def Config.ofParams (r : RegAddrs) (powerSigned : Bool) (mode : EnergyChargeMode) (extra : List Descriptor)
    (init : Option InitWords) : Config :=
  { regs := r, desc := Config.defaultTable r powerSigned ++ extra, mode := mode, init := init }

/-- The defaults of R9: POWER_SIGNED = false, ENERGY_CHARGE_MODE = BUG, and no INIT parameters. -/
def Config.default : Config := Config.ofParams RegAddrs.default false .bug [] none

/-- One entry of a descriptor table is well-formed (R132). `addr` below 64 and the two widths hold by type. -/
def Descriptor.wf (d : Descriptor) : Bool :=
  (match d.width with | .w16 => !d.signed | .w24 => true)
    && decide (1 ≤ d.M) && decide (d.M < 4294967296) && decide (d.S ≤ 31)

/-- No address appears twice (R132). -/
def Config.distinct : List (BitVec 6) → Bool
  | [] => true
  | a :: l => !l.contains a && Config.distinct l

/-- The configuration is well-formed (R132, R209). -/
def Config.wf (c : Config) : Bool := c.desc.all Descriptor.wf && Config.distinct (c.desc.map Descriptor.addr)

/-- The five INIT parameters where a launch leaves them OPEN (D17): free, nothing constrains them. -/
opaque Config.openInit : InitWords

/-- The INIT parameters of a launch: those it fixes, else the free ones. -/
def Config.initWords (c : Config) : InitWords := c.init.getD Config.openInit

/-- The steps of BUSENV (R110, R111, R112, R114). -/
inductive BusRule where
  | eStart
  | eTx
  | eRx
  | eStop
  deriving DecidableEq, Repr

/-- The agents of R7; an entry for BUSENV says by which of its rules it moves. -/
inductive Agent where
  | host
  | seq
  | bus (r : BusRule)
  | line
  deriving DecidableEq, Repr, Inhabited

/-- Who moves next, where State.sched does not say: free (R7), one choice for each value of the counter. -/
opaque Config.nextAgent : Nat → Agent

/-- The byte E_RX draws, where State.draws does not say: free (R112, R116), one byte for each value of the counter. -/
opaque Config.sensorByte : Nat → Byte

end Sys2Proof
end

