-- ==== Sys2Proof/Machine/State.lean ====
section
/-!
DEFINITION. The state of TWM (R41) with HOST's program and the observation of a run (R8), the configuration of the
launch (R9), the model's own scheduling fields, and the state after reset (R220).
-/

namespace Sys2Proof.Machine

/-- I2C_DIR (R25): 0 is write, 1 is read. -/
inductive Dir where
  | write
  | read
  deriving DecidableEq, Repr

/-- The phases of the commands (PH, R23), by the labels of the pseudocode. -/
inductive Phase where
  /-- no phase: the reset value -/
  | idle
  /-- the phases W0 to W3 of a write transaction (R102) -/
  | w0 | w1 | w2 | w3
  /-- the phases RD0 to RD3 of a read transaction (R104) -/
  | rd0 | rd1 | rd2 | rd3
  /-- the K step without a transaction that ends a composite read (K2 of R151 and R154) -/
  | k2
  /-- the one phase of a one-phase command: D0, S0, M0, I0, U0, P0 -/
  | only
  /-- the phases T0 and T1 of WRITE_TEXT (R176) -/
  | t0 | t1
  /-- the phase T2 of WRITE_TEXT, with the byte `c` that T1 read -/
  | t2 (c : Byte)
  /-- the phases N0 and N1 of the number writes (R180, R181) -/
  | n0 | n1
  /-- the phase N2 of the number writes, with the byte `c` that N1 read -/
  | n2 (c : Byte)
  deriving DecidableEq, Repr

/-- An element of state that may hold no value (R12), as the info of UninitRead names it. -/
inductive Element where
  | pbuf (k : Nat)
  | res
  | str
  | brr
  | tmem (a : Nat)
  deriving DecidableEq, Repr

/-- The fault codes of R201, each with the info it records. -/
inductive FaultCode where
  | illegalCommand (v : Word)
  | cmdWhileBusy (v : Word)
  | accessWhileBusy (off : BitVec 12)
  | badOffset (off : BitVec 12)
  | badAccess (off : BitVec 12)
  | accessRight (off : BitVec 12)
  | reservedBits (off : BitVec 12) (v : Word)
  | busNotEnabled
  | uninitRead (e : Element)
  | noDescriptor (reg : BitVec 6)
  | uartNotEnabled
  | uartNotInitialised
  | uartReconfigWhileEnabled (div : BitVec 16)
  | textUnterminated (a : Nat)
  deriving DecidableEq, Repr

/-- The fault record FAULT (R24, R200): the code with its info, and the running command where SEQ raised it. -/
structure FaultRecord where
  code : FaultCode
  cmd : Option Instr
  deriving DecidableEq, Repr

/-- The events of the bus trace (R8): S, A(sadd, dir), W(b), R(b), P. -/
inductive BusEvent where
  | start
  | addr (sadd : BitVec 7) (dir : Dir)
  | wr (b : Byte)
  | rd (b : Byte)
  | stop
  deriving DecidableEq, Repr

/-- One operation of HOST's program (R93, R94, D39). A read or write carries its width in bits, so that an access of a
width other than 32 bits can be made (R56). WAITIDLE is HOST's own loop over STATUS reads (R94). -/
inductive HostOp where
  | read (width : Nat) (off : BitVec 12)
  | write (width : Nat) (off : BitVec 12) (v : Word)
  | waitIdle
  deriving DecidableEq, Repr

/-- PBUF (R30): three bytes, each holding a value or none (its validity bit clear, R12). -/
structure Pbuf where
  b0 : Option Byte
  b1 : Option Byte
  b2 : Option Byte
  deriving DecidableEq, Repr

/-- The value of STR (R32): three bytes with one validity bit for the whole register. -/
structure StrReg where
  b0 : Byte
  b1 : Byte
  b2 : Byte
  deriving DecidableEq, Repr

/-- TMEM as a list of (address, byte) pairs, addresses strictly rising. An address that is not listed holds no value
(its validity bit is clear, R12, R38). -/
abbrev Memory := List Host.Cell

/-- The state of TWM and of the run it is in. -/
structure State where
  /-- BUSY (R23) -/
  busy : Bool
  /-- CUR, the decoded current command (R23) -/
  cur : Option Instr
  /-- PH (R23) -/
  ph : Phase
  /-- I (R23), 0 to 5: the index of a byte of PBUF or of DBUF -/
  idx : Nat
  /-- I as WRITE_TEXT counts the characters of its text with it (R176), 0 to 256: held apart from `idx`, because it passes
  the range of R23 (log 6) -/
  textPos : Nat
  /-- K (R23) -/
  kIdx : Nat
  /-- FAULT (R24) -/
  fault : Option FaultRecord
  /-- I2C_SADD (R25) -/
  sadd : BitVec 7
  /-- I2C_DIR (R25) -/
  dir : Dir
  /-- I2C_NBYTES (R25) -/
  nbytes : BitVec 2
  /-- I2C_START (R26) -/
  start : Bool
  /-- I2C_STOP (R26) -/
  stop : Bool
  /-- I2C_TXRDY (R26) -/
  txrdy : Bool
  /-- I2C_RXRDY (R26) -/
  rxrdy : Bool
  /-- I2C_TC (R26) -/
  tc : Bool
  /-- I2C_TXD (R26): empty or one byte -/
  txd : Option Byte
  /-- I2C_RXD (R26) -/
  rxd : Byte
  /-- I2C_CTRL.PE (R27) -/
  pe : Bool
  /-- I2C_BUSACT (R28) -/
  busact : Bool
  /-- I2C_CNT (R28) -/
  cnt : BitVec 2
  /-- PBUF (R30) -/
  pbuf : Pbuf
  /-- RES (R31); `none`: its validity bit is clear -/
  res : Option Word
  /-- STR (R32); `none`: its validity bit is clear -/
  str : Option StrReg
  /-- U_EN (R34) -/
  uEn : Bool
  /-- BRR (R35); `none`: its validity bit is clear -/
  brr : Option (BitVec 16)
  /-- U_TXRDY (R36) -/
  uTxrdy : Bool
  /-- U_TC (R36) -/
  uTc : Bool
  /-- U_STAGE (R36): empty or one byte -/
  uStage : Option Byte
  /-- DBUF (R37) -/
  dbuf : Vector Byte 6
  /-- TMEM (R38) -/
  tmem : Memory
  /-- the bus trace BT (R8), oldest event first -/
  busTrace : List BusEvent
  /-- the line trace LT (R8), oldest byte first -/
  lineTrace : List Byte
  /-- HOST's operations still to do (R8, D39), the next first -/
  host : List HostOp
  /-- the values HOST has read (R8), oldest first -/
  hostReads : List Word
  /-- the configuration of the launch (R9): no step writes it (R221) -/
  config : Config
  /-- the model's own: the agents scheduled to move next -/
  sched : List Agent
  /-- the model's own: the counter of the free schedule Config.nextAgent -/
  tick : Nat
  /-- the model's own: the bytes the sensor answers next (inputs of E_RX) -/
  draws : List Byte
  /-- the model's own: the counter of the free bytes Config.sensorByte -/
  drawCount : Nat
  deriving DecidableEq, Repr

/-- Why the machine has no next state. -/
inductive Fault where
  /-- Raised by `step` on a faulted block: R200, "From then on no agent takes a step". `r` is the record the faulting
  step wrote into FAULT. Safe: nothing is claimed of a machine that has stopped. -/
  | halted (r : FaultRecord)
  deriving DecidableEq, Repr

/-- Why a step has no meaning. -/
inductive Refusal where
  /-- An instruction without a meaning; raised only by an arm of `exec`. No arm raises it now. Safe. -/
  | notModelled (mnemonic : String)
  /-- Raised by `launch`, and by `step`, when the configuration of the launch is not well-formed: R132 and R209 have a
  model refuse it before the machine runs. Safe. -/
  | illFormedConfig
  /-- Raised by `launch` when the program uses SENSOR_INIT and the launch does not fix the INIT parameters (R209, D17). No
  step raises it. Safe. -/
  | initNotSupplied
  /-- Raised by `launch` when the program uses READ_ENERGY or READ_CHARGE in mode DEDICATED and the table has no entry for
  its register `reg` (R209, D15). No step raises it. Safe. -/
  | descriptorNotSupplied (reg : BitVec 6)
  deriving DecidableEq, Repr

/-- The state after reset (R220, the reset column of R41). I2C_RXD and DBUF have no value there: 0 is the model's choice
(log 7). The configuration is the default of R9; HOST's program comes from outside (log 3). -/
def State.reset : State :=
  { busy := false, cur := none, ph := .idle, idx := 0, textPos := 0, kIdx := 0, fault := none,
    sadd := 0#7, dir := .write, nbytes := 0#2, start := false, stop := false, txrdy := false, rxrdy := false,
    tc := false, txd := none, rxd := 0#8, pe := false, busact := false, cnt := 0#2,
    pbuf := { b0 := none, b1 := none, b2 := none }, res := none, str := none,
    uEn := false, brr := none, uTxrdy := true, uTc := true, uStage := none, dbuf := Vector.replicate 6 0#8, tmem := [],
    busTrace := [], lineTrace := [], host := [], hostReads := [],
    config := Config.default, sched := [], tick := 0, draws := [], drawCount := 0 }

end Sys2Proof.Machine
end

