-- ==== Sys2Proof/Machine/Ops.lean ====
section
/-!
DEFINITION. The named operations over the state: raising a fault (R200) and ending a command (R11), the accesses to PBUF
and TMEM, the transaction set-up (R101), the advance of a composite command (R151), the transmit step (R174) and the
acceptance of a command (R80). TWM has no return from a fault (R207), so there is none here.
-/

namespace Sys2Proof.Machine

/-! ### Faults and the end of a command -/

/-- `raise Fault(code, info)` (R200): write the FAULT record, and nothing else. -/
def State.raise (s : State) (code : FaultCode) (cmd : Option Instr) : State := { s with fault := some ⟨code, cmd⟩ }

/-- A fault that SEQ raises records the running command CUR (R200). -/
def State.raiseSeq (s : State) (code : FaultCode) : State := s.raise code s.cur

/-- A fault that HOST raises records no command (R200). -/
def State.raiseHost (s : State) (code : FaultCode) : State := s.raise code none

/-- The number of a fault code (R201); a label only, no register holds it. -/
def FaultCode.number : FaultCode → Nat
  | .illegalCommand _ => 0x01
  | .cmdWhileBusy _ => 0x02
  | .accessWhileBusy _ => 0x03
  | .badOffset _ => 0x04
  | .badAccess _ => 0x05
  | .accessRight _ => 0x06
  | .reservedBits _ _ => 0x07
  | .busNotEnabled => 0x08
  | .uninitRead _ => 0x09
  | .noDescriptor _ => 0x0A
  | .uartNotEnabled => 0x0B
  | .uartNotInitialised => 0x0C
  | .uartReconfigWhileEnabled _ => 0x0D
  | .textUnterminated _ => 0x0E

/-- `done` (R11): the command ends, BUSY <- 0. -/
def State.done (s : State) : State := { s with busy := false }

/-! ### PBUF -/

/-- The byte PBUF[k] if it is valid (R12, R30). -/
def Pbuf.get (p : Pbuf) (k : Nat) : Option Byte :=
  match k with
  | 0 => p.b0
  | 1 => p.b1
  | 2 => p.b2
  | _ => none

/-- `PBUF[k] <- b`: the byte becomes valid (R12). -/
def Pbuf.set (p : Pbuf) (k : Nat) (b : Byte) : Pbuf :=
  match k with
  | 0 => { p with b0 := some b }
  | 1 => { p with b1 := some b }
  | 2 => { p with b2 := some b }
  | _ => p

/-- The first index below `n` whose PBUF byte is invalid. -/
def Pbuf.firstInvalid (p : Pbuf) (n : Nat) : Option Nat := (List.range n).find? fun k => (p.get k).isNone

/-! ### TMEM -/

/-- The byte at address `a`, or none where nothing has been written (R12, R38). -/
def Memory.read (m : Memory) (a : Nat) : Option Byte :=
  match m with
  | [] => none
  | (x, b) :: rest => if x = a then some b else Memory.read rest a

/-- Write one byte, keeping the addresses strictly rising. -/
def Memory.write (m : Memory) (a : Nat) (b : Byte) : Memory :=
  match m with
  | [] => [(a, b)]
  | (x, c) :: rest =>
    if a < x then (a, b) :: (x, c) :: rest
    else if a = x then (a, b) :: rest
    else (x, c) :: Memory.write rest a b

/-- The canonical form from address `lo` on: strictly rising addresses, all below TMEM_SIZE. -/
def Memory.wfFrom (lo : Nat) (m : Memory) : Bool :=
  match m with
  | [] => true
  | (a, _) :: rest => decide (lo ≤ a) && decide (a < Config.tmemSize) && Memory.wfFrom (a + 1) rest

/-- The canonical form of TMEM: addresses strictly rising and below TMEM_SIZE. An unlisted address holds no value, so no
entry can equal what an unlisted address reads as. -/
def Memory.wf (m : Memory) : Bool := Memory.wfFrom 0 m

/-- `MemRead(a, 1)` (R60): the end of TMEM is checked before the byte's validity. -/
def State.memRead (s : State) (a : Nat) : Except FaultCode Byte :=
  if Config.tmemSize ≤ a then .error (.textUnterminated a)
  else
    match s.tmem.read a with
    | some b => .ok b
    | none => .error (.uninitRead (.tmem a))

/-- Byte `k` of a 32-bit word, in the little-endian lane order of R54. -/
def laneByte (v : Word) (k : Nat) : Byte := v.extractLsb' (8 * k) 8

/-- A HOST write of a TMEM word (R64, R67): the four bytes become valid. -/
def Memory.writeWord (m : Memory) (a : Nat) (v : Word) : Memory :=
  (((m.write a (laneByte v 0)).write (a + 1) (laneByte v 1)).write (a + 2) (laneByte v 2)).write (a + 3) (laneByte v 3)

/-! ### Transactions -/

/-- `xfer_setup(sadd, dir, n)` after its check of PE (R101): steps (1) to (4) of the protocol. -/
def State.xferSetup (s : State) (sadd : BitVec 7) (dir : Dir) (n : Nat) : State :=
  { s with sadd := sadd, dir := dir, nbytes := BitVec.ofNat 2 n, start := true, idx := 0 }

/-- The end of a K step of a composite command: the next K step begins, in its first phase (R150, R151). -/
def State.nextK (s : State) (ph : Phase) : State := { s with kIdx := s.kIdx + 1, ph := ph }

/-! ### The console -/

/-- `TXBYTE(b)` once its wait is lifted (R174): the byte goes to the stage and both flags fall. -/
def State.fillStage (s : State) (b : Byte) : State := { s with uStage := some b, uTxrdy := false, uTc := false }

/-! ### Acceptance -/

/-- The first phase of a command (R80). -/
def firstPhase : Instr → Phase
  | .i2cWrite _ _ => .w0
  | .i2cRead _ _ => .rd0
  | .decodeReg _ _ => .only
  | .scale _ => .only
  | .mkstr => .only
  | .sensorInit => .w0
  | .readMfrId => .w0
  | .readDeviceId => .w0
  | .readCurrent => .w0
  | .readVoltage => .w0
  | .readTemperature => .w0
  | .readPower => .w0
  | .readEnergy => .w0
  | .readCharge => .w0
  | .uartInit _ => .only
  | .uartStart => .only
  | .uartStop => .only
  | .writeText _ => .t0
  | .writeU8 _ => .n0
  | .writeU16 _ => .n0

/-- The legal half of `accept(v)` (R80): the command becomes the current one, I and K start at 0 and BUSY rises. -/
def State.acceptInstr (s : State) (i : Instr) : State :=
  { s with cur := some i, ph := firstPhase i, idx := 0, textPos := 0, kIdx := 0, busy := true }

end Sys2Proof.Machine
end

