-- ==== Sys2Proof/Machine/Operands.lean ====
section
/-!
DEFINITION. The operand forms of the commands: register descriptors (R133), the operand of a number write (R178), the
characters of the text sources (R175), and the payload bytes of a register address and a 16-bit value (R53, R92, R151).
-/

namespace Sys2Proof.Machine

/-- `desc(reg)` (R133): the entry of DESC for a register address, if there is one. -/
def State.desc (s : State) (reg : BitVec 6) : Option Descriptor := s.config.desc.find? fun d => d.addr == reg

/-- The width of a descriptor's register in bytes. -/
def descBytes (d : Descriptor) : Nat :=
  match d.width with
  | .w16 => 2
  | .w24 => 3

/-- A register address as the byte sent on the bus: `zext_8(REG)` (R92). -/
def regByte (reg : BitVec 6) : Byte := reg.setWidth 8

/-- The load of PBUF in `point(reg)` (R151). -/
def State.loadPointer (s : State) (reg : BitVec 6) : State := { s with pbuf := s.pbuf.set 0 (regByte reg) }

/-- The load of PBUF in `wr16(reg, w)` (R151), big-endian (R53). -/
def State.loadWrite (s : State) (reg : BitVec 6) (w : BitVec 16) : State :=
  { s with pbuf := ((s.pbuf.set 0 (regByte reg)).set 1 (w.extractLsb' 8 8)).set 2 (w.extractLsb' 0 8) }

/-- The operand of a number write (R178): the immediate, or the low bits of RES, which must be valid. -/
def State.numOperand {w : Nat} (s : State) (src : NumSrc w) : Except FaultCode Nat :=
  match src with
  | .imm v => .ok v.toNat
  | .res =>
    match s.res with
    | some v => .ok (v.extractLsb' 0 w).toNat
    | none => .error (.uninitRead .res)

/-- STR[i] (R32), for the three bytes that exist. -/
def StrReg.get (t : StrReg) (i : Nat) : Option Byte :=
  match i with
  | 0 => some t.b0
  | 1 => some t.b1
  | 2 => some t.b2
  | _ => none

/-- The character a text source gives at index `i` (R175, phase T1 of R176): MemRead of TMEM, or STR[i]. The answer
`.ok none` is an index outside STR, which no run reaches (STR[2] is NUL). -/
def State.textChar (s : State) (src : TextSrc) (i : Nat) : Except FaultCode (Option Byte) :=
  match src with
  | .tmem addr =>
    match s.memRead (addr.toNat + i) with
    | .ok b => .ok (some b)
    | .error f => .error f
  | .str =>
    match s.str with
    | some t => .ok (t.get i)
    | none => .error (.uninitRead .str)

end Sys2Proof.Machine
end

