-- ==== Sys2Proof/Machine/Codec.lean ====
section
/-!
DEFINITION. The Register Codec: the decode and scale functions (R134, R135, R136), and the commands DECODE (R137),
SCALE (R138) and MKSTR (R139). Each command is one SEQ step and touches no bus and no line.
-/

namespace Sys2Proof.Machine

/-- The 20-bit field of a 24-bit register: `b0 : b1 : b2[7:4]` (R134). -/
def field20 (b0 b1 b2 : Byte) : BitVec 20 := b0 ++ b1 ++ b2.extractLsb' 4 4

/-- The 24-bit decode (R134). -/
def dec24 (b0 b1 b2 : Byte) (signed : Bool) : Word :=
  if signed && (field20 b0 b1 b2).getLsbD 19 then (field20 b0 b1 b2).setWidth 32 ||| 0xFFF00000#32
  else (field20 b0 b1 b2).setWidth 32

/-- The 12-bit field of a 16-bit register: `b0 : b1[7:4]` (R135, C1). -/
def field12 (b0 b1 : Byte) : BitVec 12 := b0 ++ b1.extractLsb' 4 4

/-- The 16-bit decode (R135): zero-extended. -/
def dec16 (b0 b1 : Byte) : Word := (field12 b0 b1).setWidth 32

/-- The scale function (R136): the exact product, shifted right arithmetically (rounded down), then its low 32 bits. -/
def scaleWord (v : Word) (M S : Nat) : Word := BitVec.ofInt 32 (Int.fdiv (v.toInt * M) ((2 : Int) ^ S))

/-- The value of a valid PBUF byte; an invalid one raises UninitRead (R12). -/
def State.payload (s : State) (k : Nat) : Except FaultCode Byte :=
  match s.pbuf.get k with
  | some b => .ok b
  | none => .error (.uninitRead (.pbuf k))

/-- The decode of PBUF through a descriptor (R137, K2 of R151): the bytes it needs are checked in index order. -/
def State.decodePayload (s : State) (d : Descriptor) : Except FaultCode Word :=
  match s.payload 0 with
  | .error f => .error f
  | .ok b0 =>
    match s.payload 1 with
    | .error f => .error f
    | .ok b1 =>
      match d.width with
      | .w16 => .ok (dec16 b0 b1)
      | .w24 =>
        match s.payload 2 with
        | .error f => .error f
        | .ok b2 => .ok (dec24 b0 b1 b2 d.signed)

/-- The value after applying a descriptor's scale, if `sc` asks for it (R137, R151). -/
def scaledBy (d : Descriptor) (sc : Bool) (v : Word) : Word := if sc then scaleWord v d.M d.S else v

/-- `RES <- v; done` (R137, R138, R151): RES becomes valid. -/
def State.finishRes (s : State) (v : Word) : State := { s with res := some v, busy := false }

/-- Decode PBUF through a descriptor, optionally scale, write RES, and end (R137 and K2 of R151). -/
def decodeToRes (d : Descriptor) (sc : Bool) (s : State) : State :=
  match s.decodePayload d with
  | .ok v => s.finishRes (scaledBy d sc v)
  | .error f => s.raiseSeq f

/-- Make STR from PBUF[0], PBUF[1] and a NUL, and end (R139 and K2 of R154). -/
def makeStr (s : State) : State :=
  match s.payload 0 with
  | .error f => s.raiseSeq f
  | .ok b0 =>
    match s.payload 1 with
    | .error f => s.raiseSeq f
    | .ok b1 => { s with str := some ⟨b0, b1, 0x00#8⟩, busy := false }

/-- DECODE (R137). -/
def execDecodeReg (reg : BitVec 6) (sc : Bool) (s : State) : Host.Outcome State Fault Refusal :=
  match s.desc reg with
  | none => .next (s.raiseSeq (.noDescriptor reg))
  | some d => .next (decodeToRes d sc s)

/-- SCALE (R138). -/
def execScale (reg : BitVec 6) (s : State) : Host.Outcome State Fault Refusal :=
  match s.desc reg with
  | none => .next (s.raiseSeq (.noDescriptor reg))
  | some d =>
    match s.res with
    | none => .next (s.raiseSeq (.uninitRead .res))
    | some v => .next (s.finishRes (scaleWord v d.M d.S))

/-- MKSTR (R139). -/
def execMkstr (s : State) : Host.Outcome State Fault Refusal := .next (makeStr s)

end Sys2Proof.Machine
end

