-- ==== Sys2Proof/Machine/Console.lean ====
section
/-!
DEFINITION. The Serial Console Driver: UART_INIT (R171), UART_START (R172), UART_STOP (R173), the transmit step (R174),
WRITE_TEXT (R176), the decimal formatter (R182 to R184), WRITE_U8 (R180) and WRITE_U16 (R181).
-/

namespace Sys2Proof.Machine

/-- UART_INIT (R171). -/
def execUartInit (div : BitVec 16) (s : State) : Host.Outcome State Fault Refusal :=
  if s.uEn then .next (s.raiseSeq (.uartReconfigWhileEnabled div))
  else .next { s with brr := some div, busy := false }

/-- UART_START (R172). -/
def execUartStart (s : State) : Host.Outcome State Fault Refusal :=
  match s.brr with
  | none => .next (s.raiseSeq .uartNotInitialised)
  | some _ => .next { s with uEn := true, busy := false }

/-- UART_STOP (R173): wait for U_TC, then disable. -/
def execUartStop (s : State) : Host.Outcome State Fault Refusal :=
  if s.uTc then .next { s with uEn := false, busy := false } else .next s

/-- `TXBYTE(c)` (R174): wait for U_TXRDY and fill the stage; `fin` is what follows it in the same step. -/
def seqTxByte (c : Byte) (fin : State → State) (s : State) : State := if s.uTxrdy then fin (s.fillStage c) else s

/-- The end of T2: `I <- I + 1; go to T1` (R176). -/
def State.nextChar (s : State) : State := { s with textPos := s.textPos + 1, ph := .t1 }

/-- The end of N2: `I <- I + 1; go to N1` (R180). -/
def State.nextDigit (s : State) : State := { s with idx := s.idx + 1, ph := .n1 }

/-- The end of T1 and N1: a NUL ends the command, any other character goes to the sending phase (R176, R180). -/
def takeChar (c : Byte) (send : Byte → Phase) (s : State) : State :=
  if c = 0x00#8 then s.done else { s with ph := send c }

/-- T0 (R176): the console must be enabled, and STR valid if it is the source. -/
def seqT0 (src : TextSrc) (s : State) : State :=
  if s.uEn then
    match src, s.str with
    | .str, none => s.raiseSeq (.uninitRead .str)
    | _, _ => { s with textPos := 0, ph := .t1 }
  else s.raiseSeq .uartNotEnabled

/-- T1 (R176): fetch the next character of the text. -/
def seqT1 (src : TextSrc) (s : State) : State :=
  match s.textChar src s.textPos with
  | .error f => s.raiseSeq f
  | .ok none => s
  | .ok (some c) => takeChar c Phase.t2 s

/-- WRITE_TEXT (R176). -/
def execWriteText (src : TextSrc) (s : State) : Host.Outcome State Fault Refusal :=
  match s.ph with
  | .t0 => .next (seqT0 src s)
  | .t1 => .next (seqT1 src s)
  | .t2 c => .next (seqTxByte c State.nextChar s)
  | _ => .next s

/-- The inner loop of the formatter (R184): `while n >= p: n <- n - p; d <- d + 1`, at most `fuel` times. A digit never
needs more than 9 (R184). -/
def subtractPlace (fuel : Nat) (n p : Nat) (d : Byte) : Nat × Byte :=
  match fuel with
  | 0 => (n, d)
  | f + 1 => if p ≤ n then subtractPlace f (n - p) p (d + 1#8) else (n, d)

/-- The outer loop of the formatter (R184): one digit per place, leading zeros dropped (R183), then the NUL. -/
def fmtPlaces (places : List Nat) (n j : Nat) (started : Bool) (buf : Vector Byte 6) : Vector Byte 6 :=
  match places with
  | [] => buf.setIfInBounds j 0x00#8
  | p :: rest =>
    if (subtractPlace 9 n p 0x30#8).2 != 0x30#8 || started || p == 1 then
      fmtPlaces rest (subtractPlace 9 n p 0x30#8).1 (j + 1) true
        (buf.setIfInBounds j (subtractPlace 9 n p 0x30#8).2)
    else fmtPlaces rest (subtractPlace 9 n p 0x30#8).1 j started buf

/-- The digit places of WRITE_U8 (R179). -/
def placesU8 : List Nat := [100, 10, 1]

/-- The digit places of WRITE_U16 (R179). -/
def placesU16 : List Nat := [10000, 1000, 100, 10, 1]

/-- N0 (R180, R181): the console must be enabled and the operand valid; then the formatter writes DBUF. -/
def seqN0 {w : Nat} (places : List Nat) (src : NumSrc w) (s : State) : State :=
  if s.uEn then
    match s.numOperand src with
    | .error f => s.raiseSeq f
    | .ok n => { s with dbuf := fmtPlaces places n 0 false s.dbuf, idx := 0, ph := .n1 }
  else s.raiseSeq .uartNotEnabled

/-- N1 (R180): fetch the next character of DBUF. An index outside DBUF (no run reaches it) leaves the state as it is. -/
def seqN1 (s : State) : State :=
  match s.dbuf[s.idx]? with
  | some c => takeChar c Phase.n2 s
  | none => s

/-- The phases of a number write (R180, R181). -/
def writeNumber {w : Nat} (places : List Nat) (src : NumSrc w) (s : State) : State :=
  match s.ph with
  | .n0 => seqN0 places src s
  | .n1 => seqN1 s
  | .n2 c => seqTxByte c State.nextDigit s
  | _ => s

/-- WRITE_U8 (R180). -/
def execWriteU8 (src : NumSrc 8) (s : State) : Host.Outcome State Fault Refusal := .next (writeNumber placesU8 src s)

/-- WRITE_U16 (R181). -/
def execWriteU16 (src : NumSrc 16) (s : State) : Host.Outcome State Fault Refusal := .next (writeNumber placesU16 src s)

end Sys2Proof.Machine
end

