-- ==== Sys2Proof/Machine/Transaction.lean ====
section
/-!
DEFINITION. The Bus Transaction Driver: the phases W0 to W3 and RD0 to RD3 (R100 to R105), which the composite commands
share, and the commands I2C_WRITE (R102) and I2C_READ (R104). A phase whose `wait` is not lifted leaves the state as it
is (R11, R108).
-/

namespace Sys2Proof.Machine

/-- W0 of `BTD_WRITE(sadd, n)` (R102, R103), with the statements `load` of the K step that calls it. PE and then the
bytes to send are checked before anything is written (R200, R202). -/
def seqW0 (load : State → State) (sadd : BitVec 7) (n : Nat) (s : State) : State :=
  if s.pe then
    match (load s).pbuf.firstInvalid n with
    | some k => s.raiseSeq (.uninitRead (.pbuf k))
    | none => { (load s).xferSetup sadd .write n with ph := .w1 }
  else s.raiseSeq .busNotEnabled

/-- W2 and RD2 (R102, R104): wait for I2C_TC, then request the stop. `next` is the phase that follows. -/
def seqStop (next : Phase) (s : State) : State := if s.tc then { s with stop := true, ph := next } else s

/-- W1 (R102): one byte of the write, when I2C_TXRDY is up. The last byte ends the loop, so no run reaches the phase with
no byte left to move. -/
def seqW1 (n : Nat) (s : State) : State :=
  if s.idx < n then
    if s.txrdy then
      match s.pbuf.get s.idx with
      | some b =>
        { s with txd := some b, txrdy := false, idx := s.idx + 1, ph := if s.idx + 1 < n then .w1 else .w2 }
      | none => s.raiseSeq (.uninitRead (.pbuf s.idx))
    else s
  else { s with ph := .w2 }

/-- W3 and RD3 (R102, R104): wait until the stop is on the bus, then go on with `fin`. -/
def seqStopped (fin : State → State) (s : State) : State := if s.stop then s else fin s

/-- `BTD_WRITE(sadd, n)` (R103) as the SEQ step of the current phase; `fin` is what follows W3. -/
def btdWrite (load : State → State) (sadd : BitVec 7) (n : Nat) (fin : State → State) (s : State) : State :=
  match s.ph with
  | .w0 => seqW0 load sadd n s
  | .w1 => seqW1 n s
  | .w2 => seqStop .w3 s
  | .w3 => seqStopped fin s
  | _ => s

/-- RD0 of `BTD_READ(sadd, n)` (R104): the set-up, which checks PE (R101). -/
def seqRD0 (sadd : BitVec 7) (n : Nat) (s : State) : State :=
  if s.pe then { s.xferSetup sadd .read n with ph := .rd1 } else s.raiseSeq .busNotEnabled

/-- RD1 (R104): take one received byte into PBUF, when I2C_RXRDY is up. The last byte ends the loop, as in W1. -/
def seqRD1 (n : Nat) (s : State) : State :=
  if s.idx < n then
    if s.rxrdy then
      { s with
        pbuf := s.pbuf.set s.idx s.rxd, rxrdy := false, idx := s.idx + 1,
        ph := if s.idx + 1 < n then .rd1 else .rd2 }
    else s
  else { s with ph := .rd2 }

/-- `BTD_READ(sadd, n)` (R105) as the SEQ step of the current phase; `fin` is what follows RD3. -/
def btdRead (sadd : BitVec 7) (n : Nat) (fin : State → State) (s : State) : State :=
  match s.ph with
  | .rd0 => seqRD0 sadd n s
  | .rd1 => seqRD1 n s
  | .rd2 => seqStop .rd3 s
  | .rd3 => seqStopped fin s
  | _ => s

/-- I2C_WRITE (R102): write PBUF[0..NB-1] to a slave. -/
def execI2cWrite (sadd : BitVec 7) (nb : BitVec 2) (s : State) : Host.Outcome State Fault Refusal :=
  .next (btdWrite id sadd nb.toNat State.done s)

/-- I2C_READ (R104): read NB bytes from a slave into PBUF. -/
def execI2cRead (sadd : BitVec 7) (nb : BitVec 2) (s : State) : Host.Outcome State Fault Refusal :=
  .next (btdRead sadd nb.toNat State.done s)

end Sys2Proof.Machine
end

