-- ==== Sys2Proof/Machine/Sensor.lean ====
section
/-!
DEFINITION. The composite sensor commands (R150 to R162). K (State.kIdx) names the K step; a K step that calls BTD_WRITE or
BTD_READ runs its phases, and the end of the last one starts the next K step or ends the command.
-/

namespace Sys2Proof.Machine

/-- The K step `point(reg)` (R151); a read transaction is the next K step. -/
def pointStep (reg : BitVec 6) (s : State) : State :=
  btdWrite (fun t => t.loadPointer reg) Config.sensorSadd 1 (fun t => t.nextK .rd0) s

/-- K0 of `sensor_read(reg, sc)` (R151): the descriptor is looked up in the first phase, before any bus activity. -/
def sensorReadK0 (reg : BitVec 6) (s : State) : State :=
  match s.ph, s.desc reg with
  | .w0, none => s.raiseSeq (.noDescriptor reg)
  | _, _ => pointStep reg s

/-- K1 of `sensor_read(reg, sc)` (R151): read the descriptor's full width. -/
def sensorReadK1 (d : Descriptor) (s : State) : State :=
  btdRead Config.sensorSadd (descBytes d) (fun t => t.nextK .k2) s

/-- `sensor_read(reg, sc)` (R151) as the SEQ step of the current K step and phase. `d` of K1 and K2 is the one K0
found: DESC never changes (R33). -/
def sensorRead (reg : BitVec 6) (sc : Bool) (s : State) : State :=
  match s.kIdx with
  | 0 => sensorReadK0 reg s
  | k + 1 =>
    match s.desc reg with
    | none => s.raiseSeq (.noDescriptor reg)
    | some d => if k = 0 then sensorReadK1 d s else if k = 1 then decodeToRes d sc s else s

/-- The K step `wr16(reg, w)` (R151) of SENSOR_INIT; `fin` is what follows it. -/
def wr16Step (reg : BitVec 6) (w : BitVec 16) (fin : State → State) (s : State) : State :=
  btdWrite (fun t => t.loadWrite reg w) Config.sensorSadd 3 fin s

/-- SENSOR_INIT (R152): soft reset, ADC range, conversion mode, shunt calibration, in this order. -/
def execSensorInit (s : State) : Host.Outcome State Fault Refusal :=
  match s.kIdx with
  | 0 => .next (wr16Step s.config.regs.config s.config.initWords.rst (fun t => t.nextK .w0) s)
  | 1 => .next (wr16Step s.config.initWords.rangeReg s.config.initWords.range (fun t => t.nextK .w0) s)
  | 2 => .next (wr16Step s.config.regs.adcConfig s.config.initWords.adc (fun t => t.nextK .w0) s)
  | 3 => .next (wr16Step s.config.regs.shuntCal s.config.initWords.shuntCal State.done s)
  | _ => .next s

/-- READ_MFR_ID (R154): no descriptor is needed. -/
def execReadMfrId (s : State) : Host.Outcome State Fault Refusal :=
  match s.kIdx with
  | 0 => .next (pointStep s.config.regs.mfrId s)
  | 1 => .next (btdRead Config.sensorSadd 2 (fun t => t.nextK .k2) s)
  | 2 => .next (makeStr s)
  | _ => .next s

/-- READ_DEVICE_ID (R155). -/
def execReadDeviceId (s : State) : Host.Outcome State Fault Refusal :=
  .next (sensorRead s.config.regs.deviceId false s)

/-- READ_CURRENT (R156): the only read that scales. -/
def execReadCurrent (s : State) : Host.Outcome State Fault Refusal :=
  .next (sensorRead s.config.regs.current true s)

/-- READ_VOLTAGE (R157). -/
def execReadVoltage (s : State) : Host.Outcome State Fault Refusal :=
  .next (sensorRead s.config.regs.vbus false s)

/-- READ_TEMPERATURE (R158). -/
def execReadTemperature (s : State) : Host.Outcome State Fault Refusal :=
  .next (sensorRead s.config.regs.dieTemp false s)

/-- READ_POWER (R159). -/
def execReadPower (s : State) : Host.Outcome State Fault Refusal :=
  .next (sensorRead s.config.regs.power false s)

/-- The register READ_ENERGY reads: the current register in mode BUG, its own in mode DEDICATED (R160, R162). -/
def energyReg (c : Config) : BitVec 6 :=
  match c.mode with
  | .bug => c.regs.current
  | .dedicated => c.regs.energy

/-- The register READ_CHARGE reads: the current register in mode BUG, its own in mode DEDICATED (R161, R162). -/
def chargeReg (c : Config) : BitVec 6 :=
  match c.mode with
  | .bug => c.regs.current
  | .dedicated => c.regs.charge

/-- READ_ENERGY (R160): unscaled (C6). -/
def execReadEnergy (s : State) : Host.Outcome State Fault Refusal := .next (sensorRead (energyReg s.config) false s)

/-- READ_CHARGE (R161): unscaled (C6). -/
def execReadCharge (s : State) : Host.Outcome State Fault Refusal := .next (sensorRead (chargeReg s.config) false s)

end Sys2Proof.Machine
end

