-- ==== Sys2Proof/Machine/Dispatch.lean ====
section
/-!
DEFINITION. One SEQ step of a command: the phase State.ph of the command is run (R23, D44).
-/

namespace Sys2Proof.Machine

def exec (i : Instr) (s : State) : Host.Outcome State Fault Refusal :=
  match i with
  | .i2cWrite sadd nb => Sys2Proof.Machine.execI2cWrite sadd nb s
  | .i2cRead sadd nb => Sys2Proof.Machine.execI2cRead sadd nb s
  | .decodeReg reg sc => Sys2Proof.Machine.execDecodeReg reg sc s
  | .scale reg => Sys2Proof.Machine.execScale reg s
  | .mkstr => Sys2Proof.Machine.execMkstr s
  | .sensorInit => Sys2Proof.Machine.execSensorInit s
  | .readMfrId => Sys2Proof.Machine.execReadMfrId s
  | .readDeviceId => Sys2Proof.Machine.execReadDeviceId s
  | .readCurrent => Sys2Proof.Machine.execReadCurrent s
  | .readVoltage => Sys2Proof.Machine.execReadVoltage s
  | .readTemperature => Sys2Proof.Machine.execReadTemperature s
  | .readPower => Sys2Proof.Machine.execReadPower s
  | .readEnergy => Sys2Proof.Machine.execReadEnergy s
  | .readCharge => Sys2Proof.Machine.execReadCharge s
  | .uartInit div => Sys2Proof.Machine.execUartInit div s
  | .uartStart => Sys2Proof.Machine.execUartStart s
  | .uartStop => Sys2Proof.Machine.execUartStop s
  | .writeText src => Sys2Proof.Machine.execWriteText src s
  | .writeU8 src => Sys2Proof.Machine.execWriteU8 src s
  | .writeU16 src => Sys2Proof.Machine.execWriteU16 src s

end Sys2Proof.Machine
end

