-- ==== Sys2Proof/Machine/Env.lean ====
section
/-!
DEFINITION. The environment agents: the four steps of BUSENV (R110, R111, R112, R114) and the step of LINEENV (R186). A
rule that is not enabled leaves the state as it is.
-/

namespace Sys2Proof.Machine

/-- `emit Bus(e)` (R11). -/
def State.emitBus (s : State) (es : List BusEvent) : State := { s with busTrace := s.busTrace ++ es }

/-- E_START (R110): the start condition and the address phase. -/
def eStart (s : State) : State :=
  if s.start && !s.stop && !s.busact then
    { s.emitBus [.start, .addr s.sadd s.dir] with
      busact := true, start := false, cnt := 0#2,
      txrdy := match s.dir with | .write => true | .read => s.txrdy }
  else s

/-- E_TX (R111): one byte written to the slave. -/
def eTx (s : State) : State :=
  match s.busact, s.dir, s.txd with
  | true, .write, some b =>
    if s.cnt + 1#2 < s.nbytes then
      { s.emitBus [.wr b] with txd := none, cnt := s.cnt + 1#2, txrdy := true }
    else { s.emitBus [.wr b] with txd := none, cnt := s.cnt + 1#2, tc := true }
  | _, _, _ => s

/-- The byte E_RX draws (R112, R116): the next byte of State.draws, else a free one. -/
def State.drawByte (s : State) : Byte :=
  match s.draws with
  | b :: _ => b
  | [] => Config.sensorByte s.drawCount

/-- The draw is taken: the next E_RX draws another byte. -/
def State.drawn (s : State) : State :=
  match s.draws with
  | _ :: rest => { s with draws := rest }
  | [] => { s with drawCount := s.drawCount + 1 }

/-- E_RX (R112): one byte read from the slave. -/
def eRx (s : State) : State :=
  match s.busact, s.dir with
  | true, .read =>
    if !s.rxrdy && decide (s.cnt < s.nbytes) then
      { s.drawn.emitBus [.rd s.drawByte] with
        rxd := s.drawByte, rxrdy := true, cnt := s.cnt + 1#2,
        tc := if s.cnt + 1#2 = s.nbytes then true else s.tc }
    else s
  | _, _ => s

/-- E_STOP (R114): the stop condition. -/
def eStop (s : State) : State :=
  if s.stop then
    { s.emitBus [.stop] with stop := false, tc := false, busact := false, txrdy := false, cnt := 0#2 }
  else s

/-- One step of BUSENV, by the rule the schedule names (R7, R110 to R114). -/
def busStep (r : BusRule) (s : State) : State :=
  match r with
  | .eStart => eStart s
  | .eTx => eTx s
  | .eRx => eRx s
  | .eStop => eStop s

/-- E_LINE, the step of LINEENV (R186): the staged byte goes on the line. -/
def lineStep (s : State) : State :=
  match s.uStage with
  | some b => { s with lineTrace := s.lineTrace ++ [b], uStage := none, uTxrdy := true, uTc := true }
  | none => s

end Sys2Proof.Machine
end

