-- ==== Sys2Proof/Machine/Flags.lean ====
section
/-!
DEFINITION. The flag and field words of TWM: STATUS, I2C_CTRL and I2C_XFER (R40, R66). TWM has no arithmetic flags
(R22): its only flags are the handshake flags, which STATUS shows.
-/

namespace Sys2Proof.Machine

/-- The direction bit: 0 write, 1 read (R25, D43). -/
def Dir.bit : Dir → BitVec 1
  | .write => 0#1
  | .read => 1#1

/-- STATUS (R40, R66): `zext_32(U_TC : U_TXRDY : U_EN : I2C_BUSACT : I2C_TC : I2C_RXRDY : I2C_TXRDY : BUSY)`. -/
def State.statusWord (s : State) : Word :=
  (BitVec.ofBool s.uTc ++ BitVec.ofBool s.uTxrdy ++ BitVec.ofBool s.uEn ++ BitVec.ofBool s.busact
    ++ BitVec.ofBool s.tc ++ BitVec.ofBool s.rxrdy ++ BitVec.ofBool s.txrdy ++ BitVec.ofBool s.busy).setWidth 32

/-- I2C_CTRL (R40, R66): `zext_32(PE)`. -/
def State.ctrlWord (s : State) : Word := (BitVec.ofBool s.pe).setWidth 32

/-- I2C_XFER (R40, R66): `zext_32(I2C_NBYTES : 0b0000000 : I2C_DIR : 0b0 : I2C_SADD)`. -/
def State.xferWord (s : State) : Word := (s.nbytes ++ 0#7 ++ s.dir.bit ++ 0#1 ++ s.sadd).setWidth 32

end Sys2Proof.Machine
end

