-- ==== Sys2Proof/Machine/Port.lean ====
section
/-!
DEFINITION. HOST's side of TWM: the register map (R61, R62), the checks of a host access and their order (R65), HostRead
(R66), HostWrite (R67), the acceptance of a command (R80), the step of the HOST agent, and the pseudo-instructions of a
host program (R94).
-/

namespace Sys2Proof.Machine

/-- The registers of the map R62; `tmem a` is the window word that holds TMEM[a] to TMEM[a+3] (R64). -/
inductive HostReg where
  | cmd
  | status
  | i2cCtrl
  | i2cXfer
  | pbuf
  | res
  | str
  | uartBrr
  | tmem (a : Nat)
  deriving DecidableEq, Repr

/-- The register at an aligned offset (R62, R64); none is a reserved offset (R61, R63). -/
def hostReg (off : BitVec 12) : Option HostReg :=
  if off = 0x000#12 then some .cmd
  else if off = 0x004#12 then some .status
  else if off = 0x008#12 then some .i2cCtrl
  else if off = 0x00C#12 then some .i2cXfer
  else if off = 0x010#12 then some .pbuf
  else if off = 0x014#12 then some .res
  else if off = 0x018#12 then some .str
  else if off = 0x01C#12 then some .uartBrr
  else if 0x100 ≤ off.toNat ∧ off.toNat ≤ 0x1FC then some (.tmem (off.toNat - 0x100))
  else none

/-- Check 1 of R65 (R56): 32 bits wide and 4-byte aligned. -/
def goodShape (width : Nat) (off : BitVec 12) : Bool := width == 32 && off.extractLsb' 0 2 == 0#2

/-- Checks 1 to 3 of R65 for a read: shape, map, BUSY. -/
def readTarget (s : State) (width : Nat) (off : BitVec 12) : Except FaultCode HostReg :=
  if goodShape width off then
    match hostReg off with
    | none => .error (.badOffset off)
    | some r => if s.busy && r != .status then .error (.accessWhileBusy off) else .ok r
  else .error (.badAccess off)

/-- Checks 1 to 3 of R65 for a write: shape, map, BUSY. -/
def writeTarget (s : State) (width : Nat) (off : BitVec 12) (v : Word) : Except FaultCode HostReg :=
  if goodShape width off then
    match hostReg off with
    | none => .error (.badOffset off)
    | some r =>
      if s.busy then (if r = .cmd then .error (.cmdWhileBusy v) else .error (.accessWhileBusy off)) else .ok r
  else .error (.badAccess off)

/-- The value of an element that must be valid, as R66's `require` asks. -/
def require {α : Type} (e : Element) (v : Option α) : Except FaultCode α :=
  match v with
  | some x => .ok x
  | none => .error (.uninitRead e)

/-- PBUF as a host word (R40, R54, R66): the bytes are required in index order. -/
def State.pbufWord (s : State) : Except FaultCode Word :=
  match require (.pbuf 0) s.pbuf.b0 with
  | .error f => .error f
  | .ok b0 =>
    match require (.pbuf 1) s.pbuf.b1 with
    | .error f => .error f
    | .ok b1 =>
      match require (.pbuf 2) s.pbuf.b2 with
      | .error f => .error f
      | .ok b2 => .ok ((b2 ++ b1 ++ b0).setWidth 32)

/-- STR as a host word (R40, R54, R66). -/
def State.strWord (s : State) : Except FaultCode Word :=
  match require .str s.str with
  | .error f => .error f
  | .ok t => .ok ((t.b2 ++ t.b1 ++ t.b0).setWidth 32)

/-- UART_BRR as a host word (R40, R66). -/
def State.brrWord (s : State) : Except FaultCode Word :=
  match require .brr s.brr with
  | .error f => .error f
  | .ok d => .ok (d.setWidth 32)

/-- The TMEM window word at TMEM address `a` (R64, R66): the bytes are required in index order. -/
def State.tmemWord (s : State) (a : Nat) : Except FaultCode Word :=
  match require (.tmem a) (s.tmem.read a) with
  | .error f => .error f
  | .ok b0 =>
    match require (.tmem (a + 1)) (s.tmem.read (a + 1)) with
    | .error f => .error f
    | .ok b1 =>
      match require (.tmem (a + 2)) (s.tmem.read (a + 2)) with
      | .error f => .error f
      | .ok b2 =>
        match require (.tmem (a + 3)) (s.tmem.read (a + 3)) with
        | .error f => .error f
        | .ok b3 => .ok ((b3 ++ b2 ++ b1 ++ b0).setWidth 32)

/-- The value a read of a register returns, after checks 1 to 3 (checks 4 and 6 of R65, R66). -/
def readReg (s : State) (off : BitVec 12) (r : HostReg) : Except FaultCode Word :=
  match r with
  | .cmd => .error (.accessRight off)
  | .status => .ok s.statusWord
  | .i2cCtrl => .ok s.ctrlWord
  | .i2cXfer => .ok s.xferWord
  | .pbuf => s.pbufWord
  | .res => require .res s.res
  | .str => s.strWord
  | .uartBrr => s.brrWord
  | .tmem a => s.tmemWord a

/-- HostRead (R65, R66): a read changes no state. -/
def hostRead (s : State) (width : Nat) (off : BitVec 12) : Except FaultCode Word :=
  match readTarget s width off with
  | .error f => .error f
  | .ok r => readReg s off r

/-- `accept(v)` (R80). -/
def accept (s : State) (v : Word) : Except FaultCode State :=
  match decode v with
  | .error _ => .error (.illegalCommand v)
  | .ok i => .ok (s.acceptInstr i)

/-- The effect of a write of a register, after checks 1 to 3 (checks 4 and 5 of R65, R67). -/
def writeReg (s : State) (off : BitVec 12) (v : Word) (r : HostReg) : Except FaultCode State :=
  match r with
  | .cmd => accept s v
  | .i2cCtrl =>
    if v.extractLsb' 1 31 = 0#31 then .ok { s with pe := v.getLsbD 0 } else .error (.reservedBits off v)
  | .pbuf =>
    if v.extractLsb' 24 8 = 0#8 then
      .ok { s with pbuf := ⟨some (laneByte v 0), some (laneByte v 1), some (laneByte v 2)⟩ }
    else .error (.reservedBits off v)
  | .tmem a => .ok { s with tmem := s.tmem.writeWord a v }
  | .status => .error (.accessRight off)
  | .i2cXfer => .error (.accessRight off)
  | .res => .error (.accessRight off)
  | .str => .error (.accessRight off)
  | .uartBrr => .error (.accessRight off)

/-- HostWrite (R65, R67). -/
def hostWrite (s : State) (width : Nat) (off : BitVec 12) (v : Word) : Except FaultCode State :=
  match writeTarget s width off v with
  | .error f => .error f
  | .ok r => writeReg s off v r

/-- HOST has read the value `v` and goes on with the operations `ops`. -/
def State.hostGot (s : State) (v : Word) (ops : List HostOp) : State :=
  { s with hostReads := s.hostReads ++ [v], host := ops }

/-- The step of HOST (R7): its next operation. A faulting access writes the FAULT record and nothing else (R200). WAITIDLE
is one STATUS read, repeated while bit 0 of the value is 1 (R94). -/
def hostStep (s : State) : State :=
  match s.host with
  | [] => s
  | .read width off :: ops =>
    match hostRead s width off with
    | .ok v => s.hostGot v ops
    | .error f => s.raiseHost f
  | .write width off v :: ops =>
    match hostWrite s width off v with
    | .ok t => { t with host := ops }
    | .error f => s.raiseHost f
  | .waitIdle :: ops =>
    match hostRead s 32 0x004#12 with
    | .ok v => s.hostGot v (if v.getLsbD 0 then .waitIdle :: ops else ops)
    | .error f => s.raiseHost f

/-! ### Host programs (R93, R94) -/

/-- `HR off` (R93). -/
def HostOp.hr (off : BitVec 12) : HostOp := .read 32 off

/-- `HW off, v` (R93). -/
def HostOp.hw (off : BitVec 12) (v : Word) : HostOp := .write 32 off v

/-- A command line of a host program: `HW 0x000, <its word>` (R93). -/
def HostOp.command (i : Instr) : HostOp := .hw 0x000#12 (encode i)

/-- `RUN cmd` (R94). -/
def hostRun (i : Instr) : List HostOp := [.command i, .waitIdle]

/-- `LDPBUF b0, b1, b2` (R94). -/
def hostLdPbuf (b0 b1 b2 : Byte) : List HostOp := [.hw 0x010#12 ((b2 ++ b1 ++ b0).setWidth 32)]

/-- `ENABLE_BUS` (R94). -/
def hostEnableBus : List HostOp := [.hw 0x008#12 0x00000001#32]

/-- The words of a text that is NUL-terminated: four bytes a word, the last word padded with NULs (R94). -/
def textWords : List Byte → List Word
  | b0 :: b1 :: b2 :: b3 :: rest => (b3 ++ b2 ++ b1 ++ b0).setWidth 32 :: textWords rest
  | [b0, b1, b2] => [(b2 ++ b1 ++ b0).setWidth 32]
  | [b0, b1] => [(b1 ++ b0).setWidth 32]
  | [b0] => [b0.setWidth 32]
  | [] => [0#32]

/-- HW writes of successive words from offset `off` on. -/
def writeWords (off : Nat) : List Word → List HostOp
  | [] => []
  | w :: ws => .hw (BitVec.ofNat 12 off) w :: writeWords (off + 4) ws

/-- `LDTEXT a, "s"` (R94), with `a` a multiple of 4 and `s` the bytes of the text. -/
def hostLdText (a : Nat) (text : List Byte) : List HostOp := writeWords (0x100 + a) (textWords text)

end Sys2Proof.Machine
end

