-- ==== Sys2Proof/Machine/Agents.lean ====
section
/-!
DEFINITION. The step of one agent (R7), the choice of the next mover, and how a word comes to be SEQ's command.
-/

namespace Sys2Proof.Machine

/-- The step of SEQ (R23): only while BUSY = 1, one phase of the current command. -/
def seqStep (s : State) : Host.Outcome State Fault Refusal :=
  if s.busy then
    match s.cur with
    | some i => exec i s
    | none => .next s
  else .next s

/-- The step of one agent (R7). -/
def agentStep (a : Agent) (s : State) : Host.Outcome State Fault Refusal :=
  match a with
  | .host => .next (hostStep s)
  | .seq => seqStep s
  | .bus r => .next (busStep r s)
  | .line => .next (lineStep s)

/-- The agent that moves next: the schedule's, else the free choice (R7). -/
def State.mover (s : State) : Agent :=
  match s.sched with
  | a :: _ => a
  | [] => Config.nextAgent s.tick

/-- The choice is used up: the next step asks for another. -/
def State.scheduled (s : State) : State :=
  match s.sched with
  | _ :: rest => { s with sched := rest }
  | [] => { s with tick := s.tick + 1 }

/-- One step of a well-configured machine: a faulted block takes none (R200). -/
def runStep (s : State) : Host.Outcome State Fault Refusal :=
  match s.fault with
  | some r => .fault (.halted r)
  | none => agentStep s.mover s.scheduled

/-- The word `w` placed as the command SEQ runs next: where it decodes, it is accepted (R80) and SEQ moves next; where it
does not, HOST moves next and its next operation, on a block that is not busy, is the CMD write of the word. -/
def State.placeCommand (s : State) (nbits w : Nat) : State :=
  match decodeTableWord nbits w with
  | some i => { s.acceptInstr i with sched := .seq :: s.sched }
  | none =>
    { s with busy := false, host := .hw 0x000#12 (BitVec.ofNat 32 (w % 2 ^ nbits)) :: s.host, sched := .host :: s.sched }

end Sys2Proof.Machine
end

