-- ==== Sys2Proof/Machine/Step.lean ====
section
/-!
DEFINITION. One step of the machine, and the placing of a command for the host's checks. A configuration that is not
well-formed is refused before the machine runs (R132, R209).
-/

namespace Sys2Proof.Machine

/-- One step: one agent moves (R7). -/
def step (s : State) : Host.Outcome State Fault Refusal :=
  if s.config.wf then runStep s else .refused .illFormedConfig

/-- TWM fetches nothing (R13): a command comes from HOST's CMD write. This is the state right after that write, with SEQ
scheduled next, so that the next step is the first phase of the command (log 3). -/
def State.withFetchWord (s : State) (nbits w : Nat) : State := s.placeCommand nbits w

end Sys2Proof.Machine
end

