-- ==== Sys2Proof/Machine/Launch.lean ====
section
/-!
DEFINITION. The launch of a run (R209, R223): the state after reset with a configuration, a host program and the choices of
the environment, and what refuses a launch before it runs.
-/

namespace Sys2Proof.Machine

/-- The commands a host program uses: the words it writes to CMD that decode (R80, R93). -/
def hostCommands (ops : List HostOp) : List Instr :=
  match ops with
  | [] => []
  | .write width off v :: rest =>
    (if width = 32 ∧ off = 0x000#12 then (decode v).toOption.toList else []) ++ hostCommands rest
  | .read _ _ :: rest => hostCommands rest
  | .waitIdle :: rest => hostCommands rest

/-- A command that reads the register `reg` is refused in mode DEDICATED without the register's descriptor (R209, D15). -/
def dedicatedRefusal (c : Config) (reg : BitVec 6) : Option Refusal :=
  match c.mode with
  | .bug => none
  | .dedicated => if c.desc.any fun d => d.addr == reg then none else some (.descriptorNotSupplied reg)

/-- Why a program that uses this command is refused under this configuration, if it is (R209, D15, D17). -/
def commandRefusal (c : Config) (i : Instr) : Option Refusal :=
  match i with
  | .sensorInit => if c.init.isSome then none else some .initNotSupplied
  | .readEnergy => dedicatedRefusal c c.regs.energy
  | .readCharge => dedicatedRefusal c c.regs.charge
  | .i2cWrite _ _ => none
  | .i2cRead _ _ => none
  | .decodeReg _ _ => none
  | .scale _ => none
  | .mkstr => none
  | .readMfrId => none
  | .readDeviceId => none
  | .readCurrent => none
  | .readVoltage => none
  | .readTemperature => none
  | .readPower => none
  | .uartInit _ => none
  | .uartStart => none
  | .uartStop => none
  | .writeText _ => none
  | .writeU8 _ => none
  | .writeU16 _ => none

/-- Why a launch is refused, if it is (R209): the configuration is not well-formed, or a command of the program lacks what
only the launch can supply. -/
def launchRefusal (c : Config) (ops : List HostOp) : Option Refusal :=
  if c.wf then (hostCommands ops).findSome? (commandRefusal c) else some .illFormedConfig

/-- The launch premise `reset_state` (R220, R223): the state after reset, with a configuration, a host program and the
choices of the environment. -/
def launchState (c : Config) (ops : List HostOp) (sched : List Agent) (draws : List Byte) : State :=
  { State.reset with config := c, host := ops, sched := sched, draws := draws }

/-- A launch (R209): refused as a whole before it runs, so that no state is reached, or the state it starts from. -/
def launch (c : Config) (ops : List HostOp) (sched : List Agent) (draws : List Byte) :
    Host.Outcome State Fault Refusal :=
  match launchRefusal c ops with
  | some r => .refused r
  | none => .next (launchState c ops sched draws)

end Sys2Proof.Machine
end

