-- ==== Sys2Proof/Safety.lean ====
section
/-!
DEFINITION. What claims are stated in: the observation of a run, its final state, fault or hang (R8, R208), the idle and
console invariants (R119, R189), the grammar of the bus trace (R72, R107), the invariant of reachable states, the fairness
premises BUS_FAIR and LINE_FAIR (R113, R187), and the HOST duties (R222, R223).
-/

namespace Sys2Proof.Machine

/-! ### Final states and the observation up to a state (R8) -/

/-- A run is final in this state (R8). -/
def State.final (s : State) : Bool :=
  !s.busy && s.fault.isNone && s.host.isEmpty && !s.stop && !s.start && s.uStage.isNone

/-- How a run stands: it goes on, or it has come to the final state, a fault or a hang (R8). -/
inductive Ending where
  | goesOn
  | final (s : State)
  | fault (r : FaultRecord)
  | hang
  deriving DecidableEq, Repr

/-- What a run shows (R8): the two traces, the values HOST has read, and how it stands. -/
structure Observation where
  bus : List BusEvent
  line : List Byte
  reads : List Word
  ending : Ending
  deriving DecidableEq, Repr

/-- The state without the model's own fields: what is left is R41, HOST's program and the values it read, and the
configuration. -/
def State.own (s : State) : State := { s with sched := [], tick := 0, draws := [], drawCount := 0 }

/-- How the run that led to a state stands, as far as the state says it: whether the run hangs from there on is a matter of
the states that follow (`HangsFrom`). -/
def State.ending (s : State) : Ending :=
  match s.fault with
  | some r => .fault r
  | none => if s.final then .final s.own else .goesOn

/-- The observation of the run that led to a state (R8). -/
def State.observation (s : State) : Observation := ⟨s.busTrace, s.lineTrace, s.hostReads, s.ending⟩

/-! ### Enabled steps (R110 to R114, R186, R208) -/

/-- A step of BUSENV is enabled (R110, R111, R112, R114). -/
def busEnabled (r : BusRule) (s : State) : Bool :=
  match r with
  | .eStart => s.start && !s.stop && !s.busact
  | .eTx => s.busact && s.dir == .write && s.txd.isSome
  | .eRx => s.busact && s.dir == .read && !s.rxrdy && decide (s.cnt < s.nbytes)
  | .eStop => s.stop

/-- The step of LINEENV is enabled (R186). -/
def lineEnabled (s : State) : Bool := s.uStage.isSome

/-! ### The bus trace (R72, R107) -/

/-- Where a bus trace stands: no transaction, a start without its address, or `k` data bytes moved in one direction. -/
inductive BusPos where
  | idle
  | started
  | data (d : Dir) (k : Nat)
  deriving DecidableEq, Repr

/-- One event moves a trace on; a transaction has an address right after its start, 1 to 3 bytes in the direction of its
address, and a stop before the next start (R3, R100, R107). -/
def busNext (p : BusPos) (e : BusEvent) : Option BusPos :=
  match p, e with
  | .idle, .start => some .started
  | .started, .addr _ d => some (.data d 0)
  | .data .write k, .wr _ => some (.data .write (k + 1))
  | .data .read k, .rd _ => some (.data .read (k + 1))
  | .data _ k, .stop => if 1 ≤ k ∧ k ≤ 3 then some .idle else none
  | _, _ => none

/-- The position after a trace, from position `p`; none where the trace breaks the grammar. -/
def busScan (p : BusPos) (es : List BusEvent) : Option BusPos :=
  match es with
  | [] => some p
  | e :: rest =>
    match busNext p e with
    | some q => busScan q rest
    | none => none

/-! ### The invariant of reachable states -/

/-- The bus is idle (R119). -/
def State.busIdle (s : State) : Prop :=
  s.start = false ∧ s.stop = false ∧ s.busact = false ∧ s.txrdy = false ∧ s.rxrdy = false ∧ s.tc = false
    ∧ s.txd = none ∧ s.cnt = 0#2

/-- The console invariants (R189). -/
def State.consoleOk (s : State) : Prop :=
  s.uTxrdy = s.uStage.isNone ∧ s.uTc = s.uTxrdy ∧ (s.uEn = false → s.uStage = none)

/-- The register a numeric READ command reads and whether it scales (R155 to R161). -/
def measures (c : Config) (i : Instr) : Option (BitVec 6 × Bool) :=
  match i with
  | .readDeviceId => some (c.regs.deviceId, false)
  | .readCurrent => some (c.regs.current, true)
  | .readVoltage => some (c.regs.vbus, false)
  | .readTemperature => some (c.regs.dieTemp, false)
  | .readPower => some (c.regs.power, false)
  | .readEnergy => some (if c.mode = .bug then c.regs.current else c.regs.energy, false)
  | .readCharge => some (if c.mode = .bug then c.regs.current else c.regs.charge, false)
  | _ => none

/-- What a K step of a command does: a transaction of `n` bytes, or the step that ends a composite read. -/
inductive KStep where
  | write (n : Nat)
  | read (n : Nat)
  | finish (n : Nat)
  deriving DecidableEq, Repr

/-- The K steps of `sensor_read(reg, sc)` (R151); none without a descriptor, for K0 then raises NoDescriptor. -/
def sensorPlan (c : Config) (reg : BitVec 6) (k : Nat) : Option KStep :=
  match c.desc.find? fun d => d.addr == reg with
  | none => none
  | some d =>
    if k = 0 then some (.write 1) else if k = 1 then some (.read (descBytes d))
    else if k = 2 then some (.finish (descBytes d)) else none

/-- The K steps of a command that uses the bus (R102, R104, R151 to R161); none for the others. -/
def plan (c : Config) (i : Instr) (k : Nat) : Option KStep :=
  match i with
  | .i2cWrite _ nb => if k = 0 then some (.write nb.toNat) else none
  | .i2cRead _ nb => if k = 0 then some (.read nb.toNat) else none
  | .sensorInit => if k < 4 then some (.write 3) else none
  | .readMfrId => if k = 0 then some (.write 1) else if k = 1 then some (.read 2) else if k = 2 then some (.finish 2) else none
  | _ => (measures c i).bind fun m => sensorPlan c m.1 k

/-- Phase W1 with `n` bytes to send, in its three moments: before E_START, before SEQ fills I2C_TXD, before E_TX. -/
def State.inW1 (s : State) (n : Nat) : Prop :=
  s.dir = .write ∧ s.nbytes.toNat = n ∧ s.stop = false ∧ s.rxrdy = false ∧ s.tc = false ∧ s.idx < n
    ∧ s.pbuf.firstInvalid n = none
    ∧ ((s.start = true ∧ s.busact = false ∧ s.txrdy = false ∧ s.txd = none ∧ s.cnt = 0#2 ∧ s.idx = 0)
      ∨ (s.start = false ∧ s.busact = true ∧ s.txrdy = true ∧ s.txd = none ∧ s.cnt.toNat = s.idx)
      ∨ (s.start = false ∧ s.busact = true ∧ s.txrdy = false ∧ s.txd.isSome = true ∧ s.cnt.toNat + 1 = s.idx))

/-- Phase W2: the last byte is still in I2C_TXD, or it is out and I2C_TC is up. -/
def State.inW2 (s : State) (n : Nat) : Prop :=
  s.dir = .write ∧ s.nbytes.toNat = n ∧ s.start = false ∧ s.stop = false ∧ s.busact = true ∧ s.txrdy = false
    ∧ s.rxrdy = false ∧ 1 ≤ n
    ∧ ((s.tc = false ∧ s.txd.isSome = true ∧ s.cnt.toNat + 1 = n) ∨ (s.tc = true ∧ s.txd = none ∧ s.cnt.toNat = n))

/-- Phase RD1 with `n` bytes to take, in its three moments: before E_START, before E_RX, before SEQ takes I2C_RXD. -/
def State.inRD1 (s : State) (n : Nat) : Prop :=
  s.dir = .read ∧ s.nbytes.toNat = n ∧ s.stop = false ∧ s.txrdy = false ∧ s.txd = none ∧ s.idx < n
    ∧ (∀ k, k < s.idx → (s.pbuf.get k).isSome = true)
    ∧ ((s.start = true ∧ s.busact = false ∧ s.rxrdy = false ∧ s.tc = false ∧ s.cnt = 0#2 ∧ s.idx = 0)
      ∨ (s.start = false ∧ s.busact = true ∧ s.rxrdy = false ∧ s.tc = false ∧ s.cnt.toNat = s.idx)
      ∨ (s.start = false ∧ s.busact = true ∧ s.rxrdy = true ∧ s.cnt.toNat = s.idx + 1
          ∧ s.tc = decide (s.idx + 1 = n)))

/-- Phase RD2: every byte is taken and I2C_TC is up. -/
def State.inRD2 (s : State) (n : Nat) : Prop :=
  s.dir = .read ∧ s.nbytes.toNat = n ∧ s.start = false ∧ s.stop = false ∧ s.busact = true ∧ s.txrdy = false
    ∧ s.rxrdy = false ∧ s.txd = none ∧ s.tc = true ∧ s.cnt.toNat = n ∧ 1 ≤ n ∧ s.pbuf.firstInvalid n = none

/-- Phases W3 and RD3: the stop is requested and the transaction still open, or it is on the bus. -/
def State.inStop (s : State) : Prop :=
  (s.stop = true ∧ s.start = false ∧ s.busact = true ∧ s.txrdy = false ∧ s.rxrdy = false ∧ s.txd = none
      ∧ 1 ≤ s.cnt.toNat ∧ s.cnt = s.nbytes)
    ∨ s.busIdle

/-- The commands of one phase (R137 to R139, R171 to R173). -/
def onePhase : Instr → Bool
  | .i2cWrite _ _ => false
  | .i2cRead _ _ => false
  | .decodeReg _ _ => true
  | .scale _ => true
  | .mkstr => true
  | .sensorInit => false
  | .readMfrId => false
  | .readDeviceId => false
  | .readCurrent => false
  | .readVoltage => false
  | .readTemperature => false
  | .readPower => false
  | .readEnergy => false
  | .readCharge => false
  | .uartInit _ => true
  | .uartStart => true
  | .uartStop => true
  | .writeText _ => false
  | .writeU8 _ => false
  | .writeU16 _ => false

/-- The number writes (R180, R181). -/
def numberWrite : Instr → Bool
  | .i2cWrite _ _ => false
  | .i2cRead _ _ => false
  | .decodeReg _ _ => false
  | .scale _ => false
  | .mkstr => false
  | .sensorInit => false
  | .readMfrId => false
  | .readDeviceId => false
  | .readCurrent => false
  | .readVoltage => false
  | .readTemperature => false
  | .readPower => false
  | .readEnergy => false
  | .readCharge => false
  | .uartInit _ => false
  | .uartStart => false
  | .uartStop => false
  | .writeText _ => false
  | .writeU8 _ => true
  | .writeU16 _ => true

/-- DBUF holds a NUL at or after index `j` (R184). -/
def State.dbufEnds (s : State) (j : Nat) : Prop := ∃ m, j ≤ m ∧ s.dbuf[m]? = some 0x00#8

/-- A WRITE_TEXT that has passed its first phase finds the console enabled and its text in reach (R175, R176, R189). -/
def State.textReady (s : State) (i : Instr) : Prop :=
  s.uEn = true ∧ ∃ src, i = .writeText src ∧ (src = .str → s.str.isSome = true ∧ s.textPos ≤ 2)
    ∧ (∀ a, src = .tmem a → a.toNat + s.textPos ≤ Config.tmemSize)

/-- What phase PH of the command `i` may find (R102, R104, R151, R176, R180). -/
def State.phaseOk (s : State) (i : Instr) : Prop :=
  match s.ph with
  | .idle => False
  | .w0 =>
    s.busIdle ∧ (s.kIdx ≠ 0 → s.pe = true)
      ∧ ((∃ n, plan s.config i s.kIdx = some (.write n) ∧ 1 ≤ n ∧ n ≤ 3)
        ∨ (s.kIdx = 0 ∧ ∃ reg sc, measures s.config i = some (reg, sc) ∧ s.desc reg = none))
  | .w1 => s.pe = true ∧ ∃ n, plan s.config i s.kIdx = some (.write n) ∧ n ≤ 3 ∧ s.inW1 n
  | .w2 => s.pe = true ∧ ∃ n, plan s.config i s.kIdx = some (.write n) ∧ n ≤ 3 ∧ s.inW2 n
  | .w3 => s.pe = true ∧ (∃ n, plan s.config i s.kIdx = some (.write n)) ∧ s.inStop ∧ (s.stop = true → s.dir = .write)
  | .rd0 => s.busIdle ∧ (s.kIdx ≠ 0 → s.pe = true) ∧ ∃ n, plan s.config i s.kIdx = some (.read n) ∧ 1 ≤ n ∧ n ≤ 3
  | .rd1 => s.pe = true ∧ ∃ n, plan s.config i s.kIdx = some (.read n) ∧ n ≤ 3 ∧ s.inRD1 n
  | .rd2 => s.pe = true ∧ ∃ n, plan s.config i s.kIdx = some (.read n) ∧ n ≤ 3 ∧ s.inRD2 n
  | .rd3 =>
    s.pe = true ∧ (∃ n, plan s.config i s.kIdx = some (.read n) ∧ s.pbuf.firstInvalid n = none) ∧ s.inStop
      ∧ (s.stop = true → s.dir = .read)
  | .k2 => s.busIdle ∧ ∃ n, plan s.config i s.kIdx = some (.finish n) ∧ s.pbuf.firstInvalid n = none
  | .only => s.busIdle ∧ onePhase i = true
  | .t0 => s.busIdle ∧ s.kIdx = 0 ∧ ∃ src, i = .writeText src
  | .t1 => s.busIdle ∧ s.textReady i
  | .t2 c =>
    s.busIdle ∧ s.textReady i ∧ c ≠ 0x00#8 ∧ (i = .writeText .str → s.textPos ≤ 1)
      ∧ (∀ a, i = .writeText (.tmem a) → a.toNat + s.textPos < Config.tmemSize)
  | .n0 => s.busIdle ∧ s.kIdx = 0 ∧ numberWrite i = true
  | .n1 => s.busIdle ∧ numberWrite i = true ∧ s.uEn = true ∧ s.dbufEnds s.idx
  | .n2 c => s.busIdle ∧ numberWrite i = true ∧ s.uEn = true ∧ c ≠ 0x00#8 ∧ s.dbufEnds (s.idx + 1)

/-- The invariant of reachable states. Every step keeps it, and it holds at reset. -/
structure StateInv (s : State) : Prop where
  /-- the configuration is well-formed (R132, R209) -/
  config : s.config.wf = true
  /-- TMEM is in its canonical form -/
  memory : s.tmem.wf = true
  /-- R189 -/
  console : s.consoleOk
  /-- STR[2] is NUL whenever STR is valid (R175) -/
  strNul : ∀ t, s.str = some t → t.b2 = 0x00#8
  /-- the divisor held is not 0 (R9, R89) -/
  brrNonzero : ∀ d, s.brr = some d → d ≠ 0#16
  /-- I is at most 5 (R23), and a text has at most as many characters as TMEM has bytes (R176; log 6) -/
  index : s.idx ≤ 5 ∧ s.textPos ≤ Config.tmemSize
  /-- the bus trace is a sequence of complete transactions and at most one open one (R72, R107) -/
  trace : busScan .idle s.busTrace = some (if s.busact then .data s.dir s.cnt.toNat else .idle)
  /-- R119 -/
  idle : s.fault = none → s.busy = false → s.busIdle
  /-- a running command is a decoded one, in a phase of its own -/
  running : s.fault = none → s.busy = true → ∃ i, s.cur = some i ∧ i.wf = true ∧ s.phaseOk i

/-! ### Encodings, faults and holds as the rules list them (R82, R202, R208) -/

/-- The reserved bits of a format's operand field (R82). -/
def reservedBits (f : Format) : Word :=
  match f with
  | .N => 0x00FFFFFF#32
  | .T => 0x00FFFC80#32
  | .RS => 0x00FFFEC0#32
  | .R => 0x00FFFFC0#32
  | .V8 => 0x007FFF00#32
  | .V16 => 0x007F0000#32
  | .X => 0x007FFF00#32
  | .B => 0x00FF0000#32

/-- The faults a command can raise while it runs (R202). -/
def mayRaise (c : Config) (i : Instr) (f : FaultCode) : Prop :=
  match i with
  | .i2cWrite _ nb => f = .busNotEnabled ∨ ∃ k, k < nb.toNat ∧ f = .uninitRead (.pbuf k)
  | .i2cRead _ _ => f = .busNotEnabled
  | .decodeReg reg _ => f = .noDescriptor reg ∨ ∃ k, k < 3 ∧ f = .uninitRead (.pbuf k)
  | .scale reg => f = .noDescriptor reg ∨ f = .uninitRead .res
  | .mkstr => ∃ k, k < 2 ∧ f = .uninitRead (.pbuf k)
  | .sensorInit => f = .busNotEnabled
  | .readMfrId => f = .busNotEnabled
  | .uartInit div => f = .uartReconfigWhileEnabled div
  | .uartStart => f = .uartNotInitialised
  | .uartStop => False
  | .writeText (.tmem addr) =>
    f = .uartNotEnabled ∨ f = .textUnterminated Config.tmemSize
      ∨ ∃ a, addr.toNat ≤ a ∧ a < Config.tmemSize ∧ f = .uninitRead (.tmem a)
  | .writeText .str => f = .uartNotEnabled ∨ f = .uninitRead .str
  | .writeU8 _ => f = .uartNotEnabled ∨ f = .uninitRead .res
  | .writeU16 _ => f = .uartNotEnabled ∨ f = .uninitRead .res
  | _ => f = .busNotEnabled ∨ ∃ reg sc, measures c i = some (reg, sc) ∧ f = .noDescriptor reg

/-- The command `i` waits in its phase: the hold points of SEQ, as R208 lists them. -/
def State.holds (s : State) (i : Instr) : Prop :=
  match s.ph with
  | .w1 => s.txrdy = false ∧ ∃ n, plan s.config i s.kIdx = some (.write n) ∧ s.idx < n
  | .w2 => s.tc = false ∧ ∃ n, plan s.config i s.kIdx = some (.write n)
  | .w3 => s.stop = true ∧ ∃ n, plan s.config i s.kIdx = some (.write n)
  | .rd1 => s.rxrdy = false ∧ ∃ n, plan s.config i s.kIdx = some (.read n) ∧ s.idx < n
  | .rd2 => s.tc = false ∧ ∃ n, plan s.config i s.kIdx = some (.read n)
  | .rd3 => s.stop = true ∧ ∃ n, plan s.config i s.kIdx = some (.read n)
  | .t2 _ => s.uTxrdy = false ∧ ∃ src, i = .writeText src
  | .n2 _ => s.uTxrdy = false ∧ numberWrite i = true
  | .only => s.uTc = false ∧ i = .uartStop
  | _ => False

/-- The value a numeric read gives for the bytes of its register, first byte first (R134, R135, R151). -/
def measured (d : Descriptor) (sc : Bool) (bytes : List Byte) : Option Word :=
  match d.width, bytes with
  | .w16, [b0, b1] => some (if sc then scaleWord (dec16 b0 b1) d.M d.S else dec16 b0 b1)
  | .w24, [b0, b1, b2] =>
    some (if sc then scaleWord (dec24 b0 b1 b2 d.signed) d.M d.S else dec24 b0 b1 b2 d.signed)
  | _, _ => none

/-! ### Waits and hangs (R8, R208) -/

/-- SEQ waits: the running command is at one of the hold points of R208. -/
def State.seqWaits (s : State) : Prop := s.fault = none ∧ s.busy = true ∧ ∃ i, s.cur = some i ∧ s.holds i

/-- HOST waits: it is in a WAITIDLE loop and BUSY is 1, the last hold point of R208. -/
def State.hostWaits (s : State) : Prop := s.fault = none ∧ s.busy = true ∧ ∃ ops, s.host = .waitIdle :: ops

/-- From step `n` on an agent waits for ever (R8, R208). -/
def HangsFrom (run : Nat → State) (n : Nat) : Prop :=
  (∀ m, n ≤ m → (run m).seqWaits) ∨ ∀ m, n ≤ m → (run m).hostWaits

/-- The run hangs (R8, R208): a hang is a run in which an agent waits for ever. -/
def Hangs (run : Nat → State) : Prop := ∃ n, HangsFrom run n

/-- A whole run: every step answers the next state of the sequence, and where the machine takes no step (a faulted block,
R200) the sequence stays. -/
def IsWholeRun (run : Nat → State) : Prop :=
  ∀ n, step (run n) = .next (run (n + 1)) ∨ (∀ t, step (run n) ≠ .next t) ∧ run (n + 1) = run n

/-- The run, as it stands at step `n`, shows the observation `o` (R8): the traces and the values read, and the final state,
the fault or the hang it has come to. -/
def Shows (run : Nat → State) (n : Nat) (o : Observation) : Prop :=
  o.bus = (run n).busTrace ∧ o.line = (run n).lineTrace ∧ o.reads = (run n).hostReads
    ∧ match o.ending with
      | .hang => HangsFrom run n
      | .goesOn => (run n).ending = .goesOn ∧ ¬HangsFrom run n
      | .final t => (run n).ending = .final t
      | .fault r => (run n).ending = .fault r

/-! ### Runs and fairness (R113, R187, R234) -/

/-- An infinite run: every step answers the next state of the sequence. -/
def IsRun (run : Nat → State) : Prop := ∀ n, step (run n) = .next (run (n + 1))

/-- Weak fairness of one mover: where its step stays enabled from `n` on, it moves at some later point. -/
def WeaklyFair (a : Agent) (enabled : State → Prop) (run : Nat → State) : Prop :=
  ∀ n, (∀ m, n ≤ m → enabled (run m)) → ∃ m, n ≤ m ∧ (run m).mover = a

/-- BUS_FAIR (R113). -/
def BusFair (run : Nat → State) : Prop := ∀ r, WeaklyFair (.bus r) (fun s => busEnabled r s = true) run

/-- LINE_FAIR (R187). -/
def LineFair (run : Nat → State) : Prop := WeaklyFair .line (fun s => lineEnabled s = true) run

/-- SEQ is scheduled again and again while BUSY = 1 (the weakly fair runs of R208). -/
def SeqFair (run : Nat → State) : Prop := WeaklyFair .seq (fun s => s.busy = true) run

/-- `n` steps of the machine, stopping where one has no next state. -/
def runSteps (n : Nat) (s : State) : Host.Outcome State Fault Refusal :=
  match n with
  | 0 => .next s
  | k + 1 =>
    match step s with
    | .next t => runSteps k t
    | .fault r => .fault r
    | .refused r => .refused r

/-! ### The schedules in which every enabled step is taken at once (95_test_vectors.md 4.1, 4.2, 7.3) -/

/-- A write transaction of `n` bytes: W0, E_START, then W1 and E_TX for each byte, W2, E_STOP, W3. -/
def writeSched (n : Nat) : List Agent :=
  [.seq, .bus .eStart] ++ (List.replicate n [Agent.seq, .bus .eTx]).flatten ++ [.seq, .bus .eStop, .seq]

/-- A read transaction of `n` bytes: RD0, E_START, then E_RX and RD1 for each byte, RD2, E_STOP, RD3. -/
def readSched (n : Nat) : List Agent :=
  [.seq, .bus .eStart] ++ (List.replicate n [Agent.bus .eRx, .seq]).flatten ++ [.seq, .bus .eStop, .seq]

/-- A text of `n` characters: the first phase, then a fetch, a TXBYTE and E_LINE for each character, and the fetch of the
NUL. -/
def textSched (n : Nat) : List Agent := [.seq] ++ (List.replicate n [Agent.seq, .seq, .line]).flatten ++ [.seq]

/-- The events of a write transaction (R102). -/
def writeEvents (sadd : BitVec 7) (bytes : List Byte) : List BusEvent :=
  [.start, .addr sadd .write] ++ bytes.map BusEvent.wr ++ [.stop]

/-- The events of a read transaction (R104). -/
def readEvents (sadd : BitVec 7) (bytes : List Byte) : List BusEvent :=
  [.start, .addr sadd .read] ++ bytes.map BusEvent.rd ++ [.stop]

/-! ### What the number writes are about -/

/-- The value of a list of decimal digit bytes, most significant first. -/
def decimalValue (ds : List Byte) : Nat := ds.foldl (fun n d => 10 * n + (d.toNat - 0x30)) 0

/-- `ds` is the standard decimal numeral of `n` (R185): digits only, of value `n`, none of them a leading zero, and "0"
for 0. -/
def isDecimal (n : Nat) (ds : List Byte) : Prop :=
  ds ≠ [] ∧ (∀ d ∈ ds, 0x30 ≤ d.toNat ∧ d.toNat ≤ 0x39) ∧ decimalValue ds = n
    ∧ (ds.head? = some 0x30#8 → ds = [0x30#8])

/-- The bytes of DBUF that are sent: those before the first NUL (R175, R180). -/
def sentBytes (buf : Vector Byte 6) : List Byte := buf.toList.takeWhile fun b => b != 0x00#8

/-! ### Launch premises and HOST duties (R209, R222, R223) -/

/-- The premise `config_ok` (R223) with the rest of what R209 asks of a launch: it is not refused. -/
def launchAdmitted (c : Config) (ops : List HostOp) : Bool := (launchRefusal c ops).isNone

/-- What HOST has done so far, as the boot order R222 asks about it. -/
structure DutyState where
  /-- the last command has been waited for (step 5) -/
  waited : Bool
  /-- the bus is enabled (step 2) -/
  pe : Bool
  /-- SENSOR_INIT has been issued (step 3) -/
  initialised : Bool
  /-- the message block has its UART_INIT (step 4) -/
  brrSet : Bool
  /-- the message block has its UART_START (step 4) -/
  enabled : Bool
  deriving DecidableEq, Repr

/-- The command is allowed by the boot order (R222, steps 2 to 4). Which commands are the 'measurement reads' of step 3 is
the model's choice (log 19): the six composite commands that read a measured quantity. READ_MFR_ID and READ_DEVICE_ID, which
identify the sensor, and I2C_READ with DECODE, which can read any register by hand, are none. -/
def dutyAllows (d : DutyState) (i : Instr) : Bool :=
  match i with
  | .i2cWrite _ _ => d.pe
  | .i2cRead _ _ => d.pe
  | .sensorInit => d.pe && !d.initialised
  | .readMfrId => d.pe
  | .readDeviceId => d.pe
  | .readCurrent => d.pe && d.initialised
  | .readVoltage => d.pe && d.initialised
  | .readTemperature => d.pe && d.initialised
  | .readPower => d.pe && d.initialised
  | .readEnergy => d.pe && d.initialised
  | .readCharge => d.pe && d.initialised
  | .uartInit _ => !d.enabled
  | .uartStart => d.brrSet
  | .uartStop => true
  | .writeText _ => d.enabled
  | .writeU8 _ => d.enabled
  | .writeU16 _ => d.enabled
  | .decodeReg _ _ => true
  | .scale _ => true
  | .mkstr => true

/-- What HOST has done after the command (R222). UART_STOP ends the message block: the next one needs its own UART_INIT. -/
def dutyAfter (d : DutyState) (i : Instr) : DutyState :=
  match i with
  | .sensorInit => { d with waited := false, initialised := true }
  | .uartInit _ => { d with waited := false, brrSet := true }
  | .uartStart => { d with waited := false, enabled := true }
  | .uartStop => { d with waited := false, brrSet := false, enabled := false }
  | _ => { d with waited := false }

/-- HOST meets R222 from `d` on: an access other than a STATUS read waits for the last command (step 5, R226), the commands
come in the boot order (steps 2 to 4), and each message block ends with its UART_STOP (step 4). A word that is no command
is no concern of R222. -/
def dutiesFrom (d : DutyState) (ops : List HostOp) : Bool :=
  match ops with
  | [] => !d.enabled
  | .waitIdle :: rest => dutiesFrom { d with waited := true } rest
  | .read _ off :: rest => (d.waited || off == 0x004#12) && dutiesFrom d rest
  | .write width off v :: rest =>
    d.waited &&
      (if width = 32 ∧ off = 0x000#12 then
        match decode v with
        | .ok i => dutyAllows d i && dutiesFrom (dutyAfter d i) rest
        | .error _ => dutiesFrom d rest
      else if width = 32 ∧ off = 0x008#12 then dutiesFrom { d with pe := v.getLsbD 0 } rest
      else dutiesFrom d rest)

/-- The premise `host_duties` (R223). -/
def hostDuties (ops : List HostOp) : Bool := dutiesFrom ⟨true, false, false, false, false⟩ ops

end Sys2Proof.Machine
end

