-- ==== Sys2Proof/Certificates/Slice0/Obligations.lean ====
section
/-!
DEFINITION. The statements for the provers. Each docstring names the rule of spec/ it formalises; OBLIGATIONS.json lists
them with their tiers and citations.
-/

open Sys2Proof Sys2Proof.Machine

/-! ### Decoding and encoding -/

/-- The decoder reads every well-formed command back from its word, with every operand (R81 to R92). -/
def Obligations.EncodedCommandDecodes : Prop := ∀ i : Instr, i.wf = true → decode (encode i) = .ok i

/-- A word that decodes gives a well-formed command, and no bit of the word is lost (R81 to R92). -/
def Obligations.DecodedWordIsWellFormedAndReencodes : Prop :=
  ∀ v i, decode v = .ok i → i.wf = true ∧ encode i = v

/-- R95: every word is exactly one row of the opcode map, or illegal; no two rows' match and mask overlap. -/
def Obligations.EveryWordIsOneRowOrIllegal : Prop :=
  (∀ v : Word,
    (∃ i row, decode v = .ok i ∧ row ∈ opcodeRows ∧ legalFor v row = true ∧ row.1 = i.opcode
        ∧ ∀ other ∈ opcodeRows, legalFor v other = true → other = row)
      ∨ (∃ r, decode v = .error r) ∧ ∀ row ∈ opcodeRows, legalFor v row = false)
  ∧ opcodeRows.Pairwise fun (x y : BitVec 8 × Format) =>
      ∀ v : Word, ¬((v &&& x.2.mask) = x.1.setWidth 32 <<< 24 ∧ (v &&& y.2.mask) = y.1.setWidth 32 <<< 24)

/-- R91: the five cases in which a word is illegal, and the fault of accepting one. -/
def Obligations.IllegalWordsAreTheFiveCases : Prop :=
  (∀ v : Word,
    (∃ r, decode v = .error r) ↔
      ((∀ row ∈ opcodeRows, row.1 ≠ v.extractLsb' 24 8)
        ∨ ∃ row ∈ opcodeRows, row.1 = v.extractLsb' 24 8 ∧
            (v &&& reservedBits row.2 ≠ 0#32
              ∨ row.2 = .T ∧ v.extractLsb' 8 2 = 0#2
              ∨ (row.2 = .V8 ∨ row.2 = .X) ∧ v.getLsbD 23 = true ∧ v.extractLsb' 0 8 ≠ 0#8
              ∨ row.2 = .V16 ∧ v.getLsbD 23 = true ∧ v.extractLsb' 0 16 ≠ 0#16
              ∨ row.2 = .B ∧ v.extractLsb' 0 16 = 0#16)))
  ∧ (∀ (s : State) (v : Word) r, s.busy = false → decode v = .error r →
      hostWrite s 32 0x000#12 v = .error (.illegalCommand v))
  ∧ ∃ r, decode 0x00000000#32 = .error r

/-- One word of each row of R90, and illegal words, from 30_encoding.md 3 and 95_test_vectors.md 2. -/
def Obligations.SampleWordsDecode : Prop :=
  decode 0x01000340#32 = .ok (.i2cWrite 0x40#7 3#2) ∧ decode 0x0100037F#32 = .ok (.i2cWrite 0x7F#7 3#2)
  ∧ decode 0x02000240#32 = .ok (.i2cRead 0x40#7 2#2) ∧ decode 0x10000107#32 = .ok (.decodeReg 0x07#6 true)
  ∧ decode 0x11000007#32 = .ok (.scale 0x07#6) ∧ decode 0x12000000#32 = .ok .mkstr
  ∧ decode 0x20000000#32 = .ok .sensorInit ∧ decode 0x21000000#32 = .ok .readMfrId
  ∧ decode 0x22000000#32 = .ok .readDeviceId ∧ decode 0x23000000#32 = .ok .readCurrent
  ∧ decode 0x24000000#32 = .ok .readVoltage ∧ decode 0x25000000#32 = .ok .readTemperature
  ∧ decode 0x26000000#32 = .ok .readPower ∧ decode 0x27000000#32 = .ok .readEnergy
  ∧ decode 0x28000000#32 = .ok .readCharge ∧ decode 0x30000045#32 = .ok (.uartInit 0x0045#16)
  ∧ decode 0x31000000#32 = .ok .uartStart ∧ decode 0x32000000#32 = .ok .uartStop
  ∧ decode 0x33000010#32 = .ok (.writeText (.tmem 0x10#8)) ∧ decode 0x33800000#32 = .ok (.writeText .str)
  ∧ decode 0x34000009#32 = .ok (.writeU8 (.imm 9#8)) ∧ decode 0x34800000#32 = .ok (.writeU8 .res)
  ∧ decode 0x3500FFFF#32 = .ok (.writeU16 (.imm 0xFFFF#16)) ∧ decode 0x35800000#32 = .ok (.writeU16 .res)
  ∧ decode 0x29000000#32 = .error .unknownOpcode ∧ decode 0x010003C0#32 = .error .reservedBit
  ∧ decode 0x01000040#32 = .error .zeroByteCount ∧ decode 0x33800001#32 = .error .sourceWithImmediate
  ∧ decode 0x30000000#32 = .error .zeroDivisor

/-! ### One step, acceptance and faults -/

/-- One agent moves at a step: the scheduled one, else the free choice (R7; log 1). SEQ has a step only while BUSY = 1, and
it is `exec` of CUR (R23); scheduled while BUSY = 0 it leaves the state as it is (log 2). -/
def Obligations.StepMovesTheChosenAgent : Prop :=
  (∀ s : State, s.config.wf = true → s.fault = none →
    (∀ a rest, s.sched = a :: rest → step s = agentStep a { s with sched := rest })
    ∧ (s.sched = [] → step s = agentStep (Config.nextAgent s.tick) { s with tick := s.tick + 1 }))
  ∧ (∀ s : State, s.busy = false → agentStep .seq s = .next s)
  ∧ ∀ (s : State) i, s.busy = true → s.cur = some i → agentStep .seq s = exec i s

/-- A word that HOST writes to CMD and that decodes is the command SEQ runs: the first step accepts it, and SEQ's step is
`exec` of it, with nothing around it (R23, R80; I is `idx` and, in a WRITE_TEXT, `textPos`: log 6). -/
def Obligations.AcceptedWordIsTheCommandThatRuns : Prop :=
  ∀ (s : State) v i ops rest, s.config.wf = true → s.fault = none → s.busy = false →
    s.sched = .host :: .seq :: rest → s.host = .write 32 0x000#12 v :: ops → decode v = .ok i →
    ∃ t, step s = .next t
      ∧ t = { s with cur := some i, ph := firstPhase i, idx := 0, textPos := 0, kIdx := 0, busy := true, host := ops,
                     sched := .seq :: rest }
      ∧ step t = exec i { t with sched := rest }

/-- R80: acceptance of a command word, legal or illegal, the first phase of each command, SEQ's steps from then on, and a
command that faults while it runs leaves BUSY = 1. That a SEQ scheduled while BUSY = 0 leaves the state as it is, is the
model's choice (log 2), and so are the two homes of I, `idx` and `textPos` (log 6). -/
def Obligations.CommandAcceptance : Prop :=
  (∀ (s : State) v i ops, s.busy = false → s.host = .write 32 0x000#12 v :: ops → decode v = .ok i →
    hostStep s = { s with cur := some i, ph := firstPhase i, idx := 0, textPos := 0, kIdx := 0, busy := true, host := ops })
  ∧ (∀ (s : State) v r ops, s.busy = false → s.host = .write 32 0x000#12 v :: ops → decode v = .error r →
    ∃ left, hostStep s = { s with fault := some ⟨.illegalCommand v, none⟩, host := left })
  ∧ (∀ s : State, (s.busy = false → seqStep s = .next s) ∧ ∀ i, s.busy = true → s.cur = some i → seqStep s = exec i s)
  ∧ (∀ a n, firstPhase (.i2cWrite a n) = .w0 ∧ firstPhase (.i2cRead a n) = .rd0)
  ∧ (∀ i ∈ [Instr.sensorInit, .readMfrId, .readDeviceId, .readCurrent, .readVoltage, .readTemperature, .readPower,
      .readEnergy, .readCharge], firstPhase i = .w0)
  ∧ (∀ i, onePhase i = true → firstPhase i = .only)
  ∧ (∀ src, firstPhase (.writeText src) = .t0) ∧ (∀ i, numberWrite i = true → firstPhase i = .n0)
  ∧ (∀ (s t : State), seqStep s = .next t → s.busy = true → s.fault = none → t.fault ≠ none → t.busy = true)
  ∧ (hostStep { State.reset with host := [.write 32 0x000#12 0x00000000#32] }).fault
      = some ⟨.illegalCommand 0x00000000#32, none⟩

/-- R200: a fault writes the FAULT record and nothing else of the block, with CUR where SEQ raised it and no command where
HOST did; no other agent raises; a faulted block takes no step, whoever is to move, and is not final. What HOST does with
the operation that faulted is no part of it. -/
def Obligations.FaultWritesOnlyTheRecord : Prop :=
  (∀ (a : Agent) (s t : State), s.fault = none → agentStep a s = .next t →
    t.fault = none
      ∨ (a = .seq ∧ ∃ code, t = { s with fault := some ⟨code, s.cur⟩ })
      ∨ (a = .host ∧ ∃ code left, t = { s with fault := some ⟨code, none⟩, host := left }))
  ∧ (∀ s t : State, s.fault ≠ none → step s ≠ .next t)
  ∧ ∀ s : State, s.fault ≠ none → s.final = false

/-- R132: which descriptor tables are well-formed (addresses below 64 and widths of 16 or 24 hold by type), and a machine
whose table is not is refused. -/
def Obligations.IllFormedTableIsRefused : Prop :=
  (∀ c : Config, c.wf = true ↔
    ((c.desc.map Descriptor.addr).Nodup
      ∧ ∀ d ∈ c.desc, (d.width = .w16 → d.signed = false) ∧ 1 ≤ d.M ∧ d.M < 2 ^ 32 ∧ d.S ≤ 31))
  ∧ ∀ s : State, step s = .refused .illFormedConfig ↔ s.config.wf = false

/-- R133: in a well-formed table the lookup finds the entry of an address, and a command that needs a missing one raises
NoDescriptor with the address, in its first phase. -/
def Obligations.DescriptorLookup : Prop :=
  (∀ (s : State) reg d, s.config.wf = true → (s.desc reg = some d ↔ d ∈ s.config.desc ∧ d.addr = reg))
  ∧ (∀ (s : State) reg, (∀ d ∈ s.config.desc, d.addr ≠ reg) →
      (∀ sc, exec (.decodeReg reg sc) s = .next { s with fault := some ⟨.noDescriptor reg, s.cur⟩ })
      ∧ exec (.scale reg) s = .next { s with fault := some ⟨.noDescriptor reg, s.cur⟩ }
      ∧ ∀ i sc, measures s.config i = some (reg, sc) → s.kIdx = 0 → s.ph = .w0 →
          exec i s = .next { s with fault := some ⟨.noDescriptor reg, s.cur⟩ })

/-! ### Host accesses -/

/-- R65: the checks of a host access, in their order. -/
def Obligations.HostAccessCheckOrder : Prop :=
  ∀ (s : State) (width : Nat) (off : BitVec 12) (v : Word),
    ((width ≠ 32 ∨ off.extractLsb' 0 2 ≠ 0#2) →
      hostRead s width off = .error (.badAccess off) ∧ hostWrite s width off v = .error (.badAccess off))
    ∧ (width = 32 → off.extractLsb' 0 2 = 0#2 →
      ((0x020 ≤ off.toNat ∧ off.toNat < 0x100 ∨ 0x200 ≤ off.toNat) →
        hostRead s width off = .error (.badOffset off) ∧ hostWrite s width off v = .error (.badOffset off))
      ∧ ((off.toNat < 0x020 ∨ 0x100 ≤ off.toNat ∧ off.toNat < 0x200) →
        (s.busy = true →
          (off = 0x000#12 → hostWrite s width off v = .error (.cmdWhileBusy v))
          ∧ (off ≠ 0x000#12 → hostWrite s width off v = .error (.accessWhileBusy off))
          ∧ (off ≠ 0x004#12 → hostRead s width off = .error (.accessWhileBusy off))
          ∧ (off = 0x004#12 → ∃ x, hostRead s width off = .ok x))
        ∧ (s.busy = false →
          (off = 0x000#12 → hostRead s width off = .error (.accessRight off))
          ∧ (off ∈ [0x004#12, 0x00C#12, 0x014#12, 0x018#12, 0x01C#12] →
              hostWrite s width off v = .error (.accessRight off))
          ∧ (off = 0x008#12 → v.extractLsb' 1 31 ≠ 0#31 → hostWrite s width off v = .error (.reservedBits off v))
          ∧ (off = 0x010#12 → v.extractLsb' 24 8 ≠ 0#8 → hostWrite s width off v = .error (.reservedBits off v))
          ∧ (off = 0x010#12 → (∃ k < 3, s.pbuf.get k = none) →
              ∃ k < 3, hostRead s width off = .error (.uninitRead (.pbuf k)))
          ∧ (off = 0x014#12 → s.res = none → hostRead s width off = .error (.uninitRead .res))
          ∧ (off = 0x018#12 → s.str = none → hostRead s width off = .error (.uninitRead .str))
          ∧ (off = 0x01C#12 → s.brr = none → hostRead s width off = .error (.uninitRead .brr))
          ∧ (0x100 ≤ off.toNat → (∃ k < 4, s.tmem.read (off.toNat - 0x100 + k) = none) →
              ∃ k < 4, hostRead s width off = .error (.uninitRead (.tmem (off.toNat - 0x100 + k)))))))
    ∧ (s.fault ≠ none → ∀ t, step s ≠ .next t)

/-- R66: what a host read returns, or the element it finds invalid, the first in index order. -/
def Obligations.HostReadReturns : Prop :=
  (∀ s : State, hostRead s 32 0x004#12
      = .ok ((BitVec.ofBool s.uTc ++ BitVec.ofBool s.uTxrdy ++ BitVec.ofBool s.uEn ++ BitVec.ofBool s.busact
          ++ BitVec.ofBool s.tc ++ BitVec.ofBool s.rxrdy ++ BitVec.ofBool s.txrdy ++ BitVec.ofBool s.busy).setWidth 32))
  ∧ (∀ s : State, s.busy = false →
    hostRead s 32 0x008#12 = .ok ((BitVec.ofBool s.pe).setWidth 32)
    ∧ hostRead s 32 0x00C#12
        = .ok ((s.nbytes ++ 0#7 ++ (if s.dir = .read then 1#1 else 0#1) ++ 0#1 ++ s.sadd).setWidth 32)
    ∧ (∀ b0 b1 b2, s.pbuf = ⟨some b0, some b1, some b2⟩ → hostRead s 32 0x010#12 = .ok ((b2 ++ b1 ++ b0).setWidth 32))
    ∧ (∀ k, k < 3 → s.pbuf.get k = none → (∀ j, j < k → (s.pbuf.get j).isSome = true) →
        hostRead s 32 0x010#12 = .error (.uninitRead (.pbuf k)))
    ∧ (∀ w, s.res = some w → hostRead s 32 0x014#12 = .ok w)
    ∧ (s.res = none → hostRead s 32 0x014#12 = .error (.uninitRead .res))
    ∧ (∀ t, s.str = some t → hostRead s 32 0x018#12 = .ok ((t.b2 ++ t.b1 ++ t.b0).setWidth 32))
    ∧ (s.str = none → hostRead s 32 0x018#12 = .error (.uninitRead .str))
    ∧ (∀ d, s.brr = some d → hostRead s 32 0x01C#12 = .ok (d.setWidth 32))
    ∧ (s.brr = none → hostRead s 32 0x01C#12 = .error (.uninitRead .brr))
    ∧ (∀ j, j < 64 →
        (∀ b0 b1 b2 b3, s.tmem.read (4 * j) = some b0 → s.tmem.read (4 * j + 1) = some b1 →
          s.tmem.read (4 * j + 2) = some b2 → s.tmem.read (4 * j + 3) = some b3 →
          hostRead s 32 (BitVec.ofNat 12 (0x100 + 4 * j)) = .ok (b3 ++ b2 ++ b1 ++ b0))
        ∧ ∀ k, k < 4 → s.tmem.read (4 * j + k) = none → (∀ m, m < k → (s.tmem.read (4 * j + m)).isSome = true) →
          hostRead s 32 (BitVec.ofNat 12 (0x100 + 4 * j)) = .error (.uninitRead (.tmem (4 * j + k)))))
  ∧ hostRead State.reset 32 0x004#12 = .ok 0x000000C0#32
  ∧ hostRead State.reset 32 0x014#12 = .error (.uninitRead .res)

/-- R67: what a host write does. Acceptance is R80's, which CommandAcceptance spells out. -/
def Obligations.HostWriteEffects : Prop :=
  ∀ (s : State) (v : Word), s.busy = false →
    (∀ i, decode v = .ok i →
      hostWrite s 32 0x000#12 v = .ok (s.acceptInstr i))
    ∧ (∀ r, decode v = .error r → hostWrite s 32 0x000#12 v = .error (.illegalCommand v))
    ∧ (v.extractLsb' 1 31 ≠ 0#31 → hostWrite s 32 0x008#12 v = .error (.reservedBits 0x008#12 v))
    ∧ (v.extractLsb' 1 31 = 0#31 → hostWrite s 32 0x008#12 v = .ok { s with pe := v.getLsbD 0 })
    ∧ (v.extractLsb' 24 8 ≠ 0#8 → hostWrite s 32 0x010#12 v = .error (.reservedBits 0x010#12 v))
    ∧ (v.extractLsb' 24 8 = 0#8 → hostWrite s 32 0x010#12 v
        = .ok { s with pbuf := ⟨some (v.extractLsb' 0 8), some (v.extractLsb' 8 8), some (v.extractLsb' 16 8)⟩ })
    ∧ (∀ j, j < 64 → ∃ m, hostWrite s 32 (BitVec.ofNat 12 (0x100 + 4 * j)) v = .ok { s with tmem := m }
        ∧ (∀ k, k < 4 → m.read (4 * j + k) = some (v.extractLsb' (8 * k) 8))
        ∧ ∀ a, (a < 4 * j ∨ 4 * j + 4 ≤ a) → m.read a = s.tmem.read a)
    ∧ (∀ off ∈ [0x004#12, 0x00C#12, 0x014#12, 0x018#12, 0x01C#12], hostWrite s 32 off v = .error (.accessRight off))

/-- R64: the TMEM window, and that a word written through it reads back. -/
def Obligations.TmemWindowReadsBack : Prop :=
  ∀ (s t : State) (v : Word) j, j < 64 → hostWrite s 32 (BitVec.ofNat 12 (0x100 + 4 * j)) v = .ok t →
    hostRead t 32 (BitVec.ofNat 12 (0x100 + 4 * j)) = .ok v
    ∧ t.tmem.read (4 * j) = some (v.extractLsb' 0 8) ∧ t.tmem.read (4 * j + 1) = some (v.extractLsb' 8 8)
    ∧ t.tmem.read (4 * j + 2) = some (v.extractLsb' 16 8) ∧ t.tmem.read (4 * j + 3) = some (v.extractLsb' 24 8)

/-- HOST's step: nothing where it has no operation left (log 2), else its next operation, WAITIDLE as a loop over STATUS reads (R94), a faulting access raises and leaves the
operation (R200; log 16). -/
def Obligations.HostStepRunsItsNextOperation : Prop :=
  ∀ (s : State) ops,
    (s.host = [] → hostStep s = s)
    ∧ (∀ width off, s.host = .read width off :: ops →
        (∀ v, hostRead s width off = .ok v → hostStep s = { s with hostReads := s.hostReads ++ [v], host := ops })
        ∧ ∀ f, hostRead s width off = .error f → hostStep s = { s with fault := some ⟨f, none⟩ })
    ∧ (∀ width off v, s.host = .write width off v :: ops →
        (∀ t, hostWrite s width off v = .ok t → hostStep s = { t with host := ops })
        ∧ ∀ f, hostWrite s width off v = .error f → hostStep s = { s with fault := some ⟨f, none⟩ })
    ∧ (s.host = .waitIdle :: ops →
        ∃ v, hostRead s 32 0x004#12 = .ok v ∧ v.getLsbD 0 = s.busy
          ∧ hostStep s
            = { s with hostReads := s.hostReads ++ [v], host := if s.busy then .waitIdle :: ops else ops })

/-- While BUSY = 1 a step of HOST faults, or reads STATUS and changes nothing of the block (R57, R106, R177, R226). -/
def Obligations.HostCannotDisturbARunningCommand : Prop :=
  ∀ (s t : State), s.busy = true → s.fault = none → agentStep .host s = .next t → t.fault = none →
    t = s ∨ ∃ v, hostRead s 32 0x004#12 = .ok v
      ∧ t = { s with host := t.host, hostReads := s.hostReads ++ [v] }

/-- R60: MemRead, and no command writes TMEM. -/
def Obligations.MemReadChecksEndThenValidity : Prop :=
  (∀ (s : State) a,
    (256 ≤ a → s.memRead a = .error (.textUnterminated a))
    ∧ (a < 256 → s.tmem.read a = none → s.memRead a = .error (.uninitRead (.tmem a)))
    ∧ ∀ b, a < 256 → s.tmem.read a = some b → s.memRead a = .ok b)
  ∧ ∀ (i : Instr) (s t : State), exec i s = .next t → t.tmem = s.tmem

/-! ### Bus transactions -/

/-- I2C_WRITE phase by phase, with the faults of W0 in their order (R101, R102). A wait that is not lifted leaves the state
as it is (log 2). -/
def Obligations.I2cWritePhases : Prop :=
  ∀ (sadd : BitVec 7) (nb : BitVec 2) (s : State),
    encode (.i2cWrite sadd nb) = 0x01000000#32 ||| nb.setWidth 32 <<< 8 ||| sadd.setWidth 32
    ∧ (s.ph = .w0 → s.pe = false →
        exec (.i2cWrite sadd nb) s = .next { s with fault := some ⟨.busNotEnabled, s.cur⟩ })
    ∧ (∀ k, s.ph = .w0 → s.pe = true → k < nb.toNat → (∀ j, j < k → (s.pbuf.get j).isSome = true) →
        s.pbuf.get k = none →
        exec (.i2cWrite sadd nb) s = .next { s with fault := some ⟨.uninitRead (.pbuf k), s.cur⟩ })
    ∧ (s.ph = .w0 → s.pe = true → (∀ k, k < nb.toNat → (s.pbuf.get k).isSome = true) →
        exec (.i2cWrite sadd nb) s
          = .next { s with sadd := sadd, dir := .write, nbytes := nb, start := true, idx := 0, ph := .w1 })
    ∧ (∀ b, s.ph = .w1 → s.idx < nb.toNat → s.txrdy = true → s.pbuf.get s.idx = some b →
        exec (.i2cWrite sadd nb) s
          = .next { s with txd := some b, txrdy := false, idx := s.idx + 1,
                           ph := if s.idx + 1 < nb.toNat then .w1 else .w2 })
    ∧ (s.ph = .w1 → s.idx < nb.toNat → s.txrdy = false → exec (.i2cWrite sadd nb) s = .next s)
    ∧ (s.ph = .w2 → s.tc = true → exec (.i2cWrite sadd nb) s = .next { s with stop := true, ph := .w3 })
    ∧ (s.ph = .w2 → s.tc = false → exec (.i2cWrite sadd nb) s = .next s)
    ∧ (s.ph = .w3 → s.stop = false → exec (.i2cWrite sadd nb) s = .next { s with busy := false })
    ∧ (s.ph = .w3 → s.stop = true → exec (.i2cWrite sadd nb) s = .next s)

/-- I2C_READ phase by phase (R101, R104). A wait that is not lifted leaves the state as it is (log 2). -/
def Obligations.I2cReadPhases : Prop :=
  ∀ (sadd : BitVec 7) (nb : BitVec 2) (s : State),
    encode (.i2cRead sadd nb) = 0x02000000#32 ||| nb.setWidth 32 <<< 8 ||| sadd.setWidth 32
    ∧ (s.ph = .rd0 → s.pe = false →
        exec (.i2cRead sadd nb) s = .next { s with fault := some ⟨.busNotEnabled, s.cur⟩ })
    ∧ (s.ph = .rd0 → s.pe = true →
        exec (.i2cRead sadd nb) s
          = .next { s with sadd := sadd, dir := .read, nbytes := nb, start := true, idx := 0, ph := .rd1 })
    ∧ (s.ph = .rd1 → s.idx < nb.toNat → s.rxrdy = true →
        ∃ p, exec (.i2cRead sadd nb) s
            = .next { s with pbuf := p, rxrdy := false, idx := s.idx + 1,
                             ph := if s.idx + 1 < nb.toNat then .rd1 else .rd2 }
          ∧ p.get s.idx = some s.rxd ∧ ∀ k, k ≠ s.idx → p.get k = s.pbuf.get k)
    ∧ (s.ph = .rd1 → s.idx < nb.toNat → s.rxrdy = false → exec (.i2cRead sadd nb) s = .next s)
    ∧ (s.ph = .rd2 → s.tc = true → exec (.i2cRead sadd nb) s = .next { s with stop := true, ph := .rd3 })
    ∧ (s.ph = .rd2 → s.tc = false → exec (.i2cRead sadd nb) s = .next s)
    ∧ (s.ph = .rd3 → s.stop = false → exec (.i2cRead sadd nb) s = .next { s with busy := false })
    ∧ (s.ph = .rd3 → s.stop = true → exec (.i2cRead sadd nb) s = .next s)

/-- The phases of a transaction after its set-up are the same for every command that runs one: BTD_WRITE (R103) and
BTD_READ (R105), with the step of a composite command given by `plan` (R151 to R161). A wait that is not lifted leaves the
state as it is (log 2). -/
def Obligations.TransactionPhasesAreShared : Prop :=
  ∀ (i : Instr) (s : State) (n : Nat),
    (plan s.config i s.kIdx = some (.write n) →
      (∀ b, s.ph = .w1 → s.idx < n → s.txrdy = true → s.pbuf.get s.idx = some b →
        exec i s = .next { s with txd := some b, txrdy := false, idx := s.idx + 1,
                                  ph := if s.idx + 1 < n then .w1 else .w2 })
      ∧ (s.ph = .w1 → s.idx < n → s.txrdy = false → exec i s = .next s)
      ∧ (s.ph = .w2 → s.tc = true → exec i s = .next { s with stop := true, ph := .w3 })
      ∧ (s.ph = .w2 → s.tc = false → exec i s = .next s)
      ∧ (s.ph = .w3 → s.stop = true → exec i s = .next s))
    ∧ (plan s.config i s.kIdx = some (.read n) →
      (s.ph = .rd1 → s.idx < n → s.rxrdy = true →
        ∃ p, exec i s = .next { s with pbuf := p, rxrdy := false, idx := s.idx + 1,
                                       ph := if s.idx + 1 < n then .rd1 else .rd2 }
          ∧ p.get s.idx = some s.rxd ∧ ∀ k, k ≠ s.idx → p.get k = s.pbuf.get k)
      ∧ (s.ph = .rd1 → s.idx < n → s.rxrdy = false → exec i s = .next s)
      ∧ (s.ph = .rd2 → s.tc = true → exec i s = .next { s with stop := true, ph := .rd3 })
      ∧ (s.ph = .rd2 → s.tc = false → exec i s = .next s)
      ∧ (s.ph = .rd3 → s.stop = true → exec i s = .next s))

/-- R110 and R114: E_START and E_STOP, where they are enabled and where they are not; SEQ sets I2C_STOP only after I2C_TC
is up, in phase W2 or RD2, and in a reachable state E_STOP ends a transaction whose bytes are all transferred. That a rule
that is not enabled leaves the state as it is, is the model's choice (log 2). -/
def Obligations.StartAndStopSteps : Prop :=
  (∀ s : State,
    (s.start = true → s.stop = false → s.busact = false →
      agentStep (.bus .eStart) s
        = .next { s with busTrace := s.busTrace ++ [.start, .addr s.sadd s.dir], busact := true, start := false,
                         cnt := 0#2, txrdy := if s.dir = .write then true else s.txrdy })
    ∧ ((s.start = false ∨ s.stop = true ∨ s.busact = true) → agentStep (.bus .eStart) s = .next s)
    ∧ (s.stop = true →
      agentStep (.bus .eStop) s
        = .next { s with busTrace := s.busTrace ++ [.stop], stop := false, tc := false, busact := false,
                         txrdy := false, cnt := 0#2 })
    ∧ (s.stop = false → agentStep (.bus .eStop) s = .next s)
    ∧ ∀ t, agentStep .seq s = .next t → s.stop = false → t.stop = true → s.tc = true ∧ (s.ph = .w2 ∨ s.ph = .rd2))
  ∧ ∀ s : State, StateInv s → s.fault = none → s.stop = true → s.busact = true ∧ s.cnt = s.nbytes ∧ s.nbytes ≠ 0#2

/-- R111 and R112: E_TX, for a byte that is not the last and for the last; E_RX, which takes any byte (the next of the bytes
the model is given, else a free one: log 10), and I2C_TC rises together with the last byte's I2C_RXRDY. In phase RD2 of a
reachable state I2C_TC is up. A rule that is not enabled leaves the state as it is (log 2). -/
def Obligations.ByteSteps : Prop :=
  (∀ (s : State),
    (∀ b, s.busact = true → s.dir = .write → s.txd = some b →
      (s.cnt + 1#2 < s.nbytes →
        agentStep (.bus .eTx) s
          = .next { s with busTrace := s.busTrace ++ [.wr b], txd := none, cnt := s.cnt + 1#2, txrdy := true })
      ∧ (¬s.cnt + 1#2 < s.nbytes →
        agentStep (.bus .eTx) s
          = .next { s with busTrace := s.busTrace ++ [.wr b], txd := none, cnt := s.cnt + 1#2, tc := true }))
    ∧ ((s.busact = false ∨ s.dir = .read ∨ s.txd = none) → agentStep (.bus .eTx) s = .next s)
    ∧ (s.busact = true → s.dir = .read → s.rxrdy = false → s.cnt < s.nbytes →
      (∀ b rest, s.draws = b :: rest →
        agentStep (.bus .eRx) s
          = .next { s with draws := rest, busTrace := s.busTrace ++ [.rd b], rxd := b, rxrdy := true,
                           cnt := s.cnt + 1#2, tc := if s.cnt + 1#2 = s.nbytes then true else s.tc })
      ∧ (s.draws = [] →
        agentStep (.bus .eRx) s
          = .next { s with drawCount := s.drawCount + 1, rxd := Config.sensorByte s.drawCount, rxrdy := true,
                           busTrace := s.busTrace ++ [.rd (Config.sensorByte s.drawCount)], cnt := s.cnt + 1#2,
                           tc := if s.cnt + 1#2 = s.nbytes then true else s.tc }))
    ∧ ((s.busact = false ∨ s.dir = .write ∨ s.rxrdy = true ∨ ¬s.cnt < s.nbytes) →
        agentStep (.bus .eRx) s = .next s))
  ∧ ∀ (s : State), StateInv s → s.fault = none → s.busy = true → s.ph = .rd2 → s.tc = true

/-- A whole I2C_WRITE on an idle bus, under the schedule that takes every enabled step at once: the bus trace, and nothing
else but the set-up fields and SEQ's own (R102, R103, R107, R118). -/
def Obligations.I2cWriteRunsToDone : Prop :=
  ∀ (s : State) (sadd : BitVec 7) (nb : BitVec 2) (bytes : List Byte) (rest : List Agent),
    s.config.wf = true → s.fault = none → s.busy = true → s.cur = some (.i2cWrite sadd nb) → s.ph = .w0 →
    s.pe = true → s.busIdle → nb ≠ 0#2 → bytes.length = nb.toNat →
    (∀ (k : Nat) (b : Byte), bytes[k]? = some b → s.pbuf.get k = some b) → s.sched = writeSched nb.toNat ++ rest →
    runSteps (writeSched nb.toNat).length s
      = .next { s with busy := false, ph := .w3, idx := nb.toNat, sadd := sadd, dir := .write, nbytes := nb,
                       busTrace := s.busTrace ++ writeEvents sadd bytes, sched := rest }

/-- A whole I2C_READ on an idle bus: the bytes drawn go on the bus trace and into PBUF in arrival order; the bytes of PBUF
past NB keep their value (R104, R105, R72). -/
def Obligations.I2cReadRunsToDone : Prop :=
  ∀ (s : State) (sadd : BitVec 7) (nb : BitVec 2) (bytes more : List Byte) (rest : List Agent),
    s.config.wf = true → s.fault = none → s.busy = true → s.cur = some (.i2cRead sadd nb) → s.ph = .rd0 →
    s.pe = true → s.busIdle → nb ≠ 0#2 → bytes.length = nb.toNat → s.draws = bytes ++ more →
    s.sched = readSched nb.toNat ++ rest →
    ∃ p last, runSteps (readSched nb.toNat).length s
        = .next { s with busy := false, ph := .rd3, idx := nb.toNat, sadd := sadd, dir := .read, nbytes := nb,
                         pbuf := p, rxd := last, draws := more,
                         busTrace := s.busTrace ++ readEvents sadd bytes, sched := rest }
      ∧ (∀ (k : Nat) (b : Byte), bytes[k]? = some b → p.get k = some b)
      ∧ ∀ k, nb.toNat ≤ k → p.get k = s.pbuf.get k

/-! ### The register codec -/

/-- R134 and R135: the 24-bit decode, as sign or zero extension of the 20-bit field, and the 16-bit decode, with the first
byte on the bus in bits 11:4 (C1); the low nibble of the last byte is discarded. -/
def Obligations.DecodeFunctions : Prop :=
  (∀ b0 b1 b2 : Byte,
    dec24 b0 b1 b2 true = (b0 ++ b1 ++ b2.extractLsb' 4 4).signExtend 32
    ∧ dec24 b0 b1 b2 false = (b0 ++ b1 ++ b2.extractLsb' 4 4).setWidth 32
    ∧ dec24 b0 b1 b2 true = (if b0.getLsbD 7 then (b0 ++ b1 ++ b2.extractLsb' 4 4).setWidth 32 ||| 0xFFF00000#32
        else (b0 ++ b1 ++ b2.extractLsb' 4 4).setWidth 32))
  ∧ dec24 0xFF#8 0xFF#8 0xF0#8 true = 0xFFFFFFFF#32 ∧ dec24 0x00#8 0x00#8 0x10#8 true = 0x00000001#32
  ∧ (∀ b0 b1 : Byte, (dec16 b0 b1).toNat = b0.toNat * 16 + b1.toNat / 16) ∧ dec16 0x02#8 0xA0#8 = 0x0000002A#32

/-- R136: the scale is the exact product divided by 2^S, rounded down, in its low 32 bits. -/
def Obligations.ScaleRoundsDown : Prop :=
  (∀ (v : Word) (M S : Nat), M < 2 ^ 32 → S ≤ 31 →
    |v.toInt * M| < 2 ^ 63
    ∧ ∃ q : Int, q * 2 ^ S ≤ v.toInt * M ∧ v.toInt * M < (q + 1) * 2 ^ S ∧ scaleWord v M S = BitVec.ofInt 32 q)
  ∧ (∀ v : Word, -2 ^ 19 ≤ v.toInt → v.toInt < 2 ^ 19 →
      -1000000 ≤ (scaleWord v 1000000 19).toInt ∧ (scaleWord v 1000000 19).toInt ≤ 999998
      ∧ (scaleWord v 1000000 19).toInt * 2 ^ 19 ≤ v.toInt * 1000000
      ∧ v.toInt * 1000000 < ((scaleWord v 1000000 19).toInt + 1) * 2 ^ 19)
  ∧ (scaleWord (BitVec.ofInt 32 500000) 1000000 19).toInt = 953674
  ∧ (scaleWord (BitVec.ofInt 32 (-500000)) 1000000 19).toInt = -953675
  ∧ (scaleWord (BitVec.ofInt 32 (-1)) 1000000 19).toInt = -2 ∧ scaleWord 0#32 1000000 19 = 0#32

/-- R143: the laws of the current descriptor's scale on the signed 24-bit range. -/
def Obligations.CurrentScaleLaws : Prop :=
  (∀ v w : Word, -2 ^ 19 ≤ v.toInt → v.toInt ≤ w.toInt → w.toInt < 2 ^ 19 →
    (scaleWord v 1000000 19).toInt ≤ (scaleWord w 1000000 19).toInt)
  ∧ (∀ v : Word, -2 ^ 19 ≤ v.toInt → v.toInt < 2 ^ 19 →
      ((scaleWord v 1000000 19).toInt * 2 ^ 19 = v.toInt * 1000000 ↔ v.toInt % 8192 = 0)
      ∧ (v.toInt < 0 → v.toInt % 8192 ≠ 0 →
          (scaleWord v 1000000 19).toInt = (v.toInt * 1000000).tdiv (2 ^ 19) - 1))
  ∧ scaleWord 0#32 1000000 19 = 0#32
  ∧ (scaleWord (BitVec.ofInt 32 (-524288)) 1000000 19).toInt = -1000000
  ∧ (scaleWord (BitVec.ofInt 32 524287) 1000000 19).toInt = 999998
  ∧ (scaleWord (BitVec.ofInt 32 (-8192)) 1000000 19).toInt = -15625
  ∧ (scaleWord (BitVec.ofInt 32 (-1)) 1000000 19).toInt = -2
  ∧ ((-1 : Int) * 1000000).tdiv (2 ^ 19) = -1

/-- R141: the codec round trip, for every value in range and every discarded nibble. -/
def Obligations.CodecRoundTrip : Prop :=
  (∀ (v : Word) (x : BitVec 4), -2 ^ 19 ≤ v.toInt → v.toInt < 2 ^ 19 →
    dec24 (v.extractLsb' 12 8) (v.extractLsb' 4 8) (v.extractLsb' 0 4 ++ x) true = v)
  ∧ (∀ (v : Word) (x : BitVec 4), v.toNat < 2 ^ 20 →
    dec24 (v.extractLsb' 12 8) (v.extractLsb' 4 8) (v.extractLsb' 0 4 ++ x) false = v)
  ∧ (∀ (v : Word) (x : BitVec 4), v.toNat < 2 ^ 12 → dec16 (v.extractLsb' 4 8) (v.extractLsb' 0 4 ++ x) = v)
  ∧ (∀ (b0 b1 : Byte) (n x y : BitVec 4) sg, dec24 b0 b1 (n ++ x) sg = dec24 b0 b1 (n ++ y) sg)
  ∧ ∀ (b0 : Byte) (n x y : BitVec 4), dec16 b0 (n ++ x) = dec16 b0 (n ++ y)

/-- R142: the range of each decode, and the field 0x80000. -/
def Obligations.DecodeRanges : Prop :=
  ∀ b0 b1 b2 : Byte,
    -524288 ≤ (dec24 b0 b1 b2 true).toInt ∧ (dec24 b0 b1 b2 true).toInt ≤ 524287
    ∧ (dec24 b0 b1 b2 false).toNat ≤ 1048575 ∧ (dec16 b0 b1).toNat ≤ 4095
    ∧ (b0 = 0x80#8 → b1 = 0x00#8 → b2.extractLsb' 4 4 = 0#4 →
        dec24 b0 b1 b2 true = 0xFFF80000#32 ∧ dec24 b0 b1 b2 false = 0x00080000#32)

/-- R137: DECODE. -/
def Obligations.DecodeCommand : Prop :=
  ∀ (reg : BitVec 6) (sc : Bool) (s : State),
    encode (.decodeReg reg sc) = 0x10000000#32 ||| (BitVec.ofBool sc).setWidth 32 <<< 8 ||| reg.setWidth 32
    ∧ (s.desc reg = none →
        exec (.decodeReg reg sc) s = .next { s with fault := some ⟨.noDescriptor reg, s.cur⟩ })
    ∧ ∀ d, s.desc reg = some d →
        (∀ k, k < descBytes d → s.pbuf.get k = none → (∀ j, j < k → (s.pbuf.get j).isSome = true) →
          exec (.decodeReg reg sc) s = .next { s with fault := some ⟨.uninitRead (.pbuf k), s.cur⟩ })
        ∧ (∀ b0 b1, d.width = .w16 → s.pbuf.b0 = some b0 → s.pbuf.b1 = some b1 →
          exec (.decodeReg reg sc) s
            = .next { s with res := some (if sc then scaleWord (dec16 b0 b1) d.M d.S else dec16 b0 b1), busy := false })
        ∧ (∀ b0 b1 b2, d.width = .w24 → s.pbuf.b0 = some b0 → s.pbuf.b1 = some b1 → s.pbuf.b2 = some b2 →
          exec (.decodeReg reg sc) s
            = .next { s with res := some (if sc then scaleWord (dec24 b0 b1 b2 d.signed) d.M d.S
                                          else dec24 b0 b1 b2 d.signed), busy := false })
        ∧ (d.M = 1 → d.S = 0 → exec (.decodeReg reg true) s = exec (.decodeReg reg false) s)

/-- R138 and R139: SCALE and MKSTR. -/
def Obligations.ScaleAndMkstrCommands : Prop :=
  (∀ (reg : BitVec 6) (s : State),
    encode (.scale reg) = 0x11000000#32 ||| reg.setWidth 32
    ∧ (s.desc reg = none → exec (.scale reg) s = .next { s with fault := some ⟨.noDescriptor reg, s.cur⟩ })
    ∧ (∀ d, s.desc reg = some d → s.res = none →
        exec (.scale reg) s = .next { s with fault := some ⟨.uninitRead .res, s.cur⟩ })
    ∧ ∀ d v, s.desc reg = some d → s.res = some v →
        exec (.scale reg) s = .next { s with res := some (scaleWord v d.M d.S), busy := false }
        ∧ (d.M = 1 → d.S = 0 → scaleWord v d.M d.S = v))
  ∧ scaleWord 0x7FFFFFFF#32 1000000 19 = 0xF423FFFE#32 ∧ scaleWord 0x000F4240#32 1000000 19 = 0x001D1A94#32
  ∧ encode .mkstr = 0x12000000#32
  ∧ ∀ s : State,
    (∀ k, k < 2 → s.pbuf.get k = none → (∀ j, j < k → (s.pbuf.get j).isSome = true) →
        exec .mkstr s = .next { s with fault := some ⟨.uninitRead (.pbuf k), s.cur⟩ })
    ∧ ∀ b0 b1, s.pbuf.b0 = some b0 → s.pbuf.b1 = some b1 →
        exec .mkstr s = .next { s with str := some ⟨b0, b1, 0x00#8⟩, busy := false }

/-! ### The composite sensor commands -/

/-- SENSOR_INIT step by step: four `wr16` in order, then done (R151, R152; the words are those the launch fixes, else free:
log 9). -/
def Obligations.SensorInitSteps : Prop :=
  encode .sensorInit = 0x20000000#32
  ∧ ∀ (s : State) (k : Nat) (reg : BitVec 6) (w : BitVec 16), s.kIdx = k →
    [(s.config.regs.config, s.config.initWords.rst), (s.config.initWords.rangeReg, s.config.initWords.range),
      (s.config.regs.adcConfig, s.config.initWords.adc), (s.config.regs.shuntCal, s.config.initWords.shuntCal)][k]?
        = some (reg, w) →
    (s.ph = .w0 → s.pe = false → exec .sensorInit s = .next { s with fault := some ⟨.busNotEnabled, s.cur⟩ })
    ∧ (s.ph = .w0 → s.pe = true →
        exec .sensorInit s
          = .next { s with pbuf := ⟨some (reg.setWidth 8), some (w.extractLsb' 8 8), some (w.extractLsb' 0 8)⟩,
                           sadd := 0x40#7, dir := .write, nbytes := 3#2, start := true, idx := 0, ph := .w1 })
    ∧ (s.ph = .w3 → s.stop = false → k < 3 → exec .sensorInit s = .next { s with kIdx := k + 1, ph := .w0 })
    ∧ (s.ph = .w3 → s.stop = false → k = 3 → exec .sensorInit s = .next { s with busy := false })
    ∧ (∀ x, s.config.init = some x → s.config.initWords = x)

/-- READ_MFR_ID step by step (R151, R154): no descriptor is needed. -/
def Obligations.ReadMfrIdSteps : Prop :=
  encode .readMfrId = 0x21000000#32
  ∧ ∀ s : State,
    (s.kIdx = 0 → s.ph = .w0 → s.pe = false →
      exec .readMfrId s = .next { s with fault := some ⟨.busNotEnabled, s.cur⟩ })
    ∧ (s.kIdx = 0 → s.ph = .w0 → s.pe = true →
        exec .readMfrId s
          = .next { s with pbuf := { s.pbuf with b0 := some (s.config.regs.mfrId.setWidth 8) }, sadd := 0x40#7,
                           dir := .write, nbytes := 1#2, start := true, idx := 0, ph := .w1 })
    ∧ (s.kIdx = 0 → s.ph = .w3 → s.stop = false → exec .readMfrId s = .next { s with kIdx := 1, ph := .rd0 })
    ∧ (s.kIdx = 1 → s.ph = .rd0 → s.pe = true →
        exec .readMfrId s
          = .next { s with sadd := 0x40#7, dir := .read, nbytes := 2#2, start := true, idx := 0, ph := .rd1 })
    ∧ (s.kIdx = 1 → s.ph = .rd3 → s.stop = false → exec .readMfrId s = .next { s with kIdx := 2, ph := .k2 })
    ∧ (∀ b0 b1, s.kIdx = 2 → s.ph = .k2 → s.pbuf.b0 = some b0 → s.pbuf.b1 = some b1 →
        exec .readMfrId s = .next { s with str := some ⟨b0, b1, 0x00#8⟩, busy := false })

/-- Which register each numeric read reads, whether it scales, and its word (R155 to R161). In mode BUG READ_ENERGY and
READ_CHARGE are one command, and up to their last step they are READ_CURRENT; in mode DEDICATED they fault without their
descriptor (R160 to R162). -/
def Obligations.NumericReadsNameTheirRegister : Prop :=
  (∀ c : Config,
    measures c .readDeviceId = some (c.regs.deviceId, false) ∧ measures c .readCurrent = some (c.regs.current, true)
    ∧ measures c .readVoltage = some (c.regs.vbus, false) ∧ measures c .readTemperature = some (c.regs.dieTemp, false)
    ∧ measures c .readPower = some (c.regs.power, false)
    ∧ (c.mode = .bug → measures c .readEnergy = some (c.regs.current, false)
        ∧ measures c .readCharge = some (c.regs.current, false))
    ∧ (c.mode = .dedicated → measures c .readEnergy = some (c.regs.energy, false)
        ∧ measures c .readCharge = some (c.regs.charge, false)))
  ∧ encode .readDeviceId = 0x22000000#32 ∧ encode .readCurrent = 0x23000000#32 ∧ encode .readVoltage = 0x24000000#32
  ∧ encode .readTemperature = 0x25000000#32 ∧ encode .readPower = 0x26000000#32 ∧ encode .readEnergy = 0x27000000#32
  ∧ encode .readCharge = 0x28000000#32
  ∧ ∀ s : State,
    (s.config.mode = .bug → exec .readCharge s = exec .readEnergy s
      ∧ (s.kIdx < 2 → exec .readEnergy s = exec .readCurrent s))
    ∧ (s.config.mode = .dedicated → s.kIdx = 0 → s.ph = .w0 →
      (s.desc s.config.regs.energy = none →
        exec .readEnergy s = .next { s with fault := some ⟨.noDescriptor s.config.regs.energy, s.cur⟩ })
      ∧ (s.desc s.config.regs.charge = none →
        exec .readCharge s = .next { s with fault := some ⟨.noDescriptor s.config.regs.charge, s.cur⟩ }))

/-- `sensor_read` step by step, for each of the seven numeric reads (R151, R155 to R161): the descriptor is looked up
before PE, the pointer write is one byte, the read has the descriptor's width, and RES gets the decoded value. -/
def Obligations.SensorReadSteps : Prop :=
  ∀ (i : Instr) (reg : BitVec 6) (sc : Bool) (s : State), measures s.config i = some (reg, sc) →
    (s.desc reg = none → s.kIdx = 0 → s.ph = .w0 →
      exec i s = .next { s with fault := some ⟨.noDescriptor reg, s.cur⟩ })
    ∧ ∀ d, s.desc reg = some d →
      (s.kIdx = 0 → s.ph = .w0 → s.pe = false → exec i s = .next { s with fault := some ⟨.busNotEnabled, s.cur⟩ })
      ∧ (s.kIdx = 0 → s.ph = .w0 → s.pe = true →
          exec i s
            = .next { s with pbuf := { s.pbuf with b0 := some (reg.setWidth 8) }, sadd := 0x40#7, dir := .write,
                             nbytes := 1#2, start := true, idx := 0, ph := .w1 })
      ∧ (s.kIdx = 0 → s.ph = .w3 → s.stop = false → exec i s = .next { s with kIdx := 1, ph := .rd0 })
      ∧ (s.kIdx = 1 → s.ph = .rd0 → s.pe = true →
          exec i s
            = .next { s with sadd := 0x40#7, dir := .read, nbytes := if d.width = .w16 then 2#2 else 3#2,
                             start := true, idx := 0, ph := .rd1 })
      ∧ (s.kIdx = 1 → s.ph = .rd3 → s.stop = false → exec i s = .next { s with kIdx := 2, ph := .k2 })
      ∧ (∀ b0 b1, s.kIdx = 2 → s.ph = .k2 → d.width = .w16 → s.pbuf.b0 = some b0 → s.pbuf.b1 = some b1 →
          exec i s
            = .next { s with res := some (if sc then scaleWord (dec16 b0 b1) d.M d.S else dec16 b0 b1), busy := false })
      ∧ (∀ b0 b1 b2, s.kIdx = 2 → s.ph = .k2 → d.width = .w24 → s.pbuf.b0 = some b0 → s.pbuf.b1 = some b1 →
          s.pbuf.b2 = some b2 →
          exec i s
            = .next { s with res := some (if sc then scaleWord (dec24 b0 b1 b2 d.signed) d.M d.S
                                          else dec24 b0 b1 b2 d.signed), busy := false })

/-- A whole numeric read on an idle bus, for each of the seven commands: pointer write, read, and RES is the value of the
bytes the sensor answered; STR, TMEM, the console and PBUF past the register's width are unchanged (R151, R155 to R161,
R164). -/
def Obligations.NumericReadRunsToDone : Prop :=
  ∀ (s : State) (i : Instr) (reg : BitVec 6) (sc : Bool) (d : Descriptor) (bytes more : List Byte) (v : Word)
    (rest : List Agent),
    s.config.wf = true → s.fault = none → s.busy = true → s.cur = some i → measures s.config i = some (reg, sc) →
    s.desc reg = some d → s.ph = .w0 → s.kIdx = 0 → s.pe = true → s.busIdle → s.draws = bytes ++ more →
    measured d sc bytes = some v →
    s.sched = writeSched 1 ++ readSched bytes.length ++ [.seq] ++ rest →
    ∃ p last, runSteps (writeSched 1 ++ readSched bytes.length ++ [Agent.seq]).length s
        = .next { s with busy := false, ph := .k2, kIdx := 2, idx := bytes.length, sadd := 0x40#7, dir := .read,
                         nbytes := BitVec.ofNat 2 bytes.length, pbuf := p, rxd := last, draws := more, res := some v,
                         busTrace := s.busTrace ++ writeEvents 0x40#7 [reg.setWidth 8] ++ readEvents 0x40#7 bytes,
                         sched := rest }
      ∧ (∀ (k : Nat) (b : Byte), bytes[k]? = some b → p.get k = some b)
      ∧ ∀ k, bytes.length ≤ k → p.get k = s.pbuf.get k

/-- A whole READ_MFR_ID on an idle bus (R154, and the read of R163). -/
def Obligations.MfrIdReadRunsToDone : Prop :=
  ∀ (s : State) (b0 b1 : Byte) (more : List Byte) (rest : List Agent),
    s.config.wf = true → s.fault = none → s.busy = true → s.cur = some .readMfrId → s.ph = .w0 → s.kIdx = 0 →
    s.pe = true → s.busIdle → s.draws = b0 :: b1 :: more →
    s.sched = writeSched 1 ++ readSched 2 ++ [.seq] ++ rest →
    runSteps (writeSched 1 ++ readSched 2 ++ [Agent.seq]).length s
      = .next { s with busy := false, ph := .k2, kIdx := 2, idx := 2, sadd := 0x40#7, dir := .read, nbytes := 2#2,
                       pbuf := ⟨some b0, some b1, s.pbuf.b2⟩, rxd := b1, draws := more,
                       str := some ⟨b0, b1, 0x00#8⟩,
                       busTrace := s.busTrace ++ writeEvents 0x40#7 [s.config.regs.mfrId.setWidth 8]
                         ++ readEvents 0x40#7 [b0, b1],
                       sched := rest }

/-- A whole SENSOR_INIT on an idle bus: four 3-byte write transactions, big-endian, in the order of R152 (R53, R152). -/
def Obligations.SensorInitRunsToDone : Prop :=
  ∀ (s : State) (w : InitWords) (rest : List Agent),
    s.config.wf = true → s.fault = none → s.busy = true → s.cur = some .sensorInit → s.ph = .w0 → s.kIdx = 0 →
    s.pe = true → s.busIdle → s.config.init = some w →
    s.sched = writeSched 3 ++ writeSched 3 ++ writeSched 3 ++ writeSched 3 ++ rest →
    runSteps (4 * (writeSched 3).length) s
      = .next { s with busy := false, ph := .w3, kIdx := 3, idx := 3, sadd := 0x40#7, dir := .write, nbytes := 3#2,
                       pbuf := ⟨some (s.config.regs.shuntCal.setWidth 8), some (w.shuntCal.extractLsb' 8 8),
                                some (w.shuntCal.extractLsb' 0 8)⟩,
                       busTrace := s.busTrace
                         ++ writeEvents 0x40#7
                             [s.config.regs.config.setWidth 8, w.rst.extractLsb' 8 8, w.rst.extractLsb' 0 8]
                         ++ writeEvents 0x40#7
                             [w.rangeReg.setWidth 8, w.range.extractLsb' 8 8, w.range.extractLsb' 0 8]
                         ++ writeEvents 0x40#7
                             [s.config.regs.adcConfig.setWidth 8, w.adc.extractLsb' 8 8, w.adc.extractLsb' 0 8]
                         ++ writeEvents 0x40#7
                             [s.config.regs.shuntCal.setWidth 8, w.shuntCal.extractLsb' 8 8,
                              w.shuntCal.extractLsb' 0 8],
                       sched := rest }

/-! ### The console -/

/-- R171, R172 and R173: UART_INIT, UART_START and UART_STOP. On a disabled console of a reachable state U_TC is 1, so
UART_STOP ends at once. That UART_STOP, while it holds, leaves the state as it is, is the model's form of a hold (log 2). -/
def Obligations.ConsoleLifecycleCommands : Prop :=
  (∀ (div : BitVec 16) (s : State),
    encode (.uartInit div) = 0x30000000#32 ||| div.setWidth 32
    ∧ (s.uEn = true →
        exec (.uartInit div) s = .next { s with fault := some ⟨.uartReconfigWhileEnabled div, s.cur⟩ })
    ∧ (s.uEn = false → exec (.uartInit div) s = .next { s with brr := some div, busy := false })
    ∧ (s.busy = false → hostWrite s 32 0x000#12 0x30000000#32 = .error (.illegalCommand 0x30000000#32)))
  ∧ (∀ s : State,
    encode .uartStart = 0x31000000#32
    ∧ (s.brr = none → exec .uartStart s = .next { s with fault := some ⟨.uartNotInitialised, s.cur⟩ })
    ∧ (∀ d, s.brr = some d → exec .uartStart s = .next { s with uEn := true, busy := false })
    ∧ encode .uartStop = 0x32000000#32
    ∧ (s.uTc = false → exec .uartStop s = .next s)
    ∧ (s.uTc = true → exec .uartStop s = .next { s with uEn := false, busy := false }))
  ∧ ∀ s : State, StateInv s → s.uEn = false → exec .uartStop s = .next { s with busy := false }

/-- WRITE_TEXT phase by phase, for both sources (R60, R174, R175, R176). A wait that is not lifted leaves the state as it is
(log 2), T2 holds the character (log 5), and I of R176 is `textPos` (log 6). -/
def Obligations.WriteTextPhases : Prop :=
  (∀ a : BitVec 8, encode (.writeText (.tmem a)) = 0x33000000#32 ||| a.setWidth 32)
  ∧ encode (.writeText .str) = 0x33800000#32
  ∧ ∀ (src : TextSrc) (s : State),
    (s.ph = .t0 → s.uEn = false →
      exec (.writeText src) s = .next { s with fault := some ⟨.uartNotEnabled, s.cur⟩ })
    ∧ (s.ph = .t0 → s.uEn = true → src = .str → s.str = none →
        exec (.writeText src) s = .next { s with fault := some ⟨.uninitRead .str, s.cur⟩ })
    ∧ (s.ph = .t0 → s.uEn = true → (src = .str → s.str.isSome = true) →
        exec (.writeText src) s = .next { s with textPos := 0, ph := .t1 })
    ∧ (∀ a, s.ph = .t1 → src = .tmem a →
        (256 ≤ a.toNat + s.textPos →
          exec (.writeText src) s = .next { s with fault := some ⟨.textUnterminated (a.toNat + s.textPos), s.cur⟩ })
        ∧ (a.toNat + s.textPos < 256 → s.tmem.read (a.toNat + s.textPos) = none →
          exec (.writeText src) s = .next { s with fault := some ⟨.uninitRead (.tmem (a.toNat + s.textPos)), s.cur⟩ })
        ∧ (a.toNat + s.textPos < 256 → s.tmem.read (a.toNat + s.textPos) = some 0x00#8 →
          exec (.writeText src) s = .next { s with busy := false })
        ∧ ∀ c, a.toNat + s.textPos < 256 → s.tmem.read (a.toNat + s.textPos) = some c → c ≠ 0x00#8 →
          exec (.writeText src) s = .next { s with ph := .t2 c })
    ∧ (∀ t, s.ph = .t1 → src = .str → s.str = some t →
        ([t.b0, t.b1, t.b2][s.textPos]? = some 0x00#8 → exec (.writeText src) s = .next { s with busy := false })
        ∧ ∀ c, [t.b0, t.b1, t.b2][s.textPos]? = some c → c ≠ 0x00#8 →
          exec (.writeText src) s = .next { s with ph := .t2 c })
    ∧ (∀ c, s.ph = .t2 c →
        (s.uTxrdy = true →
          exec (.writeText src) s
            = .next { s with uStage := some c, uTxrdy := false, uTc := false, textPos := s.textPos + 1, ph := .t1 })
        ∧ (s.uTxrdy = false → exec (.writeText src) s = .next s))

/-- WRITE_U8 and WRITE_U16 phase by phase (R174, R178 to R181). A wait that is not lifted leaves the state as it is (log 2),
and N2 holds the character (log 5). -/
def Obligations.NumberWritePhases : Prop :=
  (∀ v : BitVec 8, encode (.writeU8 (.imm v)) = 0x34000000#32 ||| v.setWidth 32)
  ∧ encode (.writeU8 .res) = 0x34800000#32
  ∧ (∀ v : BitVec 16, encode (.writeU16 (.imm v)) = 0x35000000#32 ||| v.setWidth 32)
  ∧ encode (.writeU16 .res) = 0x35800000#32
  ∧ (∀ s : State, s.ph = .n0 → s.uEn = true →
      (∀ v, exec (.writeU8 (.imm v)) s
        = .next { s with dbuf := fmtPlaces [100, 10, 1] v.toNat 0 false s.dbuf, idx := 0, ph := .n1 })
      ∧ (∀ v, exec (.writeU16 (.imm v)) s
        = .next { s with dbuf := fmtPlaces [10000, 1000, 100, 10, 1] v.toNat 0 false s.dbuf, idx := 0, ph := .n1 })
      ∧ (∀ r, s.res = some r →
        exec (.writeU8 .res) s
          = .next { s with dbuf := fmtPlaces [100, 10, 1] (r.toNat % 256) 0 false s.dbuf, idx := 0, ph := .n1 }
        ∧ exec (.writeU16 .res) s
          = .next { s with dbuf := fmtPlaces [10000, 1000, 100, 10, 1] (r.toNat % 65536) 0 false s.dbuf, idx := 0,
                           ph := .n1 })
      ∧ (s.res = none →
        exec (.writeU8 .res) s = .next { s with fault := some ⟨.uninitRead .res, s.cur⟩ }
        ∧ exec (.writeU16 .res) s = .next { s with fault := some ⟨.uninitRead .res, s.cur⟩ }))
  ∧ ∀ (i : Instr) (s : State), numberWrite i = true →
      (s.ph = .n0 → s.uEn = false → exec i s = .next { s with fault := some ⟨.uartNotEnabled, s.cur⟩ })
      ∧ (s.ph = .n1 → s.dbuf[s.idx]? = some 0x00#8 → exec i s = .next { s with busy := false })
      ∧ (∀ c, s.ph = .n1 → s.dbuf[s.idx]? = some c → c ≠ 0x00#8 → exec i s = .next { s with ph := .n2 c })
      ∧ (∀ c, s.ph = .n2 c →
          (s.uTxrdy = true →
            exec i s = .next { s with uStage := some c, uTxrdy := false, uTc := false, idx := s.idx + 1, ph := .n1 })
          ∧ (s.uTxrdy = false → exec i s = .next s))

/-- R186: E_LINE, and in a reachable state a full stage implies U_EN = 1. That E_LINE with an empty stage leaves the state
as it is, is the model's choice (log 2). -/
def Obligations.LineStepSendsTheStagedByte : Prop :=
  (∀ s : State,
    (∀ b, s.uStage = some b →
      agentStep .line s
        = .next { s with lineTrace := s.lineTrace ++ [b], uStage := none, uTxrdy := true, uTc := true })
    ∧ (s.uStage = none → agentStep .line s = .next s))
  ∧ ∀ s : State, StateInv s → s.uStage.isSome = true → s.uEn = true

/-- R185: the digits sent are the standard decimal numeral of n, of the least length, and start with 0x30 only for 0. -/
def Obligations.FormatterPrintsDecimal : Prop :=
  ∀ (n : Nat) (buf : Vector Byte 6),
    (n ≤ 255 → isDecimal n (sentBytes (fmtPlaces placesU8 n 0 false buf))
      ∧ (sentBytes (fmtPlaces placesU8 n 0 false buf)).length = (if n < 10 then 1 else if n < 100 then 2 else 3)
      ∧ ((sentBytes (fmtPlaces placesU8 n 0 false buf)).head? = some 0x30#8 ↔ n = 0))
    ∧ (n ≤ 65535 → isDecimal n (sentBytes (fmtPlaces placesU16 n 0 false buf))
      ∧ (sentBytes (fmtPlaces placesU16 n 0 false buf)).length
          = (if n < 10 then 1 else if n < 100 then 2 else if n < 1000 then 3 else if n < 10000 then 4 else 5)
      ∧ ((sentBytes (fmtPlaces placesU16 n 0 false buf)).head? = some 0x30#8 ↔ n = 0))

/-- No byte of DBUF that a number write sends is left from before: the NUL stands at index 5 or below, and everything up
to it is the same whatever DBUF held (R184; so nothing rests on DBUF's reset value, log 7). -/
def Obligations.FormatterOverwritesWhatIsSent : Prop :=
  ∀ (places : List Nat), places = placesU8 ∨ places = placesU16 → ∀ n, n < 10 * places.headD 0 →
    ∃ j ≤ 5, ∀ buf old : Vector Byte 6,
      (fmtPlaces places n 0 false buf)[j]? = some 0x00#8
      ∧ ∀ k, k < j → ∃ d : Byte, (fmtPlaces places n 0 false buf)[k]? = some d
          ∧ (fmtPlaces places n 0 false old)[k]? = some d ∧ 0x30 ≤ d.toNat ∧ d.toNat ≤ 0x39

/-- A whole WRITE_TEXT on an enabled console with an empty stage, from TMEM and from STR: the bytes before the NUL reach the
line in order, and nothing else changes but SEQ's own state (R73, R174 to R177; I of R176 is `textPos`: log 6). -/
def Obligations.TextReachesTheLine : Prop :=
  ∀ (s : State) (src : TextSrc) (cs : List Byte) (rest : List Agent),
    s.config.wf = true → s.fault = none → s.busy = true → s.cur = some (.writeText src) → s.ph = .t0 →
    s.uEn = true → s.uStage = none → s.uTxrdy = true → s.uTc = true → (∀ c ∈ cs, c ≠ 0x00#8) →
    (match src with
      | .tmem a => a.toNat + cs.length < 256 ∧ s.tmem.read (a.toNat + cs.length) = some 0x00#8
          ∧ ∀ (k : Nat) (c : Byte), cs[k]? = some c → s.tmem.read (a.toNat + k) = some c
      | .str => ∃ t more, s.str = some t ∧ [t.b0, t.b1, t.b2] = cs ++ 0x00#8 :: more) →
    s.sched = textSched cs.length ++ rest →
    runSteps (textSched cs.length).length s
      = .next { s with busy := false, ph := .t1, textPos := cs.length, lineTrace := s.lineTrace ++ cs, sched := rest }

/-- A whole WRITE_U8 or WRITE_U16 on an enabled console with an empty stage: the line gets the standard decimal numeral of
the operand, and nothing else changes but DBUF and SEQ's own state (R178, R180, R181, R185). -/
def Obligations.NumberReachesTheLineInDecimal : Prop :=
  ∀ (s : State) (i : Instr) (n : Nat),
    s.config.wf = true → s.fault = none → s.busy = true → s.cur = some i → s.ph = .n0 → s.uEn = true →
    s.uStage = none → s.uTxrdy = true → s.uTc = true →
    ((∃ v : BitVec 8, i = .writeU8 (.imm v) ∧ n = v.toNat) ∨ (∃ v : BitVec 16, i = .writeU16 (.imm v) ∧ n = v.toNat)
      ∨ (∃ r, i = .writeU8 .res ∧ s.res = some r ∧ n = r.toNat % 256)
      ∨ ∃ r, i = .writeU16 .res ∧ s.res = some r ∧ n = r.toNat % 65536) →
    ∃ ds, isDecimal n ds ∧ ∀ rest, s.sched = textSched ds.length ++ rest →
      ∃ buf, runSteps (textSched ds.length).length s
        = .next { s with busy := false, ph := .n1, idx := ds.length, lineTrace := s.lineTrace ++ ds, dbuf := buf,
                         sched := rest }

/-! ### Reset -/

/-- What reset leaves, for every element R220 gives a value or no value, and what HOST then reads. I2C_RXD and DBUF, for
which R220 gives none, are not in it: their 0 is the model's choice (log 7). I has two homes, `idx` and `textPos` (log 6). -/
def Obligations.ResetStateIsR220 : Prop :=
  State.reset.busy = false ∧ State.reset.cur = none ∧ State.reset.ph = .idle ∧ State.reset.idx = 0
  ∧ State.reset.textPos = 0
  ∧ State.reset.kIdx = 0 ∧ State.reset.fault = none ∧ State.reset.sadd = 0#7 ∧ State.reset.dir = .write
  ∧ State.reset.nbytes = 0#2 ∧ State.reset.start = false ∧ State.reset.stop = false ∧ State.reset.txrdy = false
  ∧ State.reset.rxrdy = false ∧ State.reset.tc = false ∧ State.reset.txd = none ∧ State.reset.pe = false
  ∧ State.reset.busact = false ∧ State.reset.cnt = 0#2 ∧ State.reset.pbuf = ⟨none, none, none⟩
  ∧ State.reset.res = none ∧ State.reset.str = none ∧ State.reset.brr = none
  ∧ (∀ a, State.reset.tmem.read a = none) ∧ State.reset.uEn = false ∧ State.reset.uTxrdy = true
  ∧ State.reset.uTc = true ∧ State.reset.uStage = none ∧ State.reset.busTrace = [] ∧ State.reset.lineTrace = []
  ∧ hostRead State.reset 32 0x004#12 = .ok 0x000000C0#32 ∧ hostRead State.reset 32 0x008#12 = .ok 0x00000000#32
  ∧ hostRead State.reset 32 0x00C#12 = .ok 0x00000000#32
  ∧ hostRead State.reset 32 0x010#12 = .error (.uninitRead (.pbuf 0))
  ∧ hostRead State.reset 32 0x014#12 = .error (.uninitRead .res)
  ∧ hostRead State.reset 32 0x018#12 = .error (.uninitRead .str)
  ∧ hostRead State.reset 32 0x01C#12 = .error (.uninitRead .brr)
  ∧ hostRead State.reset 32 0x1FC#12 = .error (.uninitRead (.tmem 252))

/-! ### Invariants -/

/-- The invariant holds at reset, with every well-formed configuration, every host program and every environment. -/
def Obligations.LaunchMeetsTheInvariant : Prop :=
  StateInv State.reset ∧ ∀ c ops sched draws, c.wf = true → StateInv (launchState c ops sched draws)

/-- Every step keeps the invariant. -/
def Obligations.StepKeepsTheInvariant : Prop := ∀ s t : State, StateInv s → step s = .next t → StateInv t

/-- R119 and R189: whenever BUSY = 0 and no fault is recorded the bus is idle, and in every reachable state the console
flags agree with the stage. Both hold at reset. -/
def Obligations.ReachableBusIdleAndConsole : Prop :=
  (∀ (c : Config) (ops : List HostOp) (sched : List Agent) (draws : List Byte) (n : Nat) (t : State),
    c.wf = true → runSteps n (launchState c ops sched draws) = .next t →
    (t.busy = false → t.fault = none →
      t.start = false ∧ t.stop = false ∧ t.busact = false ∧ t.txrdy = false ∧ t.rxrdy = false ∧ t.tc = false
        ∧ t.txd = none ∧ t.cnt = 0#2)
    ∧ (t.uTxrdy = true ↔ t.uStage = none) ∧ t.uTc = t.uTxrdy ∧ (t.uEn = false → t.uStage = none))
  ∧ State.reset.busIdle ∧ State.reset.consoleOk

/-- The bus trace of every reachable state is a sequence of complete transactions, each an address right after its start,
1 to 3 bytes in the address's direction and a stop, then at most one open transaction; with BUSY = 0 there is none open
(R72, R106, R107). -/
def Obligations.ReachableBusTraceIsWholeTransactions : Prop :=
  ∀ (c : Config) (ops : List HostOp) (sched : List Agent) (draws : List Byte) (n : Nat) (t : State),
    c.wf = true → runSteps n (launchState c ops sched draws) = .next t →
    (∃ p, busScan .idle t.busTrace = some p)
    ∧ (t.busy = false → t.fault = none → busScan .idle t.busTrace = some .idle)

/-! ### Whole-machine rules -/

/-- R117 and R188: who sets and who clears each handshake flag. -/
def Obligations.FlagWriters : Prop :=
  ∀ (a : Agent) (s t : State), agentStep a s = .next t →
    (s.start = false → t.start = true → a = .seq ∧ (s.ph = .w0 ∨ s.ph = .rd0))
    ∧ (s.start = true → t.start = false → a = .bus .eStart)
    ∧ (s.stop = false → t.stop = true → a = .seq ∧ (s.ph = .w2 ∨ s.ph = .rd2))
    ∧ (s.stop = true → t.stop = false → a = .bus .eStop)
    ∧ (s.txrdy = false → t.txrdy = true →
        s.dir = .write ∧ (a = .bus .eStart ∨ a = .bus .eTx ∧ s.cnt + 1#2 < s.nbytes))
    ∧ (s.txrdy = true → t.txrdy = false → a = .seq ∧ s.ph = .w1 ∨ a = .bus .eStop)
    ∧ (s.rxrdy = false → t.rxrdy = true → a = .bus .eRx)
    ∧ (s.rxrdy = true → t.rxrdy = false → a = .seq ∧ s.ph = .rd1)
    ∧ (s.tc = false → t.tc = true →
        a = .bus .eTx ∧ ¬s.cnt + 1#2 < s.nbytes ∨ a = .bus .eRx ∧ s.cnt + 1#2 = s.nbytes)
    ∧ (s.tc = true → t.tc = false → a = .bus .eStop)
    ∧ (s.busact = false → t.busact = true → a = .bus .eStart)
    ∧ (s.busact = true → t.busact = false → a = .bus .eStop)
    ∧ (s.uEn = false → t.uEn = true → a = .seq ∧ s.cur = some .uartStart)
    ∧ (s.uEn = true → t.uEn = false → a = .seq ∧ s.cur = some .uartStop)
    ∧ (s.uTxrdy = false → t.uTxrdy = true → a = .line)
    ∧ (s.uTc = false → t.uTc = true → a = .line)
    ∧ (s.uTxrdy = true → t.uTxrdy = false → a = .seq ∧ ∃ c, s.ph = .t2 c ∨ s.ph = .n2 c)
    ∧ (s.uTc = true → t.uTc = false → a = .seq ∧ ∃ c, s.ph = .t2 c ∨ s.ph = .n2 c)
    ∧ (s.uStage = none → t.uStage ≠ none → a = .seq ∧ ∃ c, (s.ph = .t2 c ∨ s.ph = .n2 c) ∧ t.uStage = some c)
    ∧ (s.uStage ≠ none → t.uStage = none → a = .line)

/-- Each agent writes only its own part of the state: the column 'written by' of R41. An accepted CMD write is a step of
HOST. -/
def Obligations.AgentsWriteOnlyTheirState : Prop :=
  ∀ (a : Agent) (s t : State), agentStep a s = .next t →
    t.config = s.config ∧ t.sched = s.sched ∧ t.tick = s.tick
    ∧ (a ≠ .host → t.pe = s.pe ∧ (∀ x, t.tmem.read x = s.tmem.read x) ∧ t.host = s.host ∧ t.hostReads = s.hostReads
        ∧ t.cur = s.cur)
    ∧ (a ≠ .seq → t.sadd = s.sadd ∧ t.dir = s.dir ∧ t.nbytes = s.nbytes ∧ t.res = s.res ∧ t.str = s.str
        ∧ t.uEn = s.uEn ∧ t.brr = s.brr ∧ t.dbuf = s.dbuf)
    ∧ (a ≠ .host → a ≠ .seq → t.busy = s.busy ∧ t.ph = s.ph ∧ t.idx = s.idx ∧ t.textPos = s.textPos ∧ t.kIdx = s.kIdx
        ∧ t.fault = s.fault ∧ t.pbuf = s.pbuf)
    ∧ ((∀ r, a ≠ .bus r) → t.busTrace = s.busTrace ∧ t.rxd = s.rxd ∧ t.busact = s.busact ∧ t.cnt = s.cnt
        ∧ t.tc = s.tc ∧ t.draws = s.draws ∧ t.drawCount = s.drawCount)
    ∧ (a ≠ .line → t.lineTrace = s.lineTrace)
    ∧ (a ≠ .seq → a ≠ .line → t.uTxrdy = s.uTxrdy ∧ t.uTc = s.uTc ∧ t.uStage = s.uStage)
    ∧ ((a = .host ∨ a = .line) → t.start = s.start ∧ t.stop = s.stop ∧ t.txrdy = s.txrdy ∧ t.rxrdy = s.rxrdy
        ∧ t.txd = s.txd)

/-- The frame of every command, in every phase: the elements a command does not write, by the 'State written' and 'Flags
written' of its rule (R102, R104, R137 to R139, R151 to R161, R171 to R176, R180, R181). No byte of TMEM changes. -/
def Obligations.CommandFrames : Prop :=
  ∀ (i : Instr) (s t : State), exec i s = .next t →
    (t.cur = s.cur ∧ t.pe = s.pe ∧ (∀ a, t.tmem.read a = s.tmem.read a) ∧ t.rxd = s.rxd ∧ t.busact = s.busact
      ∧ t.cnt = s.cnt ∧ t.tc = s.tc ∧ t.busTrace = s.busTrace ∧ t.lineTrace = s.lineTrace ∧ t.host = s.host
      ∧ t.hostReads = s.hostReads ∧ t.config = s.config ∧ t.sched = s.sched ∧ t.tick = s.tick ∧ t.draws = s.draws
      ∧ t.drawCount = s.drawCount)
    ∧ (match i with
      | .i2cWrite _ _ =>
        t.pbuf = s.pbuf ∧ t.res = s.res ∧ t.str = s.str ∧ t.rxrdy = s.rxrdy ∧ t.kIdx = s.kIdx
      | .i2cRead _ _ =>
        (∀ k, k ≠ s.idx → t.pbuf.get k = s.pbuf.get k) ∧ t.res = s.res ∧ t.str = s.str ∧ t.txrdy = s.txrdy
          ∧ t.txd = s.txd ∧ t.kIdx = s.kIdx
      | .decodeReg _ _ | .scale _ =>
        t.pbuf = s.pbuf ∧ t.str = s.str ∧ t.ph = s.ph ∧ t.idx = s.idx ∧ t.kIdx = s.kIdx
      | .mkstr | .uartInit _ | .uartStart | .uartStop =>
        t.pbuf = s.pbuf ∧ t.res = s.res ∧ t.ph = s.ph ∧ t.idx = s.idx ∧ t.kIdx = s.kIdx
      | .sensorInit => t.res = s.res ∧ t.str = s.str ∧ t.rxrdy = s.rxrdy
      | .readMfrId => t.res = s.res
      | .readDeviceId | .readCurrent | .readVoltage | .readTemperature | .readPower | .readEnergy | .readCharge =>
        t.str = s.str
      | .writeText _ | .writeU8 _ | .writeU16 _ =>
        t.pbuf = s.pbuf ∧ t.res = s.res ∧ t.str = s.str ∧ t.kIdx = s.kIdx)
    ∧ ((∀ src, i ≠ .writeText src) → t.textPos = s.textPos)
    ∧ (match i with
      | .uartInit _ => t.uEn = s.uEn ∧ t.str = s.str
      | .uartStart | .uartStop => t.brr = s.brr ∧ t.str = s.str
      | _ => t.uEn = s.uEn ∧ t.brr = s.brr)
    ∧ (match i with
      | .writeText _ => t.dbuf = s.dbuf ∧ t.idx = s.idx
      | .writeU8 _ | .writeU16 _ => True
      | _ => t.dbuf = s.dbuf ∧ t.uTxrdy = s.uTxrdy ∧ t.uTc = s.uTc ∧ t.uStage = s.uStage)
    ∧ (match i with
      | .i2cWrite _ _ | .i2cRead _ _ | .sensorInit | .readMfrId | .readDeviceId | .readCurrent | .readVoltage
      | .readTemperature | .readPower | .readEnergy | .readCharge => True
      | _ => t.sadd = s.sadd ∧ t.dir = s.dir ∧ t.nbytes = s.nbytes ∧ t.start = s.start ∧ t.stop = s.stop
          ∧ t.txrdy = s.txrdy ∧ t.rxrdy = s.rxrdy ∧ t.txd = s.txd)

/-- A command raises only the faults R202 lists for it, in its first phase, before any bus activity of its own, or, for
WRITE_TEXT, in T1 (R202, R203). -/
def Obligations.CommandFaultsAreListedAndEarly : Prop :=
  ∀ (s t : State) (i : Instr) (r : FaultRecord), StateInv s → s.fault = none → s.busy = true → s.cur = some i →
    exec i s = .next t → t.fault = some r →
    mayRaise s.config i r.code ∧ r.cmd = some i
    ∧ (s.kIdx = 0 ∧ s.ph = firstPhase i ∧ s.busIdle ∨ onePhase i = true ∨ (∃ src, i = .writeText src) ∧ s.ph = .t1)

/-- The hold points are exactly those R208 lists. In a reachable state a step of the running command leaves the state as it
is just where the table says that it waits (log 2 is the form of a hold), and a step of HOST that raises nothing leaves its
next operation to do just where it is a WAITIDLE and BUSY is 1. -/
def Obligations.HoldPointsAreTheListedOnes : Prop :=
  (∀ (s : State) (i : Instr), StateInv s → s.fault = none → s.busy = true → s.cur = some i →
    ((exec i s = .next s ↔ s.holds i) ∧ (s.seqWaits ↔ s.holds i)))
  ∧ ∀ s : State, s.fault = none → s.host ≠ [] →
    ((hostStep s).fault = none ∧ (hostStep s).host = s.host ↔ s.hostWaits)

/-- R108: no timeout. A hold that no other agent lifts lasts for any number of SEQ steps (log 2 is the form of a hold). -/
def Obligations.HoldsHaveNoTimeout : Prop :=
  ∀ (n : Nat) (s : State) (i : Instr) (rest : List Agent), s.config.wf = true → s.fault = none → s.busy = true →
    s.cur = some i → s.holds i → s.sched = List.replicate n .seq ++ rest →
    runSteps n s = .next { s with sched := rest }

/-- Liveness: in a run that goes on for ever (so without a fault), with SEQ, BUSENV and LINEENV weakly fair, every running
command reaches done, and so no agent waits for ever: the run does not hang (R8, R113, R187, R208, R234). -/
def Obligations.FairRunsFinishEveryCommand : Prop :=
  ∀ run : Nat → State, IsRun run → StateInv (run 0) → SeqFair run → BusFair run → LineFair run →
    (∀ n, (run n).busy = true → ∃ m, n ≤ m ∧ (run m).busy = false) ∧ ¬Hangs run

/-! ### Launches -/

/-- R209: a launch is refused exactly where its configuration is not well-formed, or its program uses SENSOR_INIT without the
INIT parameters, or READ_ENERGY or READ_CHARGE in mode DEDICATED without the descriptor; every other launch starts from the
state after reset. Addresses of 64 or more cannot be written down, and SENSOR_SADD and TMEM_SIZE are constants (log 12,
log 18). -/
def Obligations.LaunchIsRefusedExactlyWhereR209Says : Prop :=
  (∀ (ops : List HostOp) (i : Instr),
    i ∈ hostCommands ops ↔ ∃ v, HostOp.write 32 0x000#12 v ∈ ops ∧ decode v = .ok i)
  ∧ ∀ (c : Config) (ops : List HostOp) (sched : List Agent) (draws : List Byte),
    (c.wf = false → launch c ops sched draws = .refused .illFormedConfig)
    ∧ (c.wf = true →
      ((∃ s, launch c ops sched draws = .next s) ↔
        (.sensorInit ∈ hostCommands ops → c.init.isSome = true)
        ∧ (.readEnergy ∈ hostCommands ops → c.mode = .dedicated → ∃ d ∈ c.desc, d.addr = c.regs.energy)
        ∧ (.readCharge ∈ hostCommands ops → c.mode = .dedicated → ∃ d ∈ c.desc, d.addr = c.regs.charge)))
    ∧ (∀ s, launch c ops sched draws = .next s →
        s = { State.reset with config := c, host := ops, sched := sched, draws := draws })
    ∧ ∀ f, launch c ops sched draws ≠ .fault f
end

