-- ==== Sys2Proof/Laws/Memory.lean ====
section
/-!
SUPPORT. TMEM: a read after a write, a write leaves every other address alone, and every memory operation keeps the
canonical form, which reset has.
-/

namespace Sys2Proof.Machine

/-- A byte just written is read back. -/
@[simp] theorem Memory.read_write_same (m : Memory) (a : Nat) (b : Byte) :
    Memory.read (Memory.write m a b) a = some b := by
  induction m with
  | nil => simp [Memory.write, Memory.read]
  | cons c m ih =>
    obtain ⟨x, y⟩ := c
    simp only [Memory.write]
    split
    · simp [Memory.read]
    · split
      · simp [Memory.read]
      · rename_i h
        simp [Memory.read, Ne.symm h, ih]

/-- A write leaves every other address as it was. -/
theorem Memory.read_write_other (m : Memory) (a a' : Nat) (b : Byte) (h : a' ≠ a) :
    Memory.read (Memory.write m a b) a' = Memory.read m a' := by
  induction m with
  | nil => simp [Memory.write, Memory.read, Ne.symm h]
  | cons c m ih =>
    obtain ⟨x, y⟩ := c
    simp only [Memory.write]
    split
    · simp [Memory.read, Ne.symm h]
    · split
      · subst_vars; simp [Memory.read, Ne.symm h]
      · simp only [Memory.read, ih]

/-- The read of a write, at any address. -/
theorem Memory.read_write (m : Memory) (a a' : Nat) (b : Byte) :
    Memory.read (Memory.write m a b) a' = if a' = a then some b else Memory.read m a' := by
  split
  · subst_vars; simp
  · rename_i h; exact Memory.read_write_other m a a' b h

/-- A write from `lo` on keeps the canonical form from `lo` on. -/
theorem Memory.wfFrom_write (m : Memory) (lo a : Nat) (b : Byte) (hl : lo ≤ a) (ha : a < Config.tmemSize)
    (h : Memory.wfFrom lo m = true) : Memory.wfFrom lo (Memory.write m a b) = true := by
  induction m generalizing lo with
  | nil => simp [Memory.write, Memory.wfFrom, hl, ha]
  | cons c m ih =>
    obtain ⟨x, y⟩ := c
    simp only [Memory.wfFrom, Bool.and_eq_true, decide_eq_true_eq] at h
    obtain ⟨⟨h1, h2⟩, h3⟩ := h
    simp only [Memory.write]
    split
    · simp only [Memory.wfFrom, Bool.and_eq_true, decide_eq_true_eq]
      exact ⟨⟨hl, ha⟩, ⟨by omega, h2⟩, h3⟩
    · split
      · subst_vars
        simp only [Memory.wfFrom, Bool.and_eq_true, decide_eq_true_eq]
        exact ⟨⟨hl, ha⟩, h3⟩
      · simp only [Memory.wfFrom, Bool.and_eq_true, decide_eq_true_eq]
        exact ⟨⟨h1, h2⟩, ih (x + 1) (by omega) h3⟩

/-- A write inside TMEM keeps the canonical form. -/
theorem Memory.wf_write (m : Memory) (a : Nat) (b : Byte) (ha : a < Config.tmemSize) (h : m.wf = true) :
    (Memory.write m a b).wf = true :=
  Memory.wfFrom_write m 0 a b (Nat.zero_le a) ha h

/-- A HOST write of a TMEM word keeps the canonical form. -/
theorem Memory.wf_writeWord (m : Memory) (a : Nat) (v : Word) (ha : a + 3 < Config.tmemSize) (h : m.wf = true) :
    (Memory.writeWord m a v).wf = true := by
  unfold Memory.writeWord
  exact Memory.wf_write _ _ _ (by omega) (Memory.wf_write _ _ _ (by omega)
    (Memory.wf_write _ _ _ (by omega) (Memory.wf_write _ _ _ (by omega) h)))

/-- The read of a written TMEM word, at any address. -/
theorem Memory.read_writeWord (m : Memory) (a a' : Nat) (v : Word) :
    Memory.read (Memory.writeWord m a v) a' =
      if a' = a + 3 then some (laneByte v 3) else if a' = a + 2 then some (laneByte v 2)
      else if a' = a + 1 then some (laneByte v 1) else if a' = a then some (laneByte v 0)
      else Memory.read m a' := by
  simp only [Memory.writeWord, Memory.read_write]

/-- Reset has the canonical form. -/
theorem reset_tmem_wf : State.reset.tmem.wf = true := rfl

/-- The TMEM window's words lie inside TMEM (R64). -/
theorem hostReg_tmem_range (width : Nat) (off : BitVec 12) (a : Nat) (hs : goodShape width off = true)
    (h : hostReg off = some (.tmem a)) : a + 3 < Config.tmemSize := by
  have hal : off.toNat % 4 = 0 := by
    have := congrArg BitVec.toNat (eq_of_beq (Bool.and_eq_true _ _ ▸ hs).2)
    simpa [BitVec.extractLsb'_toNat] using this
  unfold hostReg at h
  simp only [Config.tmemSize]
  split at h <;> try (simp at h)
  split at h <;> try (simp at h)
  split at h <;> try (simp at h)
  split at h <;> try (simp at h)
  split at h <;> try (simp at h)
  split at h <;> try (simp at h)
  split at h <;> try (simp at h)
  split at h <;> try (simp at h)
  omega

end Sys2Proof.Machine
end

