-- ==== Sys2Proof/Laws/State.lean ====
section
/-!
SUPPORT. One lemma per field per named update of the state: what the update writes, and that it leaves every other field
as it is. No later proof unfolds a record update.
-/

namespace Sys2Proof.Machine

/-- A fault SEQ raises is a raise that names the current command (R200). -/
@[simp] theorem State.raiseSeq_eq (s : State) (code : FaultCode) : s.raiseSeq code = s.raise code s.cur := rfl

/-- A fault HOST raises is a raise that names no command (R200). -/
@[simp] theorem State.raiseHost_eq (s : State) (code : FaultCode) : s.raiseHost code = s.raise code none := rfl

/-! ### State.raise -/

@[simp] theorem State.raise_busy (s : State) (code : FaultCode) (cmd : Option Instr) : (s.raise code cmd).busy = s.busy := rfl
@[simp] theorem State.raise_cur (s : State) (code : FaultCode) (cmd : Option Instr) : (s.raise code cmd).cur = s.cur := rfl
@[simp] theorem State.raise_ph (s : State) (code : FaultCode) (cmd : Option Instr) : (s.raise code cmd).ph = s.ph := rfl
@[simp] theorem State.raise_idx (s : State) (code : FaultCode) (cmd : Option Instr) : (s.raise code cmd).idx = s.idx := rfl
@[simp] theorem State.raise_textPos (s : State) (code : FaultCode) (cmd : Option Instr) : (s.raise code cmd).textPos = s.textPos := rfl
@[simp] theorem State.raise_kIdx (s : State) (code : FaultCode) (cmd : Option Instr) : (s.raise code cmd).kIdx = s.kIdx := rfl
@[simp] theorem State.raise_fault (s : State) (code : FaultCode) (cmd : Option Instr) : (s.raise code cmd).fault = some ⟨code, cmd⟩ := rfl
@[simp] theorem State.raise_sadd (s : State) (code : FaultCode) (cmd : Option Instr) : (s.raise code cmd).sadd = s.sadd := rfl
@[simp] theorem State.raise_dir (s : State) (code : FaultCode) (cmd : Option Instr) : (s.raise code cmd).dir = s.dir := rfl
@[simp] theorem State.raise_nbytes (s : State) (code : FaultCode) (cmd : Option Instr) : (s.raise code cmd).nbytes = s.nbytes := rfl
@[simp] theorem State.raise_start (s : State) (code : FaultCode) (cmd : Option Instr) : (s.raise code cmd).start = s.start := rfl
@[simp] theorem State.raise_stop (s : State) (code : FaultCode) (cmd : Option Instr) : (s.raise code cmd).stop = s.stop := rfl
@[simp] theorem State.raise_txrdy (s : State) (code : FaultCode) (cmd : Option Instr) : (s.raise code cmd).txrdy = s.txrdy := rfl
@[simp] theorem State.raise_rxrdy (s : State) (code : FaultCode) (cmd : Option Instr) : (s.raise code cmd).rxrdy = s.rxrdy := rfl
@[simp] theorem State.raise_tc (s : State) (code : FaultCode) (cmd : Option Instr) : (s.raise code cmd).tc = s.tc := rfl
@[simp] theorem State.raise_txd (s : State) (code : FaultCode) (cmd : Option Instr) : (s.raise code cmd).txd = s.txd := rfl
@[simp] theorem State.raise_rxd (s : State) (code : FaultCode) (cmd : Option Instr) : (s.raise code cmd).rxd = s.rxd := rfl
@[simp] theorem State.raise_pe (s : State) (code : FaultCode) (cmd : Option Instr) : (s.raise code cmd).pe = s.pe := rfl
@[simp] theorem State.raise_busact (s : State) (code : FaultCode) (cmd : Option Instr) : (s.raise code cmd).busact = s.busact := rfl
@[simp] theorem State.raise_cnt (s : State) (code : FaultCode) (cmd : Option Instr) : (s.raise code cmd).cnt = s.cnt := rfl
@[simp] theorem State.raise_pbuf (s : State) (code : FaultCode) (cmd : Option Instr) : (s.raise code cmd).pbuf = s.pbuf := rfl
@[simp] theorem State.raise_res (s : State) (code : FaultCode) (cmd : Option Instr) : (s.raise code cmd).res = s.res := rfl
@[simp] theorem State.raise_str (s : State) (code : FaultCode) (cmd : Option Instr) : (s.raise code cmd).str = s.str := rfl
@[simp] theorem State.raise_uEn (s : State) (code : FaultCode) (cmd : Option Instr) : (s.raise code cmd).uEn = s.uEn := rfl
@[simp] theorem State.raise_brr (s : State) (code : FaultCode) (cmd : Option Instr) : (s.raise code cmd).brr = s.brr := rfl
@[simp] theorem State.raise_uTxrdy (s : State) (code : FaultCode) (cmd : Option Instr) : (s.raise code cmd).uTxrdy = s.uTxrdy := rfl
@[simp] theorem State.raise_uTc (s : State) (code : FaultCode) (cmd : Option Instr) : (s.raise code cmd).uTc = s.uTc := rfl
@[simp] theorem State.raise_uStage (s : State) (code : FaultCode) (cmd : Option Instr) : (s.raise code cmd).uStage = s.uStage := rfl
@[simp] theorem State.raise_dbuf (s : State) (code : FaultCode) (cmd : Option Instr) : (s.raise code cmd).dbuf = s.dbuf := rfl
@[simp] theorem State.raise_tmem (s : State) (code : FaultCode) (cmd : Option Instr) : (s.raise code cmd).tmem = s.tmem := rfl
@[simp] theorem State.raise_busTrace (s : State) (code : FaultCode) (cmd : Option Instr) : (s.raise code cmd).busTrace = s.busTrace := rfl
@[simp] theorem State.raise_lineTrace (s : State) (code : FaultCode) (cmd : Option Instr) : (s.raise code cmd).lineTrace = s.lineTrace := rfl
@[simp] theorem State.raise_host (s : State) (code : FaultCode) (cmd : Option Instr) : (s.raise code cmd).host = s.host := rfl
@[simp] theorem State.raise_hostReads (s : State) (code : FaultCode) (cmd : Option Instr) : (s.raise code cmd).hostReads = s.hostReads := rfl
@[simp] theorem State.raise_config (s : State) (code : FaultCode) (cmd : Option Instr) : (s.raise code cmd).config = s.config := rfl
@[simp] theorem State.raise_sched (s : State) (code : FaultCode) (cmd : Option Instr) : (s.raise code cmd).sched = s.sched := rfl
@[simp] theorem State.raise_tick (s : State) (code : FaultCode) (cmd : Option Instr) : (s.raise code cmd).tick = s.tick := rfl
@[simp] theorem State.raise_draws (s : State) (code : FaultCode) (cmd : Option Instr) : (s.raise code cmd).draws = s.draws := rfl
@[simp] theorem State.raise_drawCount (s : State) (code : FaultCode) (cmd : Option Instr) : (s.raise code cmd).drawCount = s.drawCount := rfl

/-! ### State.done -/

@[simp] theorem State.done_busy (s : State) : s.done.busy = false := rfl
@[simp] theorem State.done_cur (s : State) : s.done.cur = s.cur := rfl
@[simp] theorem State.done_ph (s : State) : s.done.ph = s.ph := rfl
@[simp] theorem State.done_idx (s : State) : s.done.idx = s.idx := rfl
@[simp] theorem State.done_textPos (s : State) : s.done.textPos = s.textPos := rfl
@[simp] theorem State.done_kIdx (s : State) : s.done.kIdx = s.kIdx := rfl
@[simp] theorem State.done_fault (s : State) : s.done.fault = s.fault := rfl
@[simp] theorem State.done_sadd (s : State) : s.done.sadd = s.sadd := rfl
@[simp] theorem State.done_dir (s : State) : s.done.dir = s.dir := rfl
@[simp] theorem State.done_nbytes (s : State) : s.done.nbytes = s.nbytes := rfl
@[simp] theorem State.done_start (s : State) : s.done.start = s.start := rfl
@[simp] theorem State.done_stop (s : State) : s.done.stop = s.stop := rfl
@[simp] theorem State.done_txrdy (s : State) : s.done.txrdy = s.txrdy := rfl
@[simp] theorem State.done_rxrdy (s : State) : s.done.rxrdy = s.rxrdy := rfl
@[simp] theorem State.done_tc (s : State) : s.done.tc = s.tc := rfl
@[simp] theorem State.done_txd (s : State) : s.done.txd = s.txd := rfl
@[simp] theorem State.done_rxd (s : State) : s.done.rxd = s.rxd := rfl
@[simp] theorem State.done_pe (s : State) : s.done.pe = s.pe := rfl
@[simp] theorem State.done_busact (s : State) : s.done.busact = s.busact := rfl
@[simp] theorem State.done_cnt (s : State) : s.done.cnt = s.cnt := rfl
@[simp] theorem State.done_pbuf (s : State) : s.done.pbuf = s.pbuf := rfl
@[simp] theorem State.done_res (s : State) : s.done.res = s.res := rfl
@[simp] theorem State.done_str (s : State) : s.done.str = s.str := rfl
@[simp] theorem State.done_uEn (s : State) : s.done.uEn = s.uEn := rfl
@[simp] theorem State.done_brr (s : State) : s.done.brr = s.brr := rfl
@[simp] theorem State.done_uTxrdy (s : State) : s.done.uTxrdy = s.uTxrdy := rfl
@[simp] theorem State.done_uTc (s : State) : s.done.uTc = s.uTc := rfl
@[simp] theorem State.done_uStage (s : State) : s.done.uStage = s.uStage := rfl
@[simp] theorem State.done_dbuf (s : State) : s.done.dbuf = s.dbuf := rfl
@[simp] theorem State.done_tmem (s : State) : s.done.tmem = s.tmem := rfl
@[simp] theorem State.done_busTrace (s : State) : s.done.busTrace = s.busTrace := rfl
@[simp] theorem State.done_lineTrace (s : State) : s.done.lineTrace = s.lineTrace := rfl
@[simp] theorem State.done_host (s : State) : s.done.host = s.host := rfl
@[simp] theorem State.done_hostReads (s : State) : s.done.hostReads = s.hostReads := rfl
@[simp] theorem State.done_config (s : State) : s.done.config = s.config := rfl
@[simp] theorem State.done_sched (s : State) : s.done.sched = s.sched := rfl
@[simp] theorem State.done_tick (s : State) : s.done.tick = s.tick := rfl
@[simp] theorem State.done_draws (s : State) : s.done.draws = s.draws := rfl
@[simp] theorem State.done_drawCount (s : State) : s.done.drawCount = s.drawCount := rfl

/-! ### State.nextK -/

@[simp] theorem State.nextK_busy (s : State) (ph : Phase) : (s.nextK ph).busy = s.busy := rfl
@[simp] theorem State.nextK_cur (s : State) (ph : Phase) : (s.nextK ph).cur = s.cur := rfl
@[simp] theorem State.nextK_ph (s : State) (ph : Phase) : (s.nextK ph).ph = ph := rfl
@[simp] theorem State.nextK_idx (s : State) (ph : Phase) : (s.nextK ph).idx = s.idx := rfl
@[simp] theorem State.nextK_textPos (s : State) (ph : Phase) : (s.nextK ph).textPos = s.textPos := rfl
@[simp] theorem State.nextK_kIdx (s : State) (ph : Phase) : (s.nextK ph).kIdx = s.kIdx + 1 := rfl
@[simp] theorem State.nextK_fault (s : State) (ph : Phase) : (s.nextK ph).fault = s.fault := rfl
@[simp] theorem State.nextK_sadd (s : State) (ph : Phase) : (s.nextK ph).sadd = s.sadd := rfl
@[simp] theorem State.nextK_dir (s : State) (ph : Phase) : (s.nextK ph).dir = s.dir := rfl
@[simp] theorem State.nextK_nbytes (s : State) (ph : Phase) : (s.nextK ph).nbytes = s.nbytes := rfl
@[simp] theorem State.nextK_start (s : State) (ph : Phase) : (s.nextK ph).start = s.start := rfl
@[simp] theorem State.nextK_stop (s : State) (ph : Phase) : (s.nextK ph).stop = s.stop := rfl
@[simp] theorem State.nextK_txrdy (s : State) (ph : Phase) : (s.nextK ph).txrdy = s.txrdy := rfl
@[simp] theorem State.nextK_rxrdy (s : State) (ph : Phase) : (s.nextK ph).rxrdy = s.rxrdy := rfl
@[simp] theorem State.nextK_tc (s : State) (ph : Phase) : (s.nextK ph).tc = s.tc := rfl
@[simp] theorem State.nextK_txd (s : State) (ph : Phase) : (s.nextK ph).txd = s.txd := rfl
@[simp] theorem State.nextK_rxd (s : State) (ph : Phase) : (s.nextK ph).rxd = s.rxd := rfl
@[simp] theorem State.nextK_pe (s : State) (ph : Phase) : (s.nextK ph).pe = s.pe := rfl
@[simp] theorem State.nextK_busact (s : State) (ph : Phase) : (s.nextK ph).busact = s.busact := rfl
@[simp] theorem State.nextK_cnt (s : State) (ph : Phase) : (s.nextK ph).cnt = s.cnt := rfl
@[simp] theorem State.nextK_pbuf (s : State) (ph : Phase) : (s.nextK ph).pbuf = s.pbuf := rfl
@[simp] theorem State.nextK_res (s : State) (ph : Phase) : (s.nextK ph).res = s.res := rfl
@[simp] theorem State.nextK_str (s : State) (ph : Phase) : (s.nextK ph).str = s.str := rfl
@[simp] theorem State.nextK_uEn (s : State) (ph : Phase) : (s.nextK ph).uEn = s.uEn := rfl
@[simp] theorem State.nextK_brr (s : State) (ph : Phase) : (s.nextK ph).brr = s.brr := rfl
@[simp] theorem State.nextK_uTxrdy (s : State) (ph : Phase) : (s.nextK ph).uTxrdy = s.uTxrdy := rfl
@[simp] theorem State.nextK_uTc (s : State) (ph : Phase) : (s.nextK ph).uTc = s.uTc := rfl
@[simp] theorem State.nextK_uStage (s : State) (ph : Phase) : (s.nextK ph).uStage = s.uStage := rfl
@[simp] theorem State.nextK_dbuf (s : State) (ph : Phase) : (s.nextK ph).dbuf = s.dbuf := rfl
@[simp] theorem State.nextK_tmem (s : State) (ph : Phase) : (s.nextK ph).tmem = s.tmem := rfl
@[simp] theorem State.nextK_busTrace (s : State) (ph : Phase) : (s.nextK ph).busTrace = s.busTrace := rfl
@[simp] theorem State.nextK_lineTrace (s : State) (ph : Phase) : (s.nextK ph).lineTrace = s.lineTrace := rfl
@[simp] theorem State.nextK_host (s : State) (ph : Phase) : (s.nextK ph).host = s.host := rfl
@[simp] theorem State.nextK_hostReads (s : State) (ph : Phase) : (s.nextK ph).hostReads = s.hostReads := rfl
@[simp] theorem State.nextK_config (s : State) (ph : Phase) : (s.nextK ph).config = s.config := rfl
@[simp] theorem State.nextK_sched (s : State) (ph : Phase) : (s.nextK ph).sched = s.sched := rfl
@[simp] theorem State.nextK_tick (s : State) (ph : Phase) : (s.nextK ph).tick = s.tick := rfl
@[simp] theorem State.nextK_draws (s : State) (ph : Phase) : (s.nextK ph).draws = s.draws := rfl
@[simp] theorem State.nextK_drawCount (s : State) (ph : Phase) : (s.nextK ph).drawCount = s.drawCount := rfl

/-! ### State.xferSetup -/

@[simp] theorem State.xferSetup_busy (s : State) (sadd : BitVec 7) (dir : Dir) (n : Nat) : (s.xferSetup sadd dir n).busy = s.busy := rfl
@[simp] theorem State.xferSetup_cur (s : State) (sadd : BitVec 7) (dir : Dir) (n : Nat) : (s.xferSetup sadd dir n).cur = s.cur := rfl
@[simp] theorem State.xferSetup_ph (s : State) (sadd : BitVec 7) (dir : Dir) (n : Nat) : (s.xferSetup sadd dir n).ph = s.ph := rfl
@[simp] theorem State.xferSetup_idx (s : State) (sadd : BitVec 7) (dir : Dir) (n : Nat) : (s.xferSetup sadd dir n).idx = 0 := rfl
@[simp] theorem State.xferSetup_textPos (s : State) (sadd : BitVec 7) (dir : Dir) (n : Nat) : (s.xferSetup sadd dir n).textPos = s.textPos := rfl
@[simp] theorem State.xferSetup_kIdx (s : State) (sadd : BitVec 7) (dir : Dir) (n : Nat) : (s.xferSetup sadd dir n).kIdx = s.kIdx := rfl
@[simp] theorem State.xferSetup_fault (s : State) (sadd : BitVec 7) (dir : Dir) (n : Nat) : (s.xferSetup sadd dir n).fault = s.fault := rfl
@[simp] theorem State.xferSetup_sadd (s : State) (sadd : BitVec 7) (dir : Dir) (n : Nat) : (s.xferSetup sadd dir n).sadd = sadd := rfl
@[simp] theorem State.xferSetup_dir (s : State) (sadd : BitVec 7) (dir : Dir) (n : Nat) : (s.xferSetup sadd dir n).dir = dir := rfl
@[simp] theorem State.xferSetup_nbytes (s : State) (sadd : BitVec 7) (dir : Dir) (n : Nat) : (s.xferSetup sadd dir n).nbytes = BitVec.ofNat 2 n := rfl
@[simp] theorem State.xferSetup_start (s : State) (sadd : BitVec 7) (dir : Dir) (n : Nat) : (s.xferSetup sadd dir n).start = true := rfl
@[simp] theorem State.xferSetup_stop (s : State) (sadd : BitVec 7) (dir : Dir) (n : Nat) : (s.xferSetup sadd dir n).stop = s.stop := rfl
@[simp] theorem State.xferSetup_txrdy (s : State) (sadd : BitVec 7) (dir : Dir) (n : Nat) : (s.xferSetup sadd dir n).txrdy = s.txrdy := rfl
@[simp] theorem State.xferSetup_rxrdy (s : State) (sadd : BitVec 7) (dir : Dir) (n : Nat) : (s.xferSetup sadd dir n).rxrdy = s.rxrdy := rfl
@[simp] theorem State.xferSetup_tc (s : State) (sadd : BitVec 7) (dir : Dir) (n : Nat) : (s.xferSetup sadd dir n).tc = s.tc := rfl
@[simp] theorem State.xferSetup_txd (s : State) (sadd : BitVec 7) (dir : Dir) (n : Nat) : (s.xferSetup sadd dir n).txd = s.txd := rfl
@[simp] theorem State.xferSetup_rxd (s : State) (sadd : BitVec 7) (dir : Dir) (n : Nat) : (s.xferSetup sadd dir n).rxd = s.rxd := rfl
@[simp] theorem State.xferSetup_pe (s : State) (sadd : BitVec 7) (dir : Dir) (n : Nat) : (s.xferSetup sadd dir n).pe = s.pe := rfl
@[simp] theorem State.xferSetup_busact (s : State) (sadd : BitVec 7) (dir : Dir) (n : Nat) : (s.xferSetup sadd dir n).busact = s.busact := rfl
@[simp] theorem State.xferSetup_cnt (s : State) (sadd : BitVec 7) (dir : Dir) (n : Nat) : (s.xferSetup sadd dir n).cnt = s.cnt := rfl
@[simp] theorem State.xferSetup_pbuf (s : State) (sadd : BitVec 7) (dir : Dir) (n : Nat) : (s.xferSetup sadd dir n).pbuf = s.pbuf := rfl
@[simp] theorem State.xferSetup_res (s : State) (sadd : BitVec 7) (dir : Dir) (n : Nat) : (s.xferSetup sadd dir n).res = s.res := rfl
@[simp] theorem State.xferSetup_str (s : State) (sadd : BitVec 7) (dir : Dir) (n : Nat) : (s.xferSetup sadd dir n).str = s.str := rfl
@[simp] theorem State.xferSetup_uEn (s : State) (sadd : BitVec 7) (dir : Dir) (n : Nat) : (s.xferSetup sadd dir n).uEn = s.uEn := rfl
@[simp] theorem State.xferSetup_brr (s : State) (sadd : BitVec 7) (dir : Dir) (n : Nat) : (s.xferSetup sadd dir n).brr = s.brr := rfl
@[simp] theorem State.xferSetup_uTxrdy (s : State) (sadd : BitVec 7) (dir : Dir) (n : Nat) : (s.xferSetup sadd dir n).uTxrdy = s.uTxrdy := rfl
@[simp] theorem State.xferSetup_uTc (s : State) (sadd : BitVec 7) (dir : Dir) (n : Nat) : (s.xferSetup sadd dir n).uTc = s.uTc := rfl
@[simp] theorem State.xferSetup_uStage (s : State) (sadd : BitVec 7) (dir : Dir) (n : Nat) : (s.xferSetup sadd dir n).uStage = s.uStage := rfl
@[simp] theorem State.xferSetup_dbuf (s : State) (sadd : BitVec 7) (dir : Dir) (n : Nat) : (s.xferSetup sadd dir n).dbuf = s.dbuf := rfl
@[simp] theorem State.xferSetup_tmem (s : State) (sadd : BitVec 7) (dir : Dir) (n : Nat) : (s.xferSetup sadd dir n).tmem = s.tmem := rfl
@[simp] theorem State.xferSetup_busTrace (s : State) (sadd : BitVec 7) (dir : Dir) (n : Nat) : (s.xferSetup sadd dir n).busTrace = s.busTrace := rfl
@[simp] theorem State.xferSetup_lineTrace (s : State) (sadd : BitVec 7) (dir : Dir) (n : Nat) : (s.xferSetup sadd dir n).lineTrace = s.lineTrace := rfl
@[simp] theorem State.xferSetup_host (s : State) (sadd : BitVec 7) (dir : Dir) (n : Nat) : (s.xferSetup sadd dir n).host = s.host := rfl
@[simp] theorem State.xferSetup_hostReads (s : State) (sadd : BitVec 7) (dir : Dir) (n : Nat) : (s.xferSetup sadd dir n).hostReads = s.hostReads := rfl
@[simp] theorem State.xferSetup_config (s : State) (sadd : BitVec 7) (dir : Dir) (n : Nat) : (s.xferSetup sadd dir n).config = s.config := rfl
@[simp] theorem State.xferSetup_sched (s : State) (sadd : BitVec 7) (dir : Dir) (n : Nat) : (s.xferSetup sadd dir n).sched = s.sched := rfl
@[simp] theorem State.xferSetup_tick (s : State) (sadd : BitVec 7) (dir : Dir) (n : Nat) : (s.xferSetup sadd dir n).tick = s.tick := rfl
@[simp] theorem State.xferSetup_draws (s : State) (sadd : BitVec 7) (dir : Dir) (n : Nat) : (s.xferSetup sadd dir n).draws = s.draws := rfl
@[simp] theorem State.xferSetup_drawCount (s : State) (sadd : BitVec 7) (dir : Dir) (n : Nat) : (s.xferSetup sadd dir n).drawCount = s.drawCount := rfl

/-! ### State.fillStage -/

@[simp] theorem State.fillStage_busy (s : State) (b : Byte) : (s.fillStage b).busy = s.busy := rfl
@[simp] theorem State.fillStage_cur (s : State) (b : Byte) : (s.fillStage b).cur = s.cur := rfl
@[simp] theorem State.fillStage_ph (s : State) (b : Byte) : (s.fillStage b).ph = s.ph := rfl
@[simp] theorem State.fillStage_idx (s : State) (b : Byte) : (s.fillStage b).idx = s.idx := rfl
@[simp] theorem State.fillStage_textPos (s : State) (b : Byte) : (s.fillStage b).textPos = s.textPos := rfl
@[simp] theorem State.fillStage_kIdx (s : State) (b : Byte) : (s.fillStage b).kIdx = s.kIdx := rfl
@[simp] theorem State.fillStage_fault (s : State) (b : Byte) : (s.fillStage b).fault = s.fault := rfl
@[simp] theorem State.fillStage_sadd (s : State) (b : Byte) : (s.fillStage b).sadd = s.sadd := rfl
@[simp] theorem State.fillStage_dir (s : State) (b : Byte) : (s.fillStage b).dir = s.dir := rfl
@[simp] theorem State.fillStage_nbytes (s : State) (b : Byte) : (s.fillStage b).nbytes = s.nbytes := rfl
@[simp] theorem State.fillStage_start (s : State) (b : Byte) : (s.fillStage b).start = s.start := rfl
@[simp] theorem State.fillStage_stop (s : State) (b : Byte) : (s.fillStage b).stop = s.stop := rfl
@[simp] theorem State.fillStage_txrdy (s : State) (b : Byte) : (s.fillStage b).txrdy = s.txrdy := rfl
@[simp] theorem State.fillStage_rxrdy (s : State) (b : Byte) : (s.fillStage b).rxrdy = s.rxrdy := rfl
@[simp] theorem State.fillStage_tc (s : State) (b : Byte) : (s.fillStage b).tc = s.tc := rfl
@[simp] theorem State.fillStage_txd (s : State) (b : Byte) : (s.fillStage b).txd = s.txd := rfl
@[simp] theorem State.fillStage_rxd (s : State) (b : Byte) : (s.fillStage b).rxd = s.rxd := rfl
@[simp] theorem State.fillStage_pe (s : State) (b : Byte) : (s.fillStage b).pe = s.pe := rfl
@[simp] theorem State.fillStage_busact (s : State) (b : Byte) : (s.fillStage b).busact = s.busact := rfl
@[simp] theorem State.fillStage_cnt (s : State) (b : Byte) : (s.fillStage b).cnt = s.cnt := rfl
@[simp] theorem State.fillStage_pbuf (s : State) (b : Byte) : (s.fillStage b).pbuf = s.pbuf := rfl
@[simp] theorem State.fillStage_res (s : State) (b : Byte) : (s.fillStage b).res = s.res := rfl
@[simp] theorem State.fillStage_str (s : State) (b : Byte) : (s.fillStage b).str = s.str := rfl
@[simp] theorem State.fillStage_uEn (s : State) (b : Byte) : (s.fillStage b).uEn = s.uEn := rfl
@[simp] theorem State.fillStage_brr (s : State) (b : Byte) : (s.fillStage b).brr = s.brr := rfl
@[simp] theorem State.fillStage_uTxrdy (s : State) (b : Byte) : (s.fillStage b).uTxrdy = false := rfl
@[simp] theorem State.fillStage_uTc (s : State) (b : Byte) : (s.fillStage b).uTc = false := rfl
@[simp] theorem State.fillStage_uStage (s : State) (b : Byte) : (s.fillStage b).uStage = some b := rfl
@[simp] theorem State.fillStage_dbuf (s : State) (b : Byte) : (s.fillStage b).dbuf = s.dbuf := rfl
@[simp] theorem State.fillStage_tmem (s : State) (b : Byte) : (s.fillStage b).tmem = s.tmem := rfl
@[simp] theorem State.fillStage_busTrace (s : State) (b : Byte) : (s.fillStage b).busTrace = s.busTrace := rfl
@[simp] theorem State.fillStage_lineTrace (s : State) (b : Byte) : (s.fillStage b).lineTrace = s.lineTrace := rfl
@[simp] theorem State.fillStage_host (s : State) (b : Byte) : (s.fillStage b).host = s.host := rfl
@[simp] theorem State.fillStage_hostReads (s : State) (b : Byte) : (s.fillStage b).hostReads = s.hostReads := rfl
@[simp] theorem State.fillStage_config (s : State) (b : Byte) : (s.fillStage b).config = s.config := rfl
@[simp] theorem State.fillStage_sched (s : State) (b : Byte) : (s.fillStage b).sched = s.sched := rfl
@[simp] theorem State.fillStage_tick (s : State) (b : Byte) : (s.fillStage b).tick = s.tick := rfl
@[simp] theorem State.fillStage_draws (s : State) (b : Byte) : (s.fillStage b).draws = s.draws := rfl
@[simp] theorem State.fillStage_drawCount (s : State) (b : Byte) : (s.fillStage b).drawCount = s.drawCount := rfl

/-! ### State.acceptInstr -/

@[simp] theorem State.acceptInstr_busy (s : State) (i : Instr) : (s.acceptInstr i).busy = true := rfl
@[simp] theorem State.acceptInstr_cur (s : State) (i : Instr) : (s.acceptInstr i).cur = some i := rfl
@[simp] theorem State.acceptInstr_ph (s : State) (i : Instr) : (s.acceptInstr i).ph = firstPhase i := rfl
@[simp] theorem State.acceptInstr_idx (s : State) (i : Instr) : (s.acceptInstr i).idx = 0 := rfl
@[simp] theorem State.acceptInstr_textPos (s : State) (i : Instr) : (s.acceptInstr i).textPos = 0 := rfl
@[simp] theorem State.acceptInstr_kIdx (s : State) (i : Instr) : (s.acceptInstr i).kIdx = 0 := rfl
@[simp] theorem State.acceptInstr_fault (s : State) (i : Instr) : (s.acceptInstr i).fault = s.fault := rfl
@[simp] theorem State.acceptInstr_sadd (s : State) (i : Instr) : (s.acceptInstr i).sadd = s.sadd := rfl
@[simp] theorem State.acceptInstr_dir (s : State) (i : Instr) : (s.acceptInstr i).dir = s.dir := rfl
@[simp] theorem State.acceptInstr_nbytes (s : State) (i : Instr) : (s.acceptInstr i).nbytes = s.nbytes := rfl
@[simp] theorem State.acceptInstr_start (s : State) (i : Instr) : (s.acceptInstr i).start = s.start := rfl
@[simp] theorem State.acceptInstr_stop (s : State) (i : Instr) : (s.acceptInstr i).stop = s.stop := rfl
@[simp] theorem State.acceptInstr_txrdy (s : State) (i : Instr) : (s.acceptInstr i).txrdy = s.txrdy := rfl
@[simp] theorem State.acceptInstr_rxrdy (s : State) (i : Instr) : (s.acceptInstr i).rxrdy = s.rxrdy := rfl
@[simp] theorem State.acceptInstr_tc (s : State) (i : Instr) : (s.acceptInstr i).tc = s.tc := rfl
@[simp] theorem State.acceptInstr_txd (s : State) (i : Instr) : (s.acceptInstr i).txd = s.txd := rfl
@[simp] theorem State.acceptInstr_rxd (s : State) (i : Instr) : (s.acceptInstr i).rxd = s.rxd := rfl
@[simp] theorem State.acceptInstr_pe (s : State) (i : Instr) : (s.acceptInstr i).pe = s.pe := rfl
@[simp] theorem State.acceptInstr_busact (s : State) (i : Instr) : (s.acceptInstr i).busact = s.busact := rfl
@[simp] theorem State.acceptInstr_cnt (s : State) (i : Instr) : (s.acceptInstr i).cnt = s.cnt := rfl
@[simp] theorem State.acceptInstr_pbuf (s : State) (i : Instr) : (s.acceptInstr i).pbuf = s.pbuf := rfl
@[simp] theorem State.acceptInstr_res (s : State) (i : Instr) : (s.acceptInstr i).res = s.res := rfl
@[simp] theorem State.acceptInstr_str (s : State) (i : Instr) : (s.acceptInstr i).str = s.str := rfl
@[simp] theorem State.acceptInstr_uEn (s : State) (i : Instr) : (s.acceptInstr i).uEn = s.uEn := rfl
@[simp] theorem State.acceptInstr_brr (s : State) (i : Instr) : (s.acceptInstr i).brr = s.brr := rfl
@[simp] theorem State.acceptInstr_uTxrdy (s : State) (i : Instr) : (s.acceptInstr i).uTxrdy = s.uTxrdy := rfl
@[simp] theorem State.acceptInstr_uTc (s : State) (i : Instr) : (s.acceptInstr i).uTc = s.uTc := rfl
@[simp] theorem State.acceptInstr_uStage (s : State) (i : Instr) : (s.acceptInstr i).uStage = s.uStage := rfl
@[simp] theorem State.acceptInstr_dbuf (s : State) (i : Instr) : (s.acceptInstr i).dbuf = s.dbuf := rfl
@[simp] theorem State.acceptInstr_tmem (s : State) (i : Instr) : (s.acceptInstr i).tmem = s.tmem := rfl
@[simp] theorem State.acceptInstr_busTrace (s : State) (i : Instr) : (s.acceptInstr i).busTrace = s.busTrace := rfl
@[simp] theorem State.acceptInstr_lineTrace (s : State) (i : Instr) : (s.acceptInstr i).lineTrace = s.lineTrace := rfl
@[simp] theorem State.acceptInstr_host (s : State) (i : Instr) : (s.acceptInstr i).host = s.host := rfl
@[simp] theorem State.acceptInstr_hostReads (s : State) (i : Instr) : (s.acceptInstr i).hostReads = s.hostReads := rfl
@[simp] theorem State.acceptInstr_config (s : State) (i : Instr) : (s.acceptInstr i).config = s.config := rfl
@[simp] theorem State.acceptInstr_sched (s : State) (i : Instr) : (s.acceptInstr i).sched = s.sched := rfl
@[simp] theorem State.acceptInstr_tick (s : State) (i : Instr) : (s.acceptInstr i).tick = s.tick := rfl
@[simp] theorem State.acceptInstr_draws (s : State) (i : Instr) : (s.acceptInstr i).draws = s.draws := rfl
@[simp] theorem State.acceptInstr_drawCount (s : State) (i : Instr) : (s.acceptInstr i).drawCount = s.drawCount := rfl

/-! ### State.loadPointer -/

@[simp] theorem State.loadPointer_busy (s : State) (reg : BitVec 6) : (s.loadPointer reg).busy = s.busy := rfl
@[simp] theorem State.loadPointer_cur (s : State) (reg : BitVec 6) : (s.loadPointer reg).cur = s.cur := rfl
@[simp] theorem State.loadPointer_ph (s : State) (reg : BitVec 6) : (s.loadPointer reg).ph = s.ph := rfl
@[simp] theorem State.loadPointer_idx (s : State) (reg : BitVec 6) : (s.loadPointer reg).idx = s.idx := rfl
@[simp] theorem State.loadPointer_textPos (s : State) (reg : BitVec 6) : (s.loadPointer reg).textPos = s.textPos := rfl
@[simp] theorem State.loadPointer_kIdx (s : State) (reg : BitVec 6) : (s.loadPointer reg).kIdx = s.kIdx := rfl
@[simp] theorem State.loadPointer_fault (s : State) (reg : BitVec 6) : (s.loadPointer reg).fault = s.fault := rfl
@[simp] theorem State.loadPointer_sadd (s : State) (reg : BitVec 6) : (s.loadPointer reg).sadd = s.sadd := rfl
@[simp] theorem State.loadPointer_dir (s : State) (reg : BitVec 6) : (s.loadPointer reg).dir = s.dir := rfl
@[simp] theorem State.loadPointer_nbytes (s : State) (reg : BitVec 6) : (s.loadPointer reg).nbytes = s.nbytes := rfl
@[simp] theorem State.loadPointer_start (s : State) (reg : BitVec 6) : (s.loadPointer reg).start = s.start := rfl
@[simp] theorem State.loadPointer_stop (s : State) (reg : BitVec 6) : (s.loadPointer reg).stop = s.stop := rfl
@[simp] theorem State.loadPointer_txrdy (s : State) (reg : BitVec 6) : (s.loadPointer reg).txrdy = s.txrdy := rfl
@[simp] theorem State.loadPointer_rxrdy (s : State) (reg : BitVec 6) : (s.loadPointer reg).rxrdy = s.rxrdy := rfl
@[simp] theorem State.loadPointer_tc (s : State) (reg : BitVec 6) : (s.loadPointer reg).tc = s.tc := rfl
@[simp] theorem State.loadPointer_txd (s : State) (reg : BitVec 6) : (s.loadPointer reg).txd = s.txd := rfl
@[simp] theorem State.loadPointer_rxd (s : State) (reg : BitVec 6) : (s.loadPointer reg).rxd = s.rxd := rfl
@[simp] theorem State.loadPointer_pe (s : State) (reg : BitVec 6) : (s.loadPointer reg).pe = s.pe := rfl
@[simp] theorem State.loadPointer_busact (s : State) (reg : BitVec 6) : (s.loadPointer reg).busact = s.busact := rfl
@[simp] theorem State.loadPointer_cnt (s : State) (reg : BitVec 6) : (s.loadPointer reg).cnt = s.cnt := rfl
@[simp] theorem State.loadPointer_pbuf (s : State) (reg : BitVec 6) : (s.loadPointer reg).pbuf = s.pbuf.set 0 (regByte reg) := rfl
@[simp] theorem State.loadPointer_res (s : State) (reg : BitVec 6) : (s.loadPointer reg).res = s.res := rfl
@[simp] theorem State.loadPointer_str (s : State) (reg : BitVec 6) : (s.loadPointer reg).str = s.str := rfl
@[simp] theorem State.loadPointer_uEn (s : State) (reg : BitVec 6) : (s.loadPointer reg).uEn = s.uEn := rfl
@[simp] theorem State.loadPointer_brr (s : State) (reg : BitVec 6) : (s.loadPointer reg).brr = s.brr := rfl
@[simp] theorem State.loadPointer_uTxrdy (s : State) (reg : BitVec 6) : (s.loadPointer reg).uTxrdy = s.uTxrdy := rfl
@[simp] theorem State.loadPointer_uTc (s : State) (reg : BitVec 6) : (s.loadPointer reg).uTc = s.uTc := rfl
@[simp] theorem State.loadPointer_uStage (s : State) (reg : BitVec 6) : (s.loadPointer reg).uStage = s.uStage := rfl
@[simp] theorem State.loadPointer_dbuf (s : State) (reg : BitVec 6) : (s.loadPointer reg).dbuf = s.dbuf := rfl
@[simp] theorem State.loadPointer_tmem (s : State) (reg : BitVec 6) : (s.loadPointer reg).tmem = s.tmem := rfl
@[simp] theorem State.loadPointer_busTrace (s : State) (reg : BitVec 6) : (s.loadPointer reg).busTrace = s.busTrace := rfl
@[simp] theorem State.loadPointer_lineTrace (s : State) (reg : BitVec 6) : (s.loadPointer reg).lineTrace = s.lineTrace := rfl
@[simp] theorem State.loadPointer_host (s : State) (reg : BitVec 6) : (s.loadPointer reg).host = s.host := rfl
@[simp] theorem State.loadPointer_hostReads (s : State) (reg : BitVec 6) : (s.loadPointer reg).hostReads = s.hostReads := rfl
@[simp] theorem State.loadPointer_config (s : State) (reg : BitVec 6) : (s.loadPointer reg).config = s.config := rfl
@[simp] theorem State.loadPointer_sched (s : State) (reg : BitVec 6) : (s.loadPointer reg).sched = s.sched := rfl
@[simp] theorem State.loadPointer_tick (s : State) (reg : BitVec 6) : (s.loadPointer reg).tick = s.tick := rfl
@[simp] theorem State.loadPointer_draws (s : State) (reg : BitVec 6) : (s.loadPointer reg).draws = s.draws := rfl
@[simp] theorem State.loadPointer_drawCount (s : State) (reg : BitVec 6) : (s.loadPointer reg).drawCount = s.drawCount := rfl

/-! ### State.loadWrite -/

@[simp] theorem State.loadWrite_busy (s : State) (reg : BitVec 6) (w : BitVec 16) : (s.loadWrite reg w).busy = s.busy := rfl
@[simp] theorem State.loadWrite_cur (s : State) (reg : BitVec 6) (w : BitVec 16) : (s.loadWrite reg w).cur = s.cur := rfl
@[simp] theorem State.loadWrite_ph (s : State) (reg : BitVec 6) (w : BitVec 16) : (s.loadWrite reg w).ph = s.ph := rfl
@[simp] theorem State.loadWrite_idx (s : State) (reg : BitVec 6) (w : BitVec 16) : (s.loadWrite reg w).idx = s.idx := rfl
@[simp] theorem State.loadWrite_textPos (s : State) (reg : BitVec 6) (w : BitVec 16) : (s.loadWrite reg w).textPos = s.textPos := rfl
@[simp] theorem State.loadWrite_kIdx (s : State) (reg : BitVec 6) (w : BitVec 16) : (s.loadWrite reg w).kIdx = s.kIdx := rfl
@[simp] theorem State.loadWrite_fault (s : State) (reg : BitVec 6) (w : BitVec 16) : (s.loadWrite reg w).fault = s.fault := rfl
@[simp] theorem State.loadWrite_sadd (s : State) (reg : BitVec 6) (w : BitVec 16) : (s.loadWrite reg w).sadd = s.sadd := rfl
@[simp] theorem State.loadWrite_dir (s : State) (reg : BitVec 6) (w : BitVec 16) : (s.loadWrite reg w).dir = s.dir := rfl
@[simp] theorem State.loadWrite_nbytes (s : State) (reg : BitVec 6) (w : BitVec 16) : (s.loadWrite reg w).nbytes = s.nbytes := rfl
@[simp] theorem State.loadWrite_start (s : State) (reg : BitVec 6) (w : BitVec 16) : (s.loadWrite reg w).start = s.start := rfl
@[simp] theorem State.loadWrite_stop (s : State) (reg : BitVec 6) (w : BitVec 16) : (s.loadWrite reg w).stop = s.stop := rfl
@[simp] theorem State.loadWrite_txrdy (s : State) (reg : BitVec 6) (w : BitVec 16) : (s.loadWrite reg w).txrdy = s.txrdy := rfl
@[simp] theorem State.loadWrite_rxrdy (s : State) (reg : BitVec 6) (w : BitVec 16) : (s.loadWrite reg w).rxrdy = s.rxrdy := rfl
@[simp] theorem State.loadWrite_tc (s : State) (reg : BitVec 6) (w : BitVec 16) : (s.loadWrite reg w).tc = s.tc := rfl
@[simp] theorem State.loadWrite_txd (s : State) (reg : BitVec 6) (w : BitVec 16) : (s.loadWrite reg w).txd = s.txd := rfl
@[simp] theorem State.loadWrite_rxd (s : State) (reg : BitVec 6) (w : BitVec 16) : (s.loadWrite reg w).rxd = s.rxd := rfl
@[simp] theorem State.loadWrite_pe (s : State) (reg : BitVec 6) (w : BitVec 16) : (s.loadWrite reg w).pe = s.pe := rfl
@[simp] theorem State.loadWrite_busact (s : State) (reg : BitVec 6) (w : BitVec 16) : (s.loadWrite reg w).busact = s.busact := rfl
@[simp] theorem State.loadWrite_cnt (s : State) (reg : BitVec 6) (w : BitVec 16) : (s.loadWrite reg w).cnt = s.cnt := rfl
@[simp] theorem State.loadWrite_pbuf (s : State) (reg : BitVec 6) (w : BitVec 16) : (s.loadWrite reg w).pbuf = ((s.pbuf.set 0 (regByte reg)).set 1 (w.extractLsb' 8 8)).set 2 (w.extractLsb' 0 8) := rfl
@[simp] theorem State.loadWrite_res (s : State) (reg : BitVec 6) (w : BitVec 16) : (s.loadWrite reg w).res = s.res := rfl
@[simp] theorem State.loadWrite_str (s : State) (reg : BitVec 6) (w : BitVec 16) : (s.loadWrite reg w).str = s.str := rfl
@[simp] theorem State.loadWrite_uEn (s : State) (reg : BitVec 6) (w : BitVec 16) : (s.loadWrite reg w).uEn = s.uEn := rfl
@[simp] theorem State.loadWrite_brr (s : State) (reg : BitVec 6) (w : BitVec 16) : (s.loadWrite reg w).brr = s.brr := rfl
@[simp] theorem State.loadWrite_uTxrdy (s : State) (reg : BitVec 6) (w : BitVec 16) : (s.loadWrite reg w).uTxrdy = s.uTxrdy := rfl
@[simp] theorem State.loadWrite_uTc (s : State) (reg : BitVec 6) (w : BitVec 16) : (s.loadWrite reg w).uTc = s.uTc := rfl
@[simp] theorem State.loadWrite_uStage (s : State) (reg : BitVec 6) (w : BitVec 16) : (s.loadWrite reg w).uStage = s.uStage := rfl
@[simp] theorem State.loadWrite_dbuf (s : State) (reg : BitVec 6) (w : BitVec 16) : (s.loadWrite reg w).dbuf = s.dbuf := rfl
@[simp] theorem State.loadWrite_tmem (s : State) (reg : BitVec 6) (w : BitVec 16) : (s.loadWrite reg w).tmem = s.tmem := rfl
@[simp] theorem State.loadWrite_busTrace (s : State) (reg : BitVec 6) (w : BitVec 16) : (s.loadWrite reg w).busTrace = s.busTrace := rfl
@[simp] theorem State.loadWrite_lineTrace (s : State) (reg : BitVec 6) (w : BitVec 16) : (s.loadWrite reg w).lineTrace = s.lineTrace := rfl
@[simp] theorem State.loadWrite_host (s : State) (reg : BitVec 6) (w : BitVec 16) : (s.loadWrite reg w).host = s.host := rfl
@[simp] theorem State.loadWrite_hostReads (s : State) (reg : BitVec 6) (w : BitVec 16) : (s.loadWrite reg w).hostReads = s.hostReads := rfl
@[simp] theorem State.loadWrite_config (s : State) (reg : BitVec 6) (w : BitVec 16) : (s.loadWrite reg w).config = s.config := rfl
@[simp] theorem State.loadWrite_sched (s : State) (reg : BitVec 6) (w : BitVec 16) : (s.loadWrite reg w).sched = s.sched := rfl
@[simp] theorem State.loadWrite_tick (s : State) (reg : BitVec 6) (w : BitVec 16) : (s.loadWrite reg w).tick = s.tick := rfl
@[simp] theorem State.loadWrite_draws (s : State) (reg : BitVec 6) (w : BitVec 16) : (s.loadWrite reg w).draws = s.draws := rfl
@[simp] theorem State.loadWrite_drawCount (s : State) (reg : BitVec 6) (w : BitVec 16) : (s.loadWrite reg w).drawCount = s.drawCount := rfl

/-! ### State.finishRes -/

@[simp] theorem State.finishRes_busy (s : State) (v : Word) : (s.finishRes v).busy = false := rfl
@[simp] theorem State.finishRes_cur (s : State) (v : Word) : (s.finishRes v).cur = s.cur := rfl
@[simp] theorem State.finishRes_ph (s : State) (v : Word) : (s.finishRes v).ph = s.ph := rfl
@[simp] theorem State.finishRes_idx (s : State) (v : Word) : (s.finishRes v).idx = s.idx := rfl
@[simp] theorem State.finishRes_textPos (s : State) (v : Word) : (s.finishRes v).textPos = s.textPos := rfl
@[simp] theorem State.finishRes_kIdx (s : State) (v : Word) : (s.finishRes v).kIdx = s.kIdx := rfl
@[simp] theorem State.finishRes_fault (s : State) (v : Word) : (s.finishRes v).fault = s.fault := rfl
@[simp] theorem State.finishRes_sadd (s : State) (v : Word) : (s.finishRes v).sadd = s.sadd := rfl
@[simp] theorem State.finishRes_dir (s : State) (v : Word) : (s.finishRes v).dir = s.dir := rfl
@[simp] theorem State.finishRes_nbytes (s : State) (v : Word) : (s.finishRes v).nbytes = s.nbytes := rfl
@[simp] theorem State.finishRes_start (s : State) (v : Word) : (s.finishRes v).start = s.start := rfl
@[simp] theorem State.finishRes_stop (s : State) (v : Word) : (s.finishRes v).stop = s.stop := rfl
@[simp] theorem State.finishRes_txrdy (s : State) (v : Word) : (s.finishRes v).txrdy = s.txrdy := rfl
@[simp] theorem State.finishRes_rxrdy (s : State) (v : Word) : (s.finishRes v).rxrdy = s.rxrdy := rfl
@[simp] theorem State.finishRes_tc (s : State) (v : Word) : (s.finishRes v).tc = s.tc := rfl
@[simp] theorem State.finishRes_txd (s : State) (v : Word) : (s.finishRes v).txd = s.txd := rfl
@[simp] theorem State.finishRes_rxd (s : State) (v : Word) : (s.finishRes v).rxd = s.rxd := rfl
@[simp] theorem State.finishRes_pe (s : State) (v : Word) : (s.finishRes v).pe = s.pe := rfl
@[simp] theorem State.finishRes_busact (s : State) (v : Word) : (s.finishRes v).busact = s.busact := rfl
@[simp] theorem State.finishRes_cnt (s : State) (v : Word) : (s.finishRes v).cnt = s.cnt := rfl
@[simp] theorem State.finishRes_pbuf (s : State) (v : Word) : (s.finishRes v).pbuf = s.pbuf := rfl
@[simp] theorem State.finishRes_res (s : State) (v : Word) : (s.finishRes v).res = some v := rfl
@[simp] theorem State.finishRes_str (s : State) (v : Word) : (s.finishRes v).str = s.str := rfl
@[simp] theorem State.finishRes_uEn (s : State) (v : Word) : (s.finishRes v).uEn = s.uEn := rfl
@[simp] theorem State.finishRes_brr (s : State) (v : Word) : (s.finishRes v).brr = s.brr := rfl
@[simp] theorem State.finishRes_uTxrdy (s : State) (v : Word) : (s.finishRes v).uTxrdy = s.uTxrdy := rfl
@[simp] theorem State.finishRes_uTc (s : State) (v : Word) : (s.finishRes v).uTc = s.uTc := rfl
@[simp] theorem State.finishRes_uStage (s : State) (v : Word) : (s.finishRes v).uStage = s.uStage := rfl
@[simp] theorem State.finishRes_dbuf (s : State) (v : Word) : (s.finishRes v).dbuf = s.dbuf := rfl
@[simp] theorem State.finishRes_tmem (s : State) (v : Word) : (s.finishRes v).tmem = s.tmem := rfl
@[simp] theorem State.finishRes_busTrace (s : State) (v : Word) : (s.finishRes v).busTrace = s.busTrace := rfl
@[simp] theorem State.finishRes_lineTrace (s : State) (v : Word) : (s.finishRes v).lineTrace = s.lineTrace := rfl
@[simp] theorem State.finishRes_host (s : State) (v : Word) : (s.finishRes v).host = s.host := rfl
@[simp] theorem State.finishRes_hostReads (s : State) (v : Word) : (s.finishRes v).hostReads = s.hostReads := rfl
@[simp] theorem State.finishRes_config (s : State) (v : Word) : (s.finishRes v).config = s.config := rfl
@[simp] theorem State.finishRes_sched (s : State) (v : Word) : (s.finishRes v).sched = s.sched := rfl
@[simp] theorem State.finishRes_tick (s : State) (v : Word) : (s.finishRes v).tick = s.tick := rfl
@[simp] theorem State.finishRes_draws (s : State) (v : Word) : (s.finishRes v).draws = s.draws := rfl
@[simp] theorem State.finishRes_drawCount (s : State) (v : Word) : (s.finishRes v).drawCount = s.drawCount := rfl

/-! ### State.hostGot -/

@[simp] theorem State.hostGot_busy (s : State) (v : Word) (ops : List HostOp) : (s.hostGot v ops).busy = s.busy := rfl
@[simp] theorem State.hostGot_cur (s : State) (v : Word) (ops : List HostOp) : (s.hostGot v ops).cur = s.cur := rfl
@[simp] theorem State.hostGot_ph (s : State) (v : Word) (ops : List HostOp) : (s.hostGot v ops).ph = s.ph := rfl
@[simp] theorem State.hostGot_idx (s : State) (v : Word) (ops : List HostOp) : (s.hostGot v ops).idx = s.idx := rfl
@[simp] theorem State.hostGot_textPos (s : State) (v : Word) (ops : List HostOp) : (s.hostGot v ops).textPos = s.textPos := rfl
@[simp] theorem State.hostGot_kIdx (s : State) (v : Word) (ops : List HostOp) : (s.hostGot v ops).kIdx = s.kIdx := rfl
@[simp] theorem State.hostGot_fault (s : State) (v : Word) (ops : List HostOp) : (s.hostGot v ops).fault = s.fault := rfl
@[simp] theorem State.hostGot_sadd (s : State) (v : Word) (ops : List HostOp) : (s.hostGot v ops).sadd = s.sadd := rfl
@[simp] theorem State.hostGot_dir (s : State) (v : Word) (ops : List HostOp) : (s.hostGot v ops).dir = s.dir := rfl
@[simp] theorem State.hostGot_nbytes (s : State) (v : Word) (ops : List HostOp) : (s.hostGot v ops).nbytes = s.nbytes := rfl
@[simp] theorem State.hostGot_start (s : State) (v : Word) (ops : List HostOp) : (s.hostGot v ops).start = s.start := rfl
@[simp] theorem State.hostGot_stop (s : State) (v : Word) (ops : List HostOp) : (s.hostGot v ops).stop = s.stop := rfl
@[simp] theorem State.hostGot_txrdy (s : State) (v : Word) (ops : List HostOp) : (s.hostGot v ops).txrdy = s.txrdy := rfl
@[simp] theorem State.hostGot_rxrdy (s : State) (v : Word) (ops : List HostOp) : (s.hostGot v ops).rxrdy = s.rxrdy := rfl
@[simp] theorem State.hostGot_tc (s : State) (v : Word) (ops : List HostOp) : (s.hostGot v ops).tc = s.tc := rfl
@[simp] theorem State.hostGot_txd (s : State) (v : Word) (ops : List HostOp) : (s.hostGot v ops).txd = s.txd := rfl
@[simp] theorem State.hostGot_rxd (s : State) (v : Word) (ops : List HostOp) : (s.hostGot v ops).rxd = s.rxd := rfl
@[simp] theorem State.hostGot_pe (s : State) (v : Word) (ops : List HostOp) : (s.hostGot v ops).pe = s.pe := rfl
@[simp] theorem State.hostGot_busact (s : State) (v : Word) (ops : List HostOp) : (s.hostGot v ops).busact = s.busact := rfl
@[simp] theorem State.hostGot_cnt (s : State) (v : Word) (ops : List HostOp) : (s.hostGot v ops).cnt = s.cnt := rfl
@[simp] theorem State.hostGot_pbuf (s : State) (v : Word) (ops : List HostOp) : (s.hostGot v ops).pbuf = s.pbuf := rfl
@[simp] theorem State.hostGot_res (s : State) (v : Word) (ops : List HostOp) : (s.hostGot v ops).res = s.res := rfl
@[simp] theorem State.hostGot_str (s : State) (v : Word) (ops : List HostOp) : (s.hostGot v ops).str = s.str := rfl
@[simp] theorem State.hostGot_uEn (s : State) (v : Word) (ops : List HostOp) : (s.hostGot v ops).uEn = s.uEn := rfl
@[simp] theorem State.hostGot_brr (s : State) (v : Word) (ops : List HostOp) : (s.hostGot v ops).brr = s.brr := rfl
@[simp] theorem State.hostGot_uTxrdy (s : State) (v : Word) (ops : List HostOp) : (s.hostGot v ops).uTxrdy = s.uTxrdy := rfl
@[simp] theorem State.hostGot_uTc (s : State) (v : Word) (ops : List HostOp) : (s.hostGot v ops).uTc = s.uTc := rfl
@[simp] theorem State.hostGot_uStage (s : State) (v : Word) (ops : List HostOp) : (s.hostGot v ops).uStage = s.uStage := rfl
@[simp] theorem State.hostGot_dbuf (s : State) (v : Word) (ops : List HostOp) : (s.hostGot v ops).dbuf = s.dbuf := rfl
@[simp] theorem State.hostGot_tmem (s : State) (v : Word) (ops : List HostOp) : (s.hostGot v ops).tmem = s.tmem := rfl
@[simp] theorem State.hostGot_busTrace (s : State) (v : Word) (ops : List HostOp) : (s.hostGot v ops).busTrace = s.busTrace := rfl
@[simp] theorem State.hostGot_lineTrace (s : State) (v : Word) (ops : List HostOp) : (s.hostGot v ops).lineTrace = s.lineTrace := rfl
@[simp] theorem State.hostGot_host (s : State) (v : Word) (ops : List HostOp) : (s.hostGot v ops).host = ops := rfl
@[simp] theorem State.hostGot_hostReads (s : State) (v : Word) (ops : List HostOp) : (s.hostGot v ops).hostReads = s.hostReads ++ [v] := rfl
@[simp] theorem State.hostGot_config (s : State) (v : Word) (ops : List HostOp) : (s.hostGot v ops).config = s.config := rfl
@[simp] theorem State.hostGot_sched (s : State) (v : Word) (ops : List HostOp) : (s.hostGot v ops).sched = s.sched := rfl
@[simp] theorem State.hostGot_tick (s : State) (v : Word) (ops : List HostOp) : (s.hostGot v ops).tick = s.tick := rfl
@[simp] theorem State.hostGot_draws (s : State) (v : Word) (ops : List HostOp) : (s.hostGot v ops).draws = s.draws := rfl
@[simp] theorem State.hostGot_drawCount (s : State) (v : Word) (ops : List HostOp) : (s.hostGot v ops).drawCount = s.drawCount := rfl

/-! ### State.emitBus -/

@[simp] theorem State.emitBus_busy (s : State) (es : List BusEvent) : (s.emitBus es).busy = s.busy := rfl
@[simp] theorem State.emitBus_cur (s : State) (es : List BusEvent) : (s.emitBus es).cur = s.cur := rfl
@[simp] theorem State.emitBus_ph (s : State) (es : List BusEvent) : (s.emitBus es).ph = s.ph := rfl
@[simp] theorem State.emitBus_idx (s : State) (es : List BusEvent) : (s.emitBus es).idx = s.idx := rfl
@[simp] theorem State.emitBus_textPos (s : State) (es : List BusEvent) : (s.emitBus es).textPos = s.textPos := rfl
@[simp] theorem State.emitBus_kIdx (s : State) (es : List BusEvent) : (s.emitBus es).kIdx = s.kIdx := rfl
@[simp] theorem State.emitBus_fault (s : State) (es : List BusEvent) : (s.emitBus es).fault = s.fault := rfl
@[simp] theorem State.emitBus_sadd (s : State) (es : List BusEvent) : (s.emitBus es).sadd = s.sadd := rfl
@[simp] theorem State.emitBus_dir (s : State) (es : List BusEvent) : (s.emitBus es).dir = s.dir := rfl
@[simp] theorem State.emitBus_nbytes (s : State) (es : List BusEvent) : (s.emitBus es).nbytes = s.nbytes := rfl
@[simp] theorem State.emitBus_start (s : State) (es : List BusEvent) : (s.emitBus es).start = s.start := rfl
@[simp] theorem State.emitBus_stop (s : State) (es : List BusEvent) : (s.emitBus es).stop = s.stop := rfl
@[simp] theorem State.emitBus_txrdy (s : State) (es : List BusEvent) : (s.emitBus es).txrdy = s.txrdy := rfl
@[simp] theorem State.emitBus_rxrdy (s : State) (es : List BusEvent) : (s.emitBus es).rxrdy = s.rxrdy := rfl
@[simp] theorem State.emitBus_tc (s : State) (es : List BusEvent) : (s.emitBus es).tc = s.tc := rfl
@[simp] theorem State.emitBus_txd (s : State) (es : List BusEvent) : (s.emitBus es).txd = s.txd := rfl
@[simp] theorem State.emitBus_rxd (s : State) (es : List BusEvent) : (s.emitBus es).rxd = s.rxd := rfl
@[simp] theorem State.emitBus_pe (s : State) (es : List BusEvent) : (s.emitBus es).pe = s.pe := rfl
@[simp] theorem State.emitBus_busact (s : State) (es : List BusEvent) : (s.emitBus es).busact = s.busact := rfl
@[simp] theorem State.emitBus_cnt (s : State) (es : List BusEvent) : (s.emitBus es).cnt = s.cnt := rfl
@[simp] theorem State.emitBus_pbuf (s : State) (es : List BusEvent) : (s.emitBus es).pbuf = s.pbuf := rfl
@[simp] theorem State.emitBus_res (s : State) (es : List BusEvent) : (s.emitBus es).res = s.res := rfl
@[simp] theorem State.emitBus_str (s : State) (es : List BusEvent) : (s.emitBus es).str = s.str := rfl
@[simp] theorem State.emitBus_uEn (s : State) (es : List BusEvent) : (s.emitBus es).uEn = s.uEn := rfl
@[simp] theorem State.emitBus_brr (s : State) (es : List BusEvent) : (s.emitBus es).brr = s.brr := rfl
@[simp] theorem State.emitBus_uTxrdy (s : State) (es : List BusEvent) : (s.emitBus es).uTxrdy = s.uTxrdy := rfl
@[simp] theorem State.emitBus_uTc (s : State) (es : List BusEvent) : (s.emitBus es).uTc = s.uTc := rfl
@[simp] theorem State.emitBus_uStage (s : State) (es : List BusEvent) : (s.emitBus es).uStage = s.uStage := rfl
@[simp] theorem State.emitBus_dbuf (s : State) (es : List BusEvent) : (s.emitBus es).dbuf = s.dbuf := rfl
@[simp] theorem State.emitBus_tmem (s : State) (es : List BusEvent) : (s.emitBus es).tmem = s.tmem := rfl
@[simp] theorem State.emitBus_busTrace (s : State) (es : List BusEvent) : (s.emitBus es).busTrace = s.busTrace ++ es := rfl
@[simp] theorem State.emitBus_lineTrace (s : State) (es : List BusEvent) : (s.emitBus es).lineTrace = s.lineTrace := rfl
@[simp] theorem State.emitBus_host (s : State) (es : List BusEvent) : (s.emitBus es).host = s.host := rfl
@[simp] theorem State.emitBus_hostReads (s : State) (es : List BusEvent) : (s.emitBus es).hostReads = s.hostReads := rfl
@[simp] theorem State.emitBus_config (s : State) (es : List BusEvent) : (s.emitBus es).config = s.config := rfl
@[simp] theorem State.emitBus_sched (s : State) (es : List BusEvent) : (s.emitBus es).sched = s.sched := rfl
@[simp] theorem State.emitBus_tick (s : State) (es : List BusEvent) : (s.emitBus es).tick = s.tick := rfl
@[simp] theorem State.emitBus_draws (s : State) (es : List BusEvent) : (s.emitBus es).draws = s.draws := rfl
@[simp] theorem State.emitBus_drawCount (s : State) (es : List BusEvent) : (s.emitBus es).drawCount = s.drawCount := rfl

/-! ### State.scheduled -/

@[simp] theorem State.scheduled_busy (s : State) : s.scheduled.busy = s.busy := by unfold State.scheduled; split <;> rfl
@[simp] theorem State.scheduled_cur (s : State) : s.scheduled.cur = s.cur := by unfold State.scheduled; split <;> rfl
@[simp] theorem State.scheduled_ph (s : State) : s.scheduled.ph = s.ph := by unfold State.scheduled; split <;> rfl
@[simp] theorem State.scheduled_idx (s : State) : s.scheduled.idx = s.idx := by unfold State.scheduled; split <;> rfl
@[simp] theorem State.scheduled_textPos (s : State) : s.scheduled.textPos = s.textPos := by unfold State.scheduled; split <;> rfl
@[simp] theorem State.scheduled_kIdx (s : State) : s.scheduled.kIdx = s.kIdx := by unfold State.scheduled; split <;> rfl
@[simp] theorem State.scheduled_fault (s : State) : s.scheduled.fault = s.fault := by unfold State.scheduled; split <;> rfl
@[simp] theorem State.scheduled_sadd (s : State) : s.scheduled.sadd = s.sadd := by unfold State.scheduled; split <;> rfl
@[simp] theorem State.scheduled_dir (s : State) : s.scheduled.dir = s.dir := by unfold State.scheduled; split <;> rfl
@[simp] theorem State.scheduled_nbytes (s : State) : s.scheduled.nbytes = s.nbytes := by unfold State.scheduled; split <;> rfl
@[simp] theorem State.scheduled_start (s : State) : s.scheduled.start = s.start := by unfold State.scheduled; split <;> rfl
@[simp] theorem State.scheduled_stop (s : State) : s.scheduled.stop = s.stop := by unfold State.scheduled; split <;> rfl
@[simp] theorem State.scheduled_txrdy (s : State) : s.scheduled.txrdy = s.txrdy := by unfold State.scheduled; split <;> rfl
@[simp] theorem State.scheduled_rxrdy (s : State) : s.scheduled.rxrdy = s.rxrdy := by unfold State.scheduled; split <;> rfl
@[simp] theorem State.scheduled_tc (s : State) : s.scheduled.tc = s.tc := by unfold State.scheduled; split <;> rfl
@[simp] theorem State.scheduled_txd (s : State) : s.scheduled.txd = s.txd := by unfold State.scheduled; split <;> rfl
@[simp] theorem State.scheduled_rxd (s : State) : s.scheduled.rxd = s.rxd := by unfold State.scheduled; split <;> rfl
@[simp] theorem State.scheduled_pe (s : State) : s.scheduled.pe = s.pe := by unfold State.scheduled; split <;> rfl
@[simp] theorem State.scheduled_busact (s : State) : s.scheduled.busact = s.busact := by unfold State.scheduled; split <;> rfl
@[simp] theorem State.scheduled_cnt (s : State) : s.scheduled.cnt = s.cnt := by unfold State.scheduled; split <;> rfl
@[simp] theorem State.scheduled_pbuf (s : State) : s.scheduled.pbuf = s.pbuf := by unfold State.scheduled; split <;> rfl
@[simp] theorem State.scheduled_res (s : State) : s.scheduled.res = s.res := by unfold State.scheduled; split <;> rfl
@[simp] theorem State.scheduled_str (s : State) : s.scheduled.str = s.str := by unfold State.scheduled; split <;> rfl
@[simp] theorem State.scheduled_uEn (s : State) : s.scheduled.uEn = s.uEn := by unfold State.scheduled; split <;> rfl
@[simp] theorem State.scheduled_brr (s : State) : s.scheduled.brr = s.brr := by unfold State.scheduled; split <;> rfl
@[simp] theorem State.scheduled_uTxrdy (s : State) : s.scheduled.uTxrdy = s.uTxrdy := by unfold State.scheduled; split <;> rfl
@[simp] theorem State.scheduled_uTc (s : State) : s.scheduled.uTc = s.uTc := by unfold State.scheduled; split <;> rfl
@[simp] theorem State.scheduled_uStage (s : State) : s.scheduled.uStage = s.uStage := by unfold State.scheduled; split <;> rfl
@[simp] theorem State.scheduled_dbuf (s : State) : s.scheduled.dbuf = s.dbuf := by unfold State.scheduled; split <;> rfl
@[simp] theorem State.scheduled_tmem (s : State) : s.scheduled.tmem = s.tmem := by unfold State.scheduled; split <;> rfl
@[simp] theorem State.scheduled_busTrace (s : State) : s.scheduled.busTrace = s.busTrace := by unfold State.scheduled; split <;> rfl
@[simp] theorem State.scheduled_lineTrace (s : State) : s.scheduled.lineTrace = s.lineTrace := by unfold State.scheduled; split <;> rfl
@[simp] theorem State.scheduled_host (s : State) : s.scheduled.host = s.host := by unfold State.scheduled; split <;> rfl
@[simp] theorem State.scheduled_hostReads (s : State) : s.scheduled.hostReads = s.hostReads := by unfold State.scheduled; split <;> rfl
@[simp] theorem State.scheduled_config (s : State) : s.scheduled.config = s.config := by unfold State.scheduled; split <;> rfl
@[simp] theorem State.scheduled_draws (s : State) : s.scheduled.draws = s.draws := by unfold State.scheduled; split <;> rfl
@[simp] theorem State.scheduled_drawCount (s : State) : s.scheduled.drawCount = s.drawCount := by unfold State.scheduled; split <;> rfl

/-! ### State.drawn -/

@[simp] theorem State.drawn_busy (s : State) : s.drawn.busy = s.busy := by unfold State.drawn; split <;> rfl
@[simp] theorem State.drawn_cur (s : State) : s.drawn.cur = s.cur := by unfold State.drawn; split <;> rfl
@[simp] theorem State.drawn_ph (s : State) : s.drawn.ph = s.ph := by unfold State.drawn; split <;> rfl
@[simp] theorem State.drawn_idx (s : State) : s.drawn.idx = s.idx := by unfold State.drawn; split <;> rfl
@[simp] theorem State.drawn_textPos (s : State) : s.drawn.textPos = s.textPos := by unfold State.drawn; split <;> rfl
@[simp] theorem State.drawn_kIdx (s : State) : s.drawn.kIdx = s.kIdx := by unfold State.drawn; split <;> rfl
@[simp] theorem State.drawn_fault (s : State) : s.drawn.fault = s.fault := by unfold State.drawn; split <;> rfl
@[simp] theorem State.drawn_sadd (s : State) : s.drawn.sadd = s.sadd := by unfold State.drawn; split <;> rfl
@[simp] theorem State.drawn_dir (s : State) : s.drawn.dir = s.dir := by unfold State.drawn; split <;> rfl
@[simp] theorem State.drawn_nbytes (s : State) : s.drawn.nbytes = s.nbytes := by unfold State.drawn; split <;> rfl
@[simp] theorem State.drawn_start (s : State) : s.drawn.start = s.start := by unfold State.drawn; split <;> rfl
@[simp] theorem State.drawn_stop (s : State) : s.drawn.stop = s.stop := by unfold State.drawn; split <;> rfl
@[simp] theorem State.drawn_txrdy (s : State) : s.drawn.txrdy = s.txrdy := by unfold State.drawn; split <;> rfl
@[simp] theorem State.drawn_rxrdy (s : State) : s.drawn.rxrdy = s.rxrdy := by unfold State.drawn; split <;> rfl
@[simp] theorem State.drawn_tc (s : State) : s.drawn.tc = s.tc := by unfold State.drawn; split <;> rfl
@[simp] theorem State.drawn_txd (s : State) : s.drawn.txd = s.txd := by unfold State.drawn; split <;> rfl
@[simp] theorem State.drawn_rxd (s : State) : s.drawn.rxd = s.rxd := by unfold State.drawn; split <;> rfl
@[simp] theorem State.drawn_pe (s : State) : s.drawn.pe = s.pe := by unfold State.drawn; split <;> rfl
@[simp] theorem State.drawn_busact (s : State) : s.drawn.busact = s.busact := by unfold State.drawn; split <;> rfl
@[simp] theorem State.drawn_cnt (s : State) : s.drawn.cnt = s.cnt := by unfold State.drawn; split <;> rfl
@[simp] theorem State.drawn_pbuf (s : State) : s.drawn.pbuf = s.pbuf := by unfold State.drawn; split <;> rfl
@[simp] theorem State.drawn_res (s : State) : s.drawn.res = s.res := by unfold State.drawn; split <;> rfl
@[simp] theorem State.drawn_str (s : State) : s.drawn.str = s.str := by unfold State.drawn; split <;> rfl
@[simp] theorem State.drawn_uEn (s : State) : s.drawn.uEn = s.uEn := by unfold State.drawn; split <;> rfl
@[simp] theorem State.drawn_brr (s : State) : s.drawn.brr = s.brr := by unfold State.drawn; split <;> rfl
@[simp] theorem State.drawn_uTxrdy (s : State) : s.drawn.uTxrdy = s.uTxrdy := by unfold State.drawn; split <;> rfl
@[simp] theorem State.drawn_uTc (s : State) : s.drawn.uTc = s.uTc := by unfold State.drawn; split <;> rfl
@[simp] theorem State.drawn_uStage (s : State) : s.drawn.uStage = s.uStage := by unfold State.drawn; split <;> rfl
@[simp] theorem State.drawn_dbuf (s : State) : s.drawn.dbuf = s.dbuf := by unfold State.drawn; split <;> rfl
@[simp] theorem State.drawn_tmem (s : State) : s.drawn.tmem = s.tmem := by unfold State.drawn; split <;> rfl
@[simp] theorem State.drawn_busTrace (s : State) : s.drawn.busTrace = s.busTrace := by unfold State.drawn; split <;> rfl
@[simp] theorem State.drawn_lineTrace (s : State) : s.drawn.lineTrace = s.lineTrace := by unfold State.drawn; split <;> rfl
@[simp] theorem State.drawn_host (s : State) : s.drawn.host = s.host := by unfold State.drawn; split <;> rfl
@[simp] theorem State.drawn_hostReads (s : State) : s.drawn.hostReads = s.hostReads := by unfold State.drawn; split <;> rfl
@[simp] theorem State.drawn_config (s : State) : s.drawn.config = s.config := by unfold State.drawn; split <;> rfl
@[simp] theorem State.drawn_sched (s : State) : s.drawn.sched = s.sched := by unfold State.drawn; split <;> rfl
@[simp] theorem State.drawn_tick (s : State) : s.drawn.tick = s.tick := by unfold State.drawn; split <;> rfl

end Sys2Proof.Machine
end

