-- ==== Sys2Proof/Laws/Ops.lean ====
section
/-!
SUPPORT. What each shared operation can do, said once: the checks of PBUF, the transaction phases, the codec and console
operations, the agents' steps, and `SeqMove`, everything one SEQ step of a command can do.
-/

namespace Sys2Proof.Machine

/-! ### PBUF -/

/-- A byte set is read back, and no other byte changes. -/
theorem Pbuf.get_set {p : Pbuf} {k j : Nat} {b : Byte} (hk : k < 3) :
    (p.set k b).get j = if j = k then some b else p.get j := by
  have h : k = 0 ∨ k = 1 ∨ k = 2 := by omega
  rcases h with rfl | rfl | rfl <;> rcases j with _ | _ | _ | j <;> simp [Pbuf.set, Pbuf.get]

/-- The check of W0 passes exactly where the bytes to send are valid. -/
theorem Pbuf.firstInvalid_none {p : Pbuf} {n : Nat} :
    p.firstInvalid n = none ↔ ∀ k, k < n → (p.get k).isSome = true := by
  simp [Pbuf.firstInvalid, List.find?_eq_none, Option.isSome_iff_ne_none]

/-- The check of W0 fails at the first invalid byte. -/
theorem Pbuf.firstInvalid_some {p : Pbuf} {n k : Nat} (hk : k < n) (hi : p.get k = none)
    (hv : ∀ j, j < k → (p.get j).isSome = true) : p.firstInvalid n = some k := by
  rw [Pbuf.firstInvalid, List.find?_range_eq_some]
  refine ⟨by simp [hi], by simpa using hk, fun j hj => ?_⟩
  have h := hv j hj
  simpa [Option.isSome_iff_ne_none] using h

/-! ### The transaction phases -/

/-- W0: a fault, or the set-up. -/
theorem seqW0_cases (load : State → State) (sadd : BitVec 7) (n : Nat) (s : State) :
    s.pe = false ∧ seqW0 load sadd n s = s.raise .busNotEnabled s.cur
      ∨ s.pe = true ∧ (∃ k, (load s).pbuf.firstInvalid n = some k
          ∧ seqW0 load sadd n s = s.raise (.uninitRead (.pbuf k)) s.cur)
      ∨ s.pe = true ∧ (load s).pbuf.firstInvalid n = none
          ∧ seqW0 load sadd n s = { (load s).xferSetup sadd .write n with ph := .w1 } := by
  unfold seqW0
  cases s.pe
  · exact .inl ⟨rfl, rfl⟩
  · cases (load s).pbuf.firstInvalid n
    · exact .inr (.inr ⟨rfl, rfl, rfl⟩)
    · exact .inr (.inl ⟨rfl, _, rfl, rfl⟩)

/-- W1 with a byte left and the data register free: the byte goes out. -/
theorem seqW1_ready {n : Nat} {s : State} {b : Byte} (hn : s.idx < n) (hr : s.txrdy = true)
    (hb : s.pbuf.get s.idx = some b) :
    seqW1 n s
      = { s with txd := some b, txrdy := false, idx := s.idx + 1, ph := if s.idx + 1 < n then .w1 else .w2 } := by
  simp [seqW1, hn, hr, hb]

/-- W1 with a byte left holds while I2C_TXRDY = 0. -/
theorem seqW1_holds {n : Nat} {s : State} (hn : s.idx < n) (hr : s.txrdy = false) : seqW1 n s = s := by
  simp [seqW1, hn, hr]

/-- RD0: a fault, or the set-up. -/
theorem seqRD0_cases (sadd : BitVec 7) (n : Nat) (s : State) :
    s.pe = false ∧ seqRD0 sadd n s = s.raise .busNotEnabled s.cur
      ∨ s.pe = true ∧ seqRD0 sadd n s = { s.xferSetup sadd .read n with ph := .rd1 } := by
  unfold seqRD0
  cases s.pe
  · exact .inl ⟨rfl, rfl⟩
  · exact .inr ⟨rfl, rfl⟩

/-- RD1 with a byte received: it goes into PBUF. -/
theorem seqRD1_ready {n : Nat} {s : State} (hn : s.idx < n) (hr : s.rxrdy = true) :
    seqRD1 n s
      = { s with pbuf := s.pbuf.set s.idx s.rxd, rxrdy := false, idx := s.idx + 1,
                 ph := if s.idx + 1 < n then .rd1 else .rd2 } := by
  simp [seqRD1, hn, hr]

/-- RD1 with a byte left holds while I2C_RXRDY = 0. -/
theorem seqRD1_holds {n : Nat} {s : State} (hn : s.idx < n) (hr : s.rxrdy = false) : seqRD1 n s = s := by
  simp [seqRD1, hn, hr]

/-- W2 and RD2: the stop is requested, or the phase holds. -/
theorem seqStop_cases (next : Phase) (s : State) :
    s.tc = true ∧ seqStop next s = { s with stop := true, ph := next } ∨ s.tc = false ∧ seqStop next s = s := by
  unfold seqStop
  cases s.tc
  · exact .inr ⟨rfl, rfl⟩
  · exact .inl ⟨rfl, rfl⟩

/-- W3 and RD3: the command goes on, or the phase holds. -/
theorem seqStopped_cases (fin : State → State) (s : State) :
    s.stop = false ∧ seqStopped fin s = fin s ∨ s.stop = true ∧ seqStopped fin s = s := by
  unfold seqStopped
  cases s.stop
  · exact .inl ⟨rfl, rfl⟩
  · exact .inr ⟨rfl, rfl⟩

/-! ### The codec -/

/-- A descriptor's register has 2 or 3 bytes. -/
theorem descBytes_range (d : Descriptor) : 2 ≤ descBytes d ∧ descBytes d ≤ 3 := by
  unfold descBytes; cases d.width <;> simp

/-- A valid PBUF byte is the payload. -/
theorem State.payload_ok {s : State} {k : Nat} {b : Byte} (h : s.pbuf.get k = some b) : s.payload k = .ok b := by
  simp [State.payload, h]

/-- An invalid PBUF byte is UninitRead. -/
theorem State.payload_error {s : State} {k : Nat} (h : s.pbuf.get k = none) :
    s.payload k = .error (.uninitRead (.pbuf k)) := by
  simp [State.payload, h]

/-- The decode raises UninitRead at the first invalid byte of the width. -/
theorem State.decodePayload_error {s : State} {d : Descriptor} {k : Nat} (hk : k < descBytes d)
    (hi : s.pbuf.get k = none) (hv : ∀ j, j < k → (s.pbuf.get j).isSome = true) :
    s.decodePayload d = .error (.uninitRead (.pbuf k)) := by
  have h3 := (descBytes_range d).2
  have hc : k = 0 ∨ k = 1 ∨ k = 2 := by omega
  rcases hc with rfl | rfl | rfl
  · simp [State.decodePayload, State.payload_error hi]
  · obtain ⟨b0, h0⟩ := Option.isSome_iff_exists.1 (hv 0 (by omega))
    simp [State.decodePayload, State.payload_ok h0, State.payload_error hi]
  · obtain ⟨b0, h0⟩ := Option.isSome_iff_exists.1 (hv 0 (by omega))
    obtain ⟨b1, h1⟩ := Option.isSome_iff_exists.1 (hv 1 (by omega))
    have hw : d.width = .w24 := by
      cases hd : d.width
      · simp [descBytes, hd] at hk
      · rfl
    simp [State.decodePayload, State.payload_ok h0, State.payload_ok h1, State.payload_error hi, hw]

/-- The decode of a 16-bit register. -/
theorem State.decodePayload_w16 {s : State} {d : Descriptor} {b0 b1 : Byte} (hw : d.width = .w16)
    (h0 : s.pbuf.get 0 = some b0) (h1 : s.pbuf.get 1 = some b1) : s.decodePayload d = .ok (dec16 b0 b1) := by
  simp [State.decodePayload, State.payload_ok h0, State.payload_ok h1, hw]

/-- The decode of a 24-bit register. -/
theorem State.decodePayload_w24 {s : State} {d : Descriptor} {b0 b1 b2 : Byte} (hw : d.width = .w24)
    (h0 : s.pbuf.get 0 = some b0) (h1 : s.pbuf.get 1 = some b1) (h2 : s.pbuf.get 2 = some b2) :
    s.decodePayload d = .ok (dec24 b0 b1 b2 d.signed) := by
  simp [State.decodePayload, State.payload_ok h0, State.payload_ok h1, State.payload_ok h2, hw]

/-- The decode raises nothing but UninitRead of a PBUF byte within the register's width. -/
theorem State.decodePayload_fault {s : State} {d : Descriptor} {f : FaultCode} (h : s.decodePayload d = .error f) :
    ∃ k, k < descBytes d ∧ f = .uninitRead (.pbuf k) := by
  have hr := (descBytes_range d).1
  by_cases hv : s.pbuf.firstInvalid (descBytes d) = none
  · rw [Pbuf.firstInvalid_none] at hv
    obtain ⟨b0, h0⟩ := Option.isSome_iff_exists.1 (hv 0 (by omega))
    obtain ⟨b1, h1⟩ := Option.isSome_iff_exists.1 (hv 1 (by omega))
    cases hw : d.width
    · rw [State.decodePayload_w16 hw h0 h1] at h; cases h
    · obtain ⟨b2, h2⟩ := Option.isSome_iff_exists.1 (hv 2 (by simp [descBytes, hw]))
      rw [State.decodePayload_w24 hw h0 h1 h2] at h; cases h
  · obtain ⟨k, hk⟩ := Option.ne_none_iff_exists'.1 hv
    rw [Pbuf.firstInvalid, List.find?_range_eq_some] at hk
    obtain ⟨hi, hlt, hb⟩ := hk
    have he := State.decodePayload_error (s := s) (d := d) (k := k) (by simpa using hlt) (by simpa using hi)
      (fun j hj => by simpa [Option.isSome_iff_ne_none] using hb j hj)
    rw [he] at h
    cases h
    exact ⟨k, by simpa using hlt, rfl⟩

/-! ### The formatter -/

/-- The subtractive loop of R184 is division with remainder, where the digit is at most 9. -/
theorem subtractPlace_eq (f n p : Nat) (d : Byte) (hp : 0 < p) (h : n < (f + 1) * p) :
    subtractPlace f n p d = (n % p, d + BitVec.ofNat 8 (n / p)) := by
  induction f generalizing n d with
  | zero =>
    have hn : n < p := by omega
    simp [subtractPlace, Nat.mod_eq_of_lt hn, Nat.div_eq_of_lt hn]
  | succ f ih =>
    unfold subtractPlace
    split
    · rename_i hle
      rw [ih (n - p) (d + 1#8) (by rw [Nat.succ_mul] at h; omega)]
      have h1 : (n - p) % p = n % p := (Nat.mod_eq_sub_mod hle).symm
      have h2 : n / p = (n - p) / p + 1 := by
        rw [Nat.div_eq_sub_div hp hle]
      rw [h1, h2, BitVec.ofNat_add, BitVec.add_assoc, BitVec.add_comm (1#8)]
    · rename_i hlt
      have hn : n < p := by omega
      simp [Nat.mod_eq_of_lt hn, Nat.div_eq_of_lt hn]

/-! ### The bus trace -/

/-- A trace is scanned piece by piece. -/
theorem busScan_append (p : BusPos) (es fs : List BusEvent) :
    busScan p (es ++ fs) = (busScan p es).bind fun q => busScan q fs := by
  induction es generalizing p with
  | nil => rfl
  | cons e es ih =>
    simp only [List.cons_append, busScan]
    cases busNext p e
    · rfl
    · exact ih _

/-! ### The commands -/

/-- A numeric read is `sensor_read` of its register (R151, R155 to R161). -/
theorem exec_measures {s : State} {i : Instr} {reg : BitVec 6} {sc : Bool}
    (h : measures s.config i = some (reg, sc)) : exec i s = .next (sensorRead reg sc s) := by
  cases i <;> simp [measures] at h <;> obtain ⟨rfl, rfl⟩ := h <;>
    simp only [exec, execReadDeviceId, execReadCurrent, execReadVoltage, execReadTemperature, execReadPower,
      execReadEnergy, execReadCharge, energyReg, chargeReg] <;> (try split) <;> simp_all

/-- The K steps of a numeric read are those of `sensor_read`. -/
theorem measures_plan {s : State} {i : Instr} {reg : BitVec 6} {sc : Bool}
    (hm : measures s.config i = some (reg, sc)) (k : Nat) : plan s.config i k = sensorPlan s.config reg k := by
  cases i <;> simp [measures] at hm <;> obtain ⟨rfl, rfl⟩ := hm <;> simp [plan, measures]

/-- Every command answers a next state in every state. -/
theorem exec_next (i : Instr) (s : State) : ∃ t, exec i s = .next t := by
  cases i <;>
    simp only [exec, execI2cWrite, execI2cRead, execDecodeReg, execScale, execMkstr, execSensorInit, execReadMfrId,
      execReadDeviceId, execReadCurrent, execReadVoltage, execReadTemperature, execReadPower, execReadEnergy,
      execReadCharge, execUartInit, execUartStart, execUartStop, execWriteText, execWriteU8, execWriteU16] <;>
    repeat (first | exact ⟨_, rfl⟩ | split)

/-- The commands that run bus transactions. -/
def busCommand (i : Instr) : Bool :=
  match i with
  | .i2cWrite _ _ | .i2cRead _ _ | .sensorInit | .readMfrId | .readDeviceId | .readCurrent | .readVoltage
  | .readTemperature | .readPower | .readEnergy | .readCharge => true
  | _ => false

/-- The commands that write RES. -/
def writesRes (i : Instr) : Bool :=
  match i with
  | .decodeReg _ _ | .scale _ | .readDeviceId | .readCurrent | .readVoltage | .readTemperature | .readPower
  | .readEnergy | .readCharge => true
  | _ => false

/-- Everything one SEQ step of the command `i` can do to the state `s`. -/
inductive SeqMove (i : Instr) (s : State) : State → Prop where
  | hold : SeqMove i s s
  | fault (code : FaultCode) : SeqMove i s (s.raise code s.cur)
  | setUpWrite (p : Pbuf) (sadd : BitVec 7) (n : BitVec 2) (hb : busCommand i = true) (hr : ∀ a n, i ≠ .i2cRead a n)
      (hw : ∀ a n, i = .i2cWrite a n → p = s.pbuf) (hp : s.ph = .w0) (he : s.pe = true) :
      SeqMove i s { s with pbuf := p, sadd := sadd, dir := .write, nbytes := n, start := true, idx := 0, ph := .w1 }
  | setUpRead (sadd : BitVec 7) (n : BitVec 2) (hb : busCommand i = true) (hr : ∀ a n, i ≠ .i2cWrite a n)
      (hi : i ≠ .sensorInit) (hp : s.ph = .rd0) (he : s.pe = true) :
      SeqMove i s { s with sadd := sadd, dir := .read, nbytes := n, start := true, idx := 0, ph := .rd1 }
  | send (b : Byte) (ph : Phase) (hb : busCommand i = true) (hr : ∀ a n, i ≠ .i2cRead a n) (hp : s.ph = .w1)
      (ht : s.txrdy = true) :
      SeqMove i s { s with txd := some b, txrdy := false, idx := s.idx + 1, ph := ph }
  | take (ph : Phase) (hb : busCommand i = true) (hr : ∀ a n, i ≠ .i2cWrite a n) (hi : i ≠ .sensorInit)
      (hp : s.ph = .rd1) (ht : s.rxrdy = true) :
      SeqMove i s { s with pbuf := s.pbuf.set s.idx s.rxd, rxrdy := false, idx := s.idx + 1, ph := ph }
  | skip (ph : Phase) (hb : busCommand i = true) (hp : s.ph = .w1 ∨ s.ph = .rd1) : SeqMove i s { s with ph := ph }
  | requestStop (ph : Phase) (hb : busCommand i = true) (hp : s.ph = .w2 ∨ s.ph = .rd2) (ht : s.tc = true) :
      SeqMove i s { s with stop := true, ph := ph }
  | nextK (ph : Phase) (hb : busCommand i = true) (hw : ∀ a n, i ≠ .i2cWrite a n) (hr : ∀ a n, i ≠ .i2cRead a n)
      (hp : s.ph = .w3 ∨ s.ph = .rd3) (ht : s.stop = false) :
      SeqMove i s { s with kIdx := s.kIdx + 1, ph := ph }
  | done : SeqMove i s { s with busy := false }
  | result (v : Word) (hr : writesRes i = true) : SeqMove i s { s with res := some v, busy := false }
  | string (t : StrReg) (hi : i = .mkstr ∨ i = .readMfrId) : SeqMove i s { s with str := some t, busy := false }
  | divisor (d : BitVec 16) (hi : i = .uartInit d) (he : s.uEn = false) :
      SeqMove i s { s with brr := some d, busy := false }
  | enable (hi : i = .uartStart) : SeqMove i s { s with uEn := true, busy := false }
  | disable (hi : i = .uartStop) (ht : s.uTc = true) : SeqMove i s { s with uEn := false, busy := false }
  | startText (src : TextSrc) (hi : i = .writeText src) (hp : s.ph = .t0) (he : s.uEn = true) :
      SeqMove i s { s with textPos := 0, ph := .t1 }
  | fetchText (src : TextSrc) (c : Byte) (hi : i = .writeText src) (hp : s.ph = .t1) :
      SeqMove i s { s with ph := .t2 c }
  | format (buf : Vector Byte 6) (hi : numberWrite i = true) (hp : s.ph = .n0) (he : s.uEn = true) :
      SeqMove i s { s with dbuf := buf, idx := 0, ph := .n1 }
  | fetchDigit (c : Byte) (hi : numberWrite i = true) (hp : s.ph = .n1) : SeqMove i s { s with ph := .n2 c }
  | sendChar (src : TextSrc) (c : Byte) (hi : i = .writeText src) (hp : s.ph = .t2 c) (ht : s.uTxrdy = true) :
      SeqMove i s { s with uStage := some c, uTxrdy := false, uTc := false, textPos := s.textPos + 1, ph := .t1 }
  | sendDigit (c : Byte) (hi : numberWrite i = true) (hp : s.ph = .n2 c) (ht : s.uTxrdy = true) :
      SeqMove i s { s with uStage := some c, uTxrdy := false, uTc := false, idx := s.idx + 1, ph := .n1 }

/-- What a write transaction of a command does in one step, given what its set-up loads and what follows it. -/
theorem btdWrite_move {i : Instr} {s : State} {load fin : State → State} {sadd : BitVec 7} {n : Nat} {p : Pbuf}
    (hb : busCommand i = true) (hr : ∀ a n, i ≠ .i2cRead a n) (hl : load s = { s with pbuf := p })
    (hw : ∀ a n, i = .i2cWrite a n → p = s.pbuf)
    (hf : s.ph = .w3 → s.stop = false → SeqMove i s (fin s)) : SeqMove i s (btdWrite load sadd n fin s) := by
  unfold btdWrite
  split
  · rename_i hp
    rcases seqW0_cases load sadd n s with ⟨_, h⟩ | ⟨_, k, _, h⟩ | ⟨he, _, h⟩ <;> rw [h]
    · exact .fault _
    · exact .fault _
    · rw [hl]; exact .setUpWrite p sadd _ hb hr hw hp he
  · rename_i hp
    unfold seqW1
    split
    · split
      · rename_i ht
        split
        · exact .send _ _ hb hr hp ht
        · exact .fault _
      · exact .hold
    · exact .skip _ hb (.inl hp)
  · rename_i hp
    rcases seqStop_cases .w3 s with ⟨ht, h⟩ | ⟨_, h⟩ <;> rw [h]
    · exact .requestStop _ hb (.inl hp) ht
    · exact .hold
  · rename_i hp
    rcases seqStopped_cases fin s with ⟨hs, h⟩ | ⟨_, h⟩ <;> rw [h]
    · exact hf hp hs
    · exact .hold
  · exact .hold

/-- What a read transaction of a command does in one step, given what follows it. -/
theorem btdRead_move {i : Instr} {s : State} {fin : State → State} {sadd : BitVec 7} {n : Nat}
    (hb : busCommand i = true) (hr : ∀ a n, i ≠ .i2cWrite a n) (hi : i ≠ .sensorInit)
    (hf : s.ph = .rd3 → s.stop = false → SeqMove i s (fin s)) : SeqMove i s (btdRead sadd n fin s) := by
  unfold btdRead
  split
  · rename_i hp
    rcases seqRD0_cases sadd n s with ⟨_, h⟩ | ⟨he, h⟩ <;> rw [h]
    · exact .fault _
    · exact .setUpRead sadd _ hb hr hi hp he
  · rename_i hp
    unfold seqRD1
    split
    · split
      · rename_i ht
        exact .take _ hb hr hi hp ht
      · exact .hold
    · exact .skip _ hb (.inr hp)
  · rename_i hp
    rcases seqStop_cases .rd3 s with ⟨ht, h⟩ | ⟨_, h⟩ <;> rw [h]
    · exact .requestStop _ hb (.inr hp) ht
    · exact .hold
  · rename_i hp
    rcases seqStopped_cases fin s with ⟨hs, h⟩ | ⟨_, h⟩ <;> rw [h]
    · exact hf hp hs
    · exact .hold
  · exact .hold

/-- The step that decodes PBUF into RES: RES is written, or a fault is raised. -/
theorem decodeToRes_move {i : Instr} {s : State} (d : Descriptor) (sc : Bool) (hr : writesRes i = true) :
    SeqMove i s (decodeToRes d sc s) := by
  unfold decodeToRes
  split
  · exact .result _ hr
  · exact .fault _

/-- The step that makes STR: STR is written, or a fault is raised. -/
theorem makeStr_move {i : Instr} {s : State} (hi : i = .mkstr ∨ i = .readMfrId) : SeqMove i s (makeStr s) := by
  unfold makeStr
  split
  · exact .fault _
  · split
    · exact .fault _
    · exact .string _ hi

/-- What one step of `sensor_read` does. -/
theorem sensorRead_move {i : Instr} {s : State} {reg : BitVec 6} {sc : Bool}
    (hm : measures s.config i = some (reg, sc)) : SeqMove i s (sensorRead reg sc s) := by
  have hb : busCommand i = true := by cases i <;> simp [measures] at hm <;> rfl
  have hres : writesRes i = true := by cases i <;> simp [measures] at hm <;> rfl
  have hw : ∀ a n, i ≠ .i2cWrite a n := by rintro a n rfl; simp [measures] at hm
  have hr : ∀ a n, i ≠ .i2cRead a n := by rintro a n rfl; simp [measures] at hm
  have hi : i ≠ .sensorInit := by rintro rfl; simp [measures] at hm
  have point : SeqMove i s (pointStep reg s) :=
    btdWrite_move hb hr rfl (fun a n h => absurd h (hw a n)) fun hp hs => .nextK _ hb hw hr (.inl hp) hs
  unfold sensorRead
  split
  · unfold sensorReadK0
    split
    · exact .fault _
    · exact point
  · split
    · exact .fault _
    · split
      · exact btdRead_move hb hw hi fun hp hs => .nextK _ hb hw hr (.inr hp) hs
      · split
        · exact decodeToRes_move _ _ hres
        · exact .hold

/-- What one step of a number write does. -/
theorem writeNumber_move {i : Instr} {s : State} {w : Nat} (places : List Nat) (src : NumSrc w)
    (hn : numberWrite i = true) : SeqMove i s (writeNumber places src s) := by
  unfold writeNumber
  split
  · rename_i hp
    unfold seqN0
    split
    · rename_i he
      split
      · exact .fault _
      · exact .format _ hn hp he
    · exact .fault _
  · rename_i hp
    unfold seqN1
    split
    · unfold takeChar
      split
      · exact .done
      · exact .fetchDigit _ hn hp
    · exact .hold
  · rename_i c hp
    unfold seqTxByte
    split
    · rename_i ht
      exact .sendDigit c hn hp ht
    · exact .hold
  · exact .hold

/-- What one step of WRITE_TEXT does. -/
theorem writeText_move {s t : State} {src : TextSrc} (h : execWriteText src s = .next t) :
    SeqMove (.writeText src) s t := by
  unfold execWriteText at h
  split at h <;> cases h
  · rename_i hp
    unfold seqT0
    split
    · rename_i he
      split
      · exact .fault _
      · exact .startText _ rfl hp he
    · exact .fault _
  · rename_i hp
    unfold seqT1
    split
    · exact .fault _
    · exact .hold
    · unfold takeChar
      split
      · exact .done
      · exact .fetchText _ _ rfl hp
  · rename_i c hp
    unfold seqTxByte
    split
    · rename_i ht
      exact .sendChar _ c rfl hp ht
    · exact .hold
  · exact .hold

/-- Everything one SEQ step of a command can do. -/
theorem exec_move {i : Instr} {s t : State} (h : exec i s = .next t) : SeqMove i s t := by
  rcases hm : measures s.config i with _ | ⟨reg, sc⟩
  · cases i with
    | i2cWrite a n =>
      cases h
      exact btdWrite_move rfl (by simp) rfl (fun _ _ _ => rfl) fun _ _ => .done
    | i2cRead a n =>
      cases h
      exact btdRead_move rfl (by simp) (by simp) fun _ _ => .done
    | decodeReg reg sc =>
      simp only [exec, execDecodeReg] at h
      split at h <;> cases h
      · exact .fault _
      · exact decodeToRes_move _ _ rfl
    | scale reg =>
      simp only [exec, execScale] at h
      split at h
      · cases h; exact .fault _
      · split at h <;> cases h
        · exact .fault _
        · exact .result _ rfl
    | mkstr => cases h; exact makeStr_move (.inl rfl)
    | sensorInit =>
      have next : ∀ reg w, SeqMove .sensorInit s (wr16Step reg w (fun t => t.nextK .w0) s) := fun reg w =>
        btdWrite_move rfl (by simp) rfl (by simp) fun hp hs => .nextK _ rfl (by simp) (by simp) (.inl hp) hs
      have last : ∀ reg w, SeqMove .sensorInit s (wr16Step reg w State.done s) := fun reg w =>
        btdWrite_move rfl (by simp) rfl (by simp) fun _ _ => .done
      simp only [exec, execSensorInit] at h
      split at h <;> cases h
      · exact next _ _
      · exact next _ _
      · exact next _ _
      · exact last _ _
      · exact .hold
    | readMfrId =>
      simp only [exec, execReadMfrId] at h
      split at h <;> cases h
      · exact btdWrite_move rfl (by simp) rfl (by simp) fun hp hs => .nextK _ rfl (by simp) (by simp) (.inl hp) hs
      · exact btdRead_move rfl (by simp) (by simp) fun hp hs => .nextK _ rfl (by simp) (by simp) (.inr hp) hs
      · exact makeStr_move (.inr rfl)
      · exact .hold
    | uartInit d =>
      simp only [exec, execUartInit] at h
      split at h <;> cases h
      · exact .fault _
      · rename_i he
        exact .divisor d rfl (by simpa using he)
    | uartStart =>
      simp only [exec, execUartStart] at h
      split at h <;> cases h
      · exact .fault _
      · exact .enable rfl
    | uartStop =>
      simp only [exec, execUartStop] at h
      split at h <;> cases h
      · rename_i ht
        exact .disable rfl ht
      · exact .hold
    | writeText src => exact writeText_move h
    | writeU8 src => cases h; exact writeNumber_move _ _ rfl
    | writeU16 src => cases h; exact writeNumber_move _ _ rfl
    | _ => simp [measures] at hm
  · rw [exec_measures hm] at h
    cases h
    exact sensorRead_move hm

/-! ### The agents -/

/-- An accepted word is a decoded command made the current one. -/
theorem accept_ok {s t : State} {v : Word} (h : accept s v = .ok t) :
    ∃ i, decode v = .ok i ∧ t = s.acceptInstr i := by
  unfold accept at h
  split at h <;> cases h
  exact ⟨_, by assumption, rfl⟩

/-- Everything a host write that raises nothing can do: it happens only while BUSY = 0. -/
theorem hostWrite_ok {s t : State} {width : Nat} {off : BitVec 12} {v : Word} (h : hostWrite s width off v = .ok t) :
    s.busy = false
      ∧ ((∃ i, decode v = .ok i ∧ t = s.acceptInstr i)
        ∨ (∃ b, t = { s with pe := b })
        ∨ (∃ b0 b1 b2, t = { s with pbuf := ⟨some b0, some b1, some b2⟩ })
        ∨ ∃ a, a + 3 < Config.tmemSize ∧ t = { s with tmem := s.tmem.writeWord a v }) := by
  unfold hostWrite at h
  split at h
  · cases h
  · rename_i r hr
    unfold writeTarget at hr
    split at hr
    · rename_i hg
      split at hr
      · cases hr
      · rename_i r' hreg
        split at hr
        · split at hr <;> cases hr
        · rename_i hbusy
          cases hr
          refine ⟨by simpa using hbusy, ?_⟩
          unfold writeReg at h
          split at h <;> try cases h
          · exact .inl (accept_ok h)
          · split at h <;> cases h
            exact .inr (.inl ⟨_, rfl⟩)
          · split at h <;> cases h
            exact .inr (.inr (.inl ⟨_, _, _, rfl⟩))
          · exact .inr (.inr (.inr ⟨_, hostReg_tmem_range width off _ hg hreg, rfl⟩))
    · cases hr

/-- A host write of CMD on a block that is not busy is the acceptance of the word. -/
theorem hostWrite_cmd (s : State) (v : Word) (hb : s.busy = false) : hostWrite s 32 0x000#12 v = accept s v := by
  simp [hostWrite, writeTarget, goodShape, hostReg, hb, writeReg]

/-- While BUSY = 1 the only read that raises nothing is the read of STATUS. -/
theorem hostRead_ok_busy {s : State} {width : Nat} {off : BitVec 12} {v : Word} (hb : s.busy = true)
    (h : hostRead s width off = .ok v) : v = s.statusWord := by
  unfold hostRead readTarget at h
  cases hg : goodShape width off
  · simp [hg] at h
  · cases hr : hostReg off with
    | none => simp [hg, hr] at h
    | some r => cases r <;> simp [hg, hr, hb, readReg] at h; exact h.symm

/-- A read of STATUS never faults. -/
theorem hostRead_status (s : State) : hostRead s 32 0x004#12 = .ok s.statusWord := by
  simp [hostRead, readTarget, goodShape, hostReg, readReg]

/-- Bit 0 of STATUS is BUSY. -/
theorem statusWord_busy (s : State) : s.statusWord.getLsbD 0 = s.busy := by
  simp only [State.statusWord]
  generalize s.uTc = a1, s.uTxrdy = a2, s.uEn = a3, s.busact = a4, s.tc = a5, s.rxrdy = a6, s.txrdy = a7, s.busy = a8
  revert a1 a2 a3 a4 a5 a6 a7 a8
  decide

/-- Everything one step of HOST can do. -/
theorem hostStep_cases (s : State) :
    hostStep s = s
      ∨ (∃ code, hostStep s = s.raise code none)
      ∨ (∃ v ops, hostStep s = s.hostGot v ops)
      ∨ s.busy = false ∧ ∃ width off v t ops,
          s.host = .write width off v :: ops ∧ hostWrite s width off v = .ok t ∧ hostStep s = { t with host := ops } := by
  unfold hostStep
  split
  · exact .inl rfl
  · split
    · exact .inr (.inr (.inl ⟨_, _, rfl⟩))
    · exact .inr (.inl ⟨_, rfl⟩)
  · split
    · rename_i hx
      exact .inr (.inr (.inr ⟨(hostWrite_ok hx).1, _, _, _, _, _, by assumption, hx, rfl⟩))
    · exact .inr (.inl ⟨_, rfl⟩)
  · split
    · exact .inr (.inr (.inl ⟨_, _, rfl⟩))
    · exact .inr (.inl ⟨_, rfl⟩)

/-- A step is the step of the agent that moves, on a block that has not faulted. -/
theorem step_next {s t : State} (h : step s = .next t) :
    s.config.wf = true ∧ s.fault = none ∧ agentStep s.mover s.scheduled = .next t := by
  unfold step at h
  split at h
  · rename_i hw
    unfold runStep at h
    split at h
    · cases h
    · exact ⟨hw, by assumption, h⟩
  · cases h

/-- A step with a schedule. -/
theorem step_scheduled {s : State} {a : Agent} {rest : List Agent} (hw : s.config.wf = true) (hf : s.fault = none)
    (hs : s.sched = a :: rest) : step s = agentStep a { s with sched := rest } := by
  simp [step, hw, runStep, hf, State.mover, State.scheduled, hs]

/-- A run takes its first step, then the others. -/
theorem runSteps_next {n : Nat} {s t : State} (h : step s = .next t) : runSteps (n + 1) s = runSteps n t := by
  simp [runSteps, h]

/-- The step of SEQ answers a next state, which is the same state where BUSY = 0. -/
theorem seqStep_cases (s : State) :
    seqStep s = .next s ∨ s.busy = true ∧ ∃ i, s.cur = some i ∧ seqStep s = exec i s := by
  unfold seqStep
  cases s.busy
  · exact .inl rfl
  · cases s.cur
    · exact .inl rfl
    · exact .inr ⟨rfl, _, rfl, rfl⟩

/-! ### Launches -/

/-- A launch is refused for the reason `launchRefusal` names, or starts from `launchState`. -/
theorem launch_cases (c : Config) (ops : List HostOp) (sched : List Agent) (draws : List Byte) :
    (∃ r, launchRefusal c ops = some r ∧ launch c ops sched draws = .refused r)
      ∨ launchRefusal c ops = none ∧ launch c ops sched draws = .next (launchState c ops sched draws) := by
  unfold launch
  split
  · exact .inl ⟨_, by assumption, rfl⟩
  · exact .inr ⟨by assumption, rfl⟩

/-- In mode DEDICATED a register needs its descriptor; in mode BUG none does (R209). -/
theorem dedicatedRefusal_none {c : Config} {reg : BitVec 6} :
    dedicatedRefusal c reg = none ↔ (c.mode = .dedicated → ∃ d ∈ c.desc, d.addr = reg) := by
  unfold dedicatedRefusal
  cases c.mode <;> simp

/-- A run that hangs has BUSY = 1 from some step on. -/
theorem busy_of_hangs {run : Nat → State} (h : Hangs run) : ∃ n, ∀ m, n ≤ m → (run m).busy = true := by
  obtain ⟨n, h | h⟩ := h
  · exact ⟨n, fun m hm => (h m hm).2.1⟩
  · exact ⟨n, fun m hm => (h m hm).2.1⟩

end Sys2Proof.Machine
end

