-- ==== Sys2Proof/Laws/PerInstr.lean ====
section
/-!
SUPPORT. A statement about every command as syntax, one lemma per constructor: its word carries its opcode in bits 31:24
and its operand field, whole, in bits 23:0 (R81, R82, R90).
-/

namespace Sys2Proof.Laws.CommandWord

open Sys2Proof

/-- The word of `i` has the opcode of `i` above an operand field that loses no bit. -/
def Statement (i : Instr) : Prop :=
  opcodeOf (encode i) = i.opcode ∧ (field (encode i) 0 24).toNat = i.operandBits

/-- An operand field below 2^24 is all the statement needs. -/
theorem of_operandBits_lt {i : Instr} (h : i.operandBits < 2 ^ 24) : Statement i := by
  have ho : i.opcode.toNat < 256 := i.opcode.isLt
  have he : (encode i).toNat = i.opcode.toNat * 2 ^ 24 + i.operandBits := by
    simp only [encode, place, BitVec.toNat_ofNat]
    exact Nat.mod_eq_of_lt (by omega)
  constructor
  · apply BitVec.eq_of_toNat_eq
    rw [opcodeOf, field, BitVec.extractLsb'_toNat, Nat.shiftRight_eq_div_pow, he, Nat.mul_comm,
      Nat.mul_add_div (by decide), Nat.div_eq_of_lt h]
    exact Nat.mod_eq_of_lt ho
  · rw [field, BitVec.extractLsb'_toNat, Nat.shiftRight_eq_div_pow, he, Nat.pow_zero, Nat.div_one, Nat.mul_comm,
      Nat.mul_add_mod, Nat.mod_eq_of_lt h]

theorem i2cWrite (sadd : BitVec 7) (nb : BitVec 2) : Statement (.i2cWrite sadd nb) :=
  of_operandBits_lt (by
    have := sadd.isLt
    have := nb.isLt
    simp only [Instr.operandBits, place]
    omega)

theorem i2cRead (sadd : BitVec 7) (nb : BitVec 2) : Statement (.i2cRead sadd nb) :=
  of_operandBits_lt (by
    have := sadd.isLt
    have := nb.isLt
    simp only [Instr.operandBits, place]
    omega)

theorem decodeReg (reg : BitVec 6) (sc : Bool) : Statement (.decodeReg reg sc) :=
  of_operandBits_lt (by
    have := reg.isLt
    have := (BitVec.ofBool sc).isLt
    simp only [Instr.operandBits, place]
    omega)

theorem scale (reg : BitVec 6) : Statement (.scale reg) :=
  of_operandBits_lt (by
    have := reg.isLt
    simp only [Instr.operandBits, place]
    omega)

theorem mkstr : Statement .mkstr := of_operandBits_lt (by decide)

theorem sensorInit : Statement .sensorInit := of_operandBits_lt (by decide)

theorem readMfrId : Statement .readMfrId := of_operandBits_lt (by decide)

theorem readDeviceId : Statement .readDeviceId := of_operandBits_lt (by decide)

theorem readCurrent : Statement .readCurrent := of_operandBits_lt (by decide)

theorem readVoltage : Statement .readVoltage := of_operandBits_lt (by decide)

theorem readTemperature : Statement .readTemperature := of_operandBits_lt (by decide)

theorem readPower : Statement .readPower := of_operandBits_lt (by decide)

theorem readEnergy : Statement .readEnergy := of_operandBits_lt (by decide)

theorem readCharge : Statement .readCharge := of_operandBits_lt (by decide)

theorem uartInit (div : BitVec 16) : Statement (.uartInit div) :=
  of_operandBits_lt (by
    have := div.isLt
    simp only [Instr.operandBits, place]
    omega)

theorem uartStart : Statement .uartStart := of_operandBits_lt (by decide)

theorem uartStop : Statement .uartStop := of_operandBits_lt (by decide)

theorem writeText (src : TextSrc) : Statement (.writeText src) :=
  of_operandBits_lt (by
    cases src with
    | tmem addr =>
      have := addr.isLt
      simp only [Instr.operandBits, place]
      omega
    | str => decide)

theorem writeU8 (src : NumSrc 8) : Statement (.writeU8 src) :=
  of_operandBits_lt (by
    cases src with
    | imm v =>
      have := v.isLt
      simp only [Instr.operandBits, place]
      omega
    | res => decide)

theorem writeU16 (src : NumSrc 16) : Statement (.writeU16 src) :=
  of_operandBits_lt (by
    cases src with
    | imm v =>
      have := v.isLt
      simp only [Instr.operandBits, place]
      omega
    | res => decide)

end Sys2Proof.Laws.CommandWord
end

