-- ==== Sys2Proof/Tests/Slice0.lean ====
section
/-!
SUPPORT. Tests with expected results from spec/95_test_vectors.md and the rules, and one witness for the hypotheses of each
obligation that has some.
-/

namespace Sys2Proof.Tests

open Sys2Proof Sys2Proof.Machine

/-! ### Helpers -/

/-- A field of the next state. -/
def after {α : Type} (o : Host.Outcome State Fault Refusal) (f : State → α) : Option α :=
  match o with
  | .next t => some (f t)
  | .fault _ => none
  | .refused _ => none

/-- The bus is enabled and nothing runs. -/
def idle : State := { State.reset with pe := true }

/-- The command `i` runs, in its phase `ph`. -/
def running (i : Instr) (ph : Phase) : State := { idle with busy := true, cur := some i, ph := ph }

/-- The same on an enabled console. -/
def writing (i : Instr) (ph : Phase) : State := { running i ph with uEn := true, brr := some 0x45#16 }

/-- The INIT words of 95_test_vectors.md 6 (test values). -/
def initTest : InitWords := { rst := 0x8000#16, rangeReg := 0x00#6, range := 0x0010#16, adc := 0xFB68#16, shuntCal := 0x1000#16 }

/-- The default configuration with the INIT words. -/
def configTest : Config := { Config.default with init := some initTest }

/-- The code of the fault recorded. -/
def code (s : State) : Option FaultCode := s.fault.map FaultRecord.code

/-! ### Well-formedness: an ill-formed term for each check is refused (R86, R89, R132) -/

theorem test_wf_write_zero_bytes : (Instr.i2cWrite 0x40#7 0#2).wf = false := by decide
theorem test_wf_read_zero_bytes : (Instr.i2cRead 0x40#7 0#2).wf = false := by decide
theorem test_wf_zero_divisor : (Instr.uartInit 0#16).wf = false := by decide
theorem test_wf_good :
    (Instr.i2cWrite 0x7F#7 3#2).wf = true ∧ (Instr.i2cRead 0x00#7 1#2).wf = true ∧ (Instr.uartInit 1#16).wf = true := by
  decide
theorem test_config_default : Config.default.wf = true := by decide
theorem test_config_signed_16_bits :
    { Config.default with desc := [⟨0x06#6, .w16, true, 1, 0⟩] }.wf = false := by decide
theorem test_config_scale_bounds :
    { Config.default with desc := [⟨0x06#6, .w16, false, 0, 0⟩] }.wf = false
    ∧ { Config.default with desc := [⟨0x06#6, .w16, false, 4294967296, 0⟩] }.wf = false
    ∧ { Config.default with desc := [⟨0x06#6, .w16, false, 1, 32⟩] }.wf = false
    ∧ { Config.default with desc := [⟨0x3F#6, .w24, true, 4294967295, 31⟩] }.wf = true := by decide
theorem test_config_address_twice :
    { Config.default with desc := [⟨0x06#6, .w16, false, 1, 0⟩, ⟨0x06#6, .w24, true, 1, 0⟩] }.wf = false := by decide
theorem test_config_refused :
    step { idle with config := { Config.default with desc := [⟨0x06#6, .w16, true, 1, 0⟩] } }
      = .refused .illFormedConfig := rfl

/-! ### Decoding: words written out from R82 and R90, one per constructor, and 95_test_vectors.md 2 -/

theorem test_decode_i2cWrite : decode 0b00000001000000000000001101000000#32 = .ok (.i2cWrite 0x40#7 3#2) := by decide
theorem test_decode_i2cRead : decode 0b00000010000000000000000111111111#32 = .error .reservedBit
    ∧ decode 0b00000010000000000000000101111111#32 = .ok (.i2cRead 0x7F#7 1#2) := by decide
theorem test_decode_decodeReg : decode 0b00010000000000000000000100000111#32 = .ok (.decodeReg 0x07#6 true)
    ∧ decode 0b00010000000000000000000000111111#32 = .ok (.decodeReg 0x3F#6 false) := by decide
theorem test_decode_scale : decode 0b00010001000000000000000000000111#32 = .ok (.scale 0x07#6) := by decide
theorem test_decode_mkstr : decode 0b00010010000000000000000000000000#32 = .ok .mkstr := by decide
theorem test_decode_sensorInit : decode 0b00100000000000000000000000000000#32 = .ok .sensorInit := by decide
theorem test_decode_readMfrId : decode 0b00100001000000000000000000000000#32 = .ok .readMfrId := by decide
theorem test_decode_readDeviceId : decode 0b00100010000000000000000000000000#32 = .ok .readDeviceId := by decide
theorem test_decode_readCurrent : decode 0b00100011000000000000000000000000#32 = .ok .readCurrent := by decide
theorem test_decode_readVoltage : decode 0b00100100000000000000000000000000#32 = .ok .readVoltage := by decide
theorem test_decode_readTemperature : decode 0b00100101000000000000000000000000#32 = .ok .readTemperature := by decide
theorem test_decode_readPower : decode 0b00100110000000000000000000000000#32 = .ok .readPower := by decide
theorem test_decode_readEnergy : decode 0b00100111000000000000000000000000#32 = .ok .readEnergy := by decide
theorem test_decode_readCharge : decode 0b00101000000000000000000000000000#32 = .ok .readCharge := by decide
theorem test_decode_uartInit : decode 0b00110000000000000000000001000101#32 = .ok (.uartInit 0x0045#16)
    ∧ decode 0b00110000000000001111111111111111#32 = .ok (.uartInit 0xFFFF#16) := by decide
theorem test_decode_uartStart : decode 0b00110001000000000000000000000000#32 = .ok .uartStart := by decide
theorem test_decode_uartStop : decode 0b00110010000000000000000000000000#32 = .ok .uartStop := by decide
theorem test_decode_writeText : decode 0b00110011000000000000000000010000#32 = .ok (.writeText (.tmem 0x10#8))
    ∧ decode 0b00110011100000000000000000000000#32 = .ok (.writeText .str) := by decide
theorem test_decode_writeU8 : decode 0b00110100000000000000000011111111#32 = .ok (.writeU8 (.imm 255#8))
    ∧ decode 0b00110100100000000000000000000000#32 = .ok (.writeU8 .res) := by decide
theorem test_decode_writeU16 : decode 0b00110101000000001111111111111111#32 = .ok (.writeU16 (.imm 65535#16))
    ∧ decode 0b00110101100000000000000000000000#32 = .ok (.writeU16 .res) := by decide
theorem test_decode_unassigned : decode 0x00000000#32 = .error .unknownOpcode
    ∧ decode 0x29000000#32 = .error .unknownOpcode ∧ decode 0xFF000000#32 = .error .unknownOpcode := by decide
theorem test_decode_reserved : decode 0x010003C0#32 = .error .reservedBit ∧ decode 0x01010140#32 = .error .reservedBit
    ∧ decode 0x10000207#32 = .error .reservedBit ∧ decode 0x10000047#32 = .error .reservedBit
    ∧ decode 0x11000107#32 = .error .reservedBit ∧ decode 0x12000001#32 = .error .reservedBit
    ∧ decode 0x30010001#32 = .error .reservedBit ∧ decode 0x33000100#32 = .error .reservedBit
    ∧ decode 0x34000100#32 = .error .reservedBit ∧ decode 0x35010000#32 = .error .reservedBit
    ∧ decode 0x35C00000#32 = .error .reservedBit := by decide
theorem test_decode_operands : decode 0x01000040#32 = .error .zeroByteCount ∧ decode 0x30000000#32 = .error .zeroDivisor
    ∧ decode 0x33800001#32 = .error .sourceWithImmediate ∧ decode 0x34800009#32 = .error .sourceWithImmediate := by decide
theorem test_encode : encode (.i2cRead 0x40#7 2#2) = 0x02000240#32 ∧ encode (.decodeReg 0x07#6 true) = 0x10000107#32
    ∧ encode (.writeU16 .res) = 0x35800000#32 := by decide
theorem test_asm : (Instr.decodeReg 0x07#6 true).asm = "DECODE 7, SC" ∧ (Instr.writeText .str).asm = "WRITE_TEXT STR" := by
  decide
theorem test_decodeTableWord : decodeTableWord 32 0x31000000 = some .uartStart ∧ decodeTableWord 32 0 = none := by decide

/-! ### One step of each command, from 95_test_vectors.md 4 to 7 -/

/-- 4.1, step 3: the last byte goes to I2C_TXD and W2 follows. -/
theorem test_i2cWrite_last_byte :
    after (exec (.i2cWrite 0x40#7 1#2)
        { running (.i2cWrite 0x40#7 1#2) .w1 with pbuf := ⟨some 0x3E#8, none, none⟩, txrdy := true, nbytes := 1#2 })
      (fun t => (t.txd, t.txrdy, t.ph)) = some (some 0x3E#8, false, .w2) := by decide

/-- 4.3: PBUF[1] invalid, I2C_WRITE 0x40, 2. -/
theorem test_i2cWrite_invalid_byte :
    after (exec (.i2cWrite 0x40#7 2#2)
        { running (.i2cWrite 0x40#7 2#2) .w0 with pbuf := ⟨some 0x00#8, none, none⟩ })
      (fun t => (code t, t.start)) = some (some (.uninitRead (.pbuf 1)), false) := by decide

/-- 4.3: PBUF = [0x11, 0x22, 0x33], I2C_READ 0x40, 1 with the draw 0xAB leaves [0xAB, 0x22, 0x33]. -/
theorem test_i2cRead_keeps_other_bytes :
    after (exec (.i2cRead 0x40#7 1#2)
        { running (.i2cRead 0x40#7 1#2) .rd1 with
          pbuf := ⟨some 0x11#8, some 0x22#8, some 0x33#8⟩, rxrdy := true, rxd := 0xAB#8 })
      (fun t => (t.pbuf, t.rxrdy, t.ph)) = some (⟨some 0xAB#8, some 0x22#8, some 0x33#8⟩, false, .rd2) := by decide

/-- 4.3: PE = 0, I2C_READ 0x40, 2. -/
theorem test_i2cRead_bus_not_enabled :
    after (exec (.i2cRead 0x40#7 2#2) { running (.i2cRead 0x40#7 2#2) .rd0 with pe := false }) code
      = some (some .busNotEnabled) := by decide

/-- 5.4: PBUF = [0x85, 0xEE, 0x00], DECODE 0x07, SC. -/
theorem test_decodeReg_scaled :
    after (exec (.decodeReg 0x07#6 true)
        { running (.decodeReg 0x07#6 true) .only with pbuf := ⟨some 0x85#8, some 0xEE#8, some 0x00#8⟩ })
      (fun t => (t.res, t.busy)) = some (some 0xFFF172B5#32, false) := by decide

/-- 5.4: PBUF = [0x02, 0xA0, -], DECODE 0x07. -/
theorem test_decodeReg_needs_three_bytes :
    after (exec (.decodeReg 0x07#6 false)
        { running (.decodeReg 0x07#6 false) .only with pbuf := ⟨some 0x02#8, some 0xA0#8, none⟩ })
      (fun t => (code t, t.res, t.busy)) = some (some (.uninitRead (.pbuf 2)), none, true) := by decide

/-- 5.3: 0x7FFFFFFF gives the low 32 bits of 4095999998. -/
theorem test_scale_wraps :
    after (exec (.scale 0x07#6) { running (.scale 0x07#6) .only with res := some 0x7FFFFFFF#32 }) State.res
      = some (some 0xF423FFFE#32) := by decide

/-- 5.3: -1 gives -2. -/
theorem test_scale_rounds_down :
    after (exec (.scale 0x07#6) { running (.scale 0x07#6) .only with res := some 0xFFFFFFFF#32 }) State.res
      = some (some 0xFFFFFFFE#32) := by decide

/-- 5.4: PBUF = [0x54, 0x49, -], MKSTR. -/
theorem test_mkstr :
    after (exec .mkstr { running .mkstr .only with pbuf := ⟨some 0x54#8, some 0x49#8, none⟩ }) State.str
      = some (some ⟨0x54#8, 0x49#8, 0x00#8⟩) := by decide

/-- 6: the first write of SENSOR_INIT is 0x00, 0x80, 0x00 to the slave 0x40. -/
theorem test_sensorInit_first_write :
    after (exec .sensorInit { running .sensorInit .w0 with config := configTest })
      (fun t => (t.pbuf, t.sadd, t.nbytes)) = some (⟨some 0x00#8, some 0x80#8, some 0x00#8⟩, 0x40#7, 3#2) := by decide

/-- 6: the third write of SENSOR_INIT is 0x01, 0xFB, 0x68. -/
theorem test_sensorInit_third_write :
    after (exec .sensorInit { running .sensorInit .w0 with config := configTest, kIdx := 2 }) State.pbuf
      = some ⟨some 0x01#8, some 0xFB#8, some 0x68#8⟩ := by decide

/-- 6: READ_MFR_ID points at 0x3E, keeping PBUF[2]. -/
theorem test_readMfrId_pointer :
    after (exec .readMfrId { running .readMfrId .w0 with pbuf := ⟨none, none, some 0x77#8⟩ })
      (fun t => (t.pbuf, t.nbytes, t.start)) = some (⟨some 0x3E#8, none, some 0x77#8⟩, 1#2, true) := by decide

/-- 6: READ_MFR_ID with the draws 0x54, 0x49. -/
theorem test_readMfrId_string :
    after (exec .readMfrId { running .readMfrId .k2 with kIdx := 2, pbuf := ⟨some 0x54#8, some 0x49#8, none⟩ })
      (fun t => (t.str, t.res, t.busy)) = some (some ⟨0x54#8, 0x49#8, 0x00#8⟩, none, false) := by decide

/-- 6: READ_DEVICE_ID with the draws 0x02, 0xA0. -/
theorem test_readDeviceId :
    after (exec .readDeviceId { running .readDeviceId .k2 with kIdx := 2, pbuf := ⟨some 0x02#8, some 0xA0#8, none⟩ })
      State.res = some (some 0x0000002A#32) := by decide

/-- 6: READ_DEVICE_ID reads two bytes. -/
theorem test_readDeviceId_reads_two_bytes :
    after (exec .readDeviceId { running .readDeviceId .rd0 with kIdx := 1 }) (fun t => (t.nbytes, t.dir))
      = some (2#2, .read) := by decide

/-- 6: READ_CURRENT with the draws 0x80, 0x00, 0x00 is -1000000. -/
theorem test_readCurrent :
    after (exec .readCurrent
        { running .readCurrent .k2 with kIdx := 2, pbuf := ⟨some 0x80#8, some 0x00#8, some 0x00#8⟩ })
      State.res = some (some 0xFFF0BDC0#32) := by decide

/-- 6: READ_CURRENT with PE = 0. -/
theorem test_readCurrent_bus_not_enabled :
    after (exec .readCurrent { running .readCurrent .w0 with pe := false }) code = some (some .busNotEnabled) := by decide

/-- 6: READ_VOLTAGE with the draws 0x80, 0x00, 0x00 is the signed field. -/
theorem test_readVoltage :
    after (exec .readVoltage
        { running .readVoltage .k2 with kIdx := 2, pbuf := ⟨some 0x80#8, some 0x00#8, some 0x00#8⟩ })
      State.res = some (some 0xFFF80000#32) := by decide

/-- 6: READ_TEMPERATURE with the draws 0x19, 0x40. -/
theorem test_readTemperature :
    after (exec .readTemperature
        { running .readTemperature .k2 with kIdx := 2, pbuf := ⟨some 0x19#8, some 0x40#8, none⟩ })
      State.res = some (some 0x00000194#32) := by decide

/-- 6: READ_POWER with the draws 0xFF, 0xFF, 0xFF and POWER_SIGNED = false. -/
theorem test_readPower :
    after (exec .readPower
        { running .readPower .k2 with kIdx := 2, pbuf := ⟨some 0xFF#8, some 0xFF#8, some 0xFF#8⟩ })
      State.res = some (some 0x000FFFFF#32) := by decide

/-- 6: READ_ENERGY in mode BUG with the draws 0x7A, 0x12, 0x0F is unscaled. -/
theorem test_readEnergy :
    after (exec .readEnergy
        { running .readEnergy .k2 with kIdx := 2, pbuf := ⟨some 0x7A#8, some 0x12#8, some 0x0F#8⟩ })
      State.res = some (some 0x0007A120#32) := by decide

/-- R160: mode DEDICATED without a descriptor of ENERGY_ADDR faults in K0. -/
theorem test_readEnergy_dedicated :
    after (exec .readEnergy { running .readEnergy .w0 with config := { Config.default with mode := .dedicated } }) code
      = some (some (.noDescriptor 0x09#6)) := by decide

/-- 6: READ_CHARGE in mode BUG with the draws 0xF8, 0x5E, 0xE0. -/
theorem test_readCharge :
    after (exec .readCharge
        { running .readCharge .k2 with kIdx := 2, pbuf := ⟨some 0xF8#8, some 0x5E#8, some 0xE0#8⟩ })
      State.res = some (some 0xFFFF85EE#32) := by decide

/-- 6: READ_CHARGE in mode BUG points at the current register 0x07. -/
theorem test_readCharge_pointer :
    after (exec .readCharge (running .readCharge .w0)) (fun t => t.pbuf.b0) = some (some 0x07#8) := by decide

/-- 7.2: UART_INIT 0x0045 after reset. -/
theorem test_uartInit :
    after (exec (.uartInit 0x0045#16) (running (.uartInit 0x0045#16) .only)) (fun t => (t.brr, t.busy))
      = some (some 0x0045#16, false) := by decide

/-- 7.2: UART_INIT 0x0001 while U_EN = 1. -/
theorem test_uartInit_enabled :
    after (exec (.uartInit 0x0001#16) (writing (.uartInit 0x0001#16) .only)) (fun t => (code t, t.brr))
      = some (some (.uartReconfigWhileEnabled 0x0001#16), some 0x45#16) := by decide

/-- 7.2: UART_START after UART_INIT makes STATUS 0x000000E0. -/
theorem test_uartStart :
    after (exec .uartStart { running .uartStart .only with brr := some 0x45#16 }) State.statusWord
      = some 0x000000E0#32 := by decide

/-- 7.2: UART_START after reset. -/
theorem test_uartStart_not_initialised :
    after (exec .uartStart (running .uartStart .only)) code = some (some .uartNotInitialised) := by decide

/-- 7.3, step 7: UART_STOP with an empty stage. -/
theorem test_uartStop :
    after (exec .uartStop (writing .uartStop .only)) State.statusWord = some 0x000000C0#32 := by decide

/-- 7.3, steps 5 and 6: UART_STOP holds while the stage is full. -/
theorem test_uartStop_holds :
    after (exec .uartStop { writing .uartStop .only with uTxrdy := false, uTc := false, uStage := some 0x39#8 })
      State.statusWord = some 0x00000021#32 := by decide

/-- 7.2: WRITE_TEXT 0xFC over 0x41 to 0x44 reaches the end of TMEM. -/
theorem test_writeText_unterminated :
    after (exec (.writeText (.tmem 0xFC#8))
        { writing (.writeText (.tmem 0xFC#8)) .t1 with
          tmem := [(0xFC, 0x41#8), (0xFD, 0x42#8), (0xFE, 0x43#8), (0xFF, 0x44#8)], textPos := 4 })
      code = some (some (.textUnterminated 0x100)) := by decide

/-- 7.2: WRITE_TEXT STR with STR invalid. -/
theorem test_writeText_invalid_string :
    after (exec (.writeText .str) (writing (.writeText .str) .t0)) code = some (some (.uninitRead .str)) := by decide

/-- 7.3, step 1: WRITE_U8 9 writes DBUF = "9", NUL. -/
theorem test_writeU8 :
    after (exec (.writeU8 (.imm 9#8)) (writing (.writeU8 (.imm 9#8)) .n0)) (fun t => sentBytes t.dbuf)
      = some [0x39#8] := by decide

/-- 7.1: WRITE_U8 RES with RES = 0x000001FF sends "255". -/
theorem test_writeU8_res :
    after (exec (.writeU8 .res) { writing (.writeU8 .res) .n0 with res := some 0x000001FF#32 })
      (fun t => sentBytes t.dbuf) = some [0x32#8, 0x35#8, 0x35#8] := by decide

/-- 7.1: WRITE_U16 10001. -/
theorem test_writeU16 :
    after (exec (.writeU16 (.imm 10001#16)) (writing (.writeU16 (.imm 10001#16)) .n0)) (fun t => sentBytes t.dbuf)
      = some [0x31#8, 0x30#8, 0x30#8, 0x30#8, 0x31#8] := by decide

/-- 7.1: WRITE_U16 RES with RES = 0xFFFFFFFE sends "65534". -/
theorem test_writeU16_res :
    after (exec (.writeU16 .res) { writing (.writeU16 .res) .n0 with res := some 0xFFFFFFFE#32 })
      (fun t => sentBytes t.dbuf) = some [0x36#8, 0x35#8, 0x35#8, 0x33#8, 0x34#8] := by decide

/-! ### The environment and HOST -/

/-- 4.1, step 2: E_START makes STATUS 0xD3 and puts S and the address on the bus. -/
theorem test_eStart :
    ((eStart { running (.i2cWrite 0x40#7 1#2) .w1 with start := true, sadd := 0x40#7, nbytes := 1#2 }).statusWord,
      (eStart { running (.i2cWrite 0x40#7 1#2) .w1 with start := true, sadd := 0x40#7, nbytes := 1#2 }).busTrace)
      = (0x000000D3#32, [.start, .addr 0x40#7 .write]) := by decide

/-- 4.1, step 4: E_TX of the last byte makes STATUS 0xD9. -/
theorem test_eTx_last :
    (eTx { running (.i2cWrite 0x40#7 1#2) .w2 with busact := true, nbytes := 1#2, txd := some 0x3E#8 }).statusWord
      = 0x000000D9#32 := by decide

/-- R118: E_RX of a read of one byte sets I2C_RXRDY and I2C_TC at once. -/
theorem test_eRx_last :
    (let t := eRx { running (.i2cRead 0x40#7 1#2) .rd1 with
        busact := true, dir := .read, nbytes := 1#2, draws := [0xAB#8] };
      (t.rxrdy, t.tc, t.rxd, t.busTrace)) = (true, true, 0xAB#8, [.rd 0xAB#8]) := by decide

/-- 4.1, step 6: E_STOP makes STATUS 0xC1. -/
theorem test_eStop :
    (eStop { running (.i2cWrite 0x40#7 1#2) .w3 with
      busact := true, nbytes := 1#2, cnt := 1#2, tc := true, stop := true }).statusWord = 0x000000C1#32 := by decide

/-- 7.3, step 6: E_LINE makes STATUS 0xE1. -/
theorem test_line :
    (let t := lineStep { writing .uartStop .only with uTxrdy := false, uTc := false, uStage := some 0x39#8 };
      (t.statusWord, t.lineTrace)) = (0x000000E1#32, [0x39#8]) := by decide

/-- 3: reads right after reset. -/
theorem test_reads_after_reset :
    hostRead State.reset 32 0x004#12 = .ok 0x000000C0#32 ∧ hostRead State.reset 32 0x00C#12 = .ok 0#32
    ∧ hostRead State.reset 32 0x010#12 = .error (.uninitRead (.pbuf 0))
    ∧ hostRead State.reset 32 0x100#12 = .error (.uninitRead (.tmem 0))
    ∧ hostRead State.reset 32 0x000#12 = .error (.accessRight 0x000#12)
    ∧ hostRead State.reset 32 0x022#12 = .error (.badAccess 0x022#12)
    ∧ hostRead State.reset 32 0x020#12 = .error (.badOffset 0x020#12)
    ∧ hostRead State.reset 32 0x200#12 = .error (.badOffset 0x200#12) := by decide

/-- 3: accesses while a command runs. -/
theorem test_accesses_while_busy :
    hostRead (running .readDeviceId .w0) 32 0x014#12 = .error (.accessWhileBusy 0x014#12)
    ∧ hostRead (running .readDeviceId .w0) 32 0x000#12 = .error (.accessWhileBusy 0x000#12)
    ∧ hostRead (running .readDeviceId .w0) 32 0x020#12 = .error (.badOffset 0x020#12)
    ∧ hostRead (running .readDeviceId .w0) 32 0x004#12 = .ok 0x000000C1#32 := by decide

/-- R67's example: HW 0x010, 0x00000007 sets PBUF = [0x07, 0x00, 0x00]. -/
theorem test_write_pbuf :
    (hostStep { State.reset with host := [.hw 0x010#12 0x00000007#32] }).pbuf = ⟨some 0x07#8, some 0x00#8, some 0x00#8⟩
    ∧ code (hostStep { State.reset with host := [.hw 0x010#12 0x01000007#32] })
        = some (.reservedBits 0x010#12 0x01000007#32) := by decide

/-- R94's example: LDTEXT 0x10, "\r\n" is HW 0x110, 0x00000A0D. -/
theorem test_ldtext : hostLdText 0x10 [0x0D#8, 0x0A#8] = [.hw 0x110#12 0x00000A0D#32] := by decide

/-- An illegal word, as the host's check places it, is refused by the acceptance (R80). -/
theorem test_place_illegal :
    after (step (State.reset.withFetchWord 32 0)) code = some (some (.illegalCommand 0x00000000#32)) := by decide

/-- A command, as the host's check places it, runs at the very next step. -/
theorem test_place_command :
    after (step (State.reset.withFetchWord 32 0x30000045)) State.brr = some (some 0x0045#16) := by decide

/-- A faulted block takes no step (R200). -/
theorem test_faulted :
    step { idle with fault := some ⟨.uartNotInitialised, some .uartStart⟩ }
      = .fault (.halted ⟨.uartNotInitialised, some .uartStart⟩) := rfl

/-! ### Witnesses: states and operands that meet the hypotheses of each obligation -/

theorem witness_EncodedCommandDecodes :
    (Instr.i2cWrite 0x7F#7 3#2).wf = true ∧ (Instr.uartInit 0xFFFF#16).wf = true ∧ (Instr.writeU8 .res).wf = true := by
  decide

theorem witness_DecodedWordIsWellFormedAndReencodes : decode 0x3500FFFF#32 = .ok (.writeU16 (.imm 0xFFFF#16)) := by
  decide

theorem witness_IllegalWordsAreTheFiveCases :
    State.reset.busy = false ∧ decode 0x010003C0#32 = .error .reservedBit := by decide

theorem witness_StepMovesTheChosenAgent :
    (idle.config.wf = true ∧ idle.fault = none ∧ idle.sched = [] ∧ idle.busy = false)
    ∧ { idle with sched := [.line, .seq] }.sched = [.line, .seq]
    ∧ (running .mkstr .only).busy = true ∧ (running .mkstr .only).cur = some .mkstr := by decide

theorem witness_AcceptedWordIsTheCommandThatRuns :
    (let s := { idle with sched := [.host, .seq], host := [.write 32 0x000#12 0x12000000#32] };
      s.config.wf = true ∧ s.fault = none ∧ s.busy = false ∧ s.sched = [.host, .seq]
        ∧ s.host = [.write 32 0x000#12 0x12000000#32]) ∧ decode 0x12000000#32 = .ok .mkstr := by decide

theorem witness_CommandAcceptance :
    (idle.busy = false ∧ decode 0x12000000#32 = .ok .mkstr ∧ decode 0x00000000#32 = .error .unknownOpcode)
    ∧ { idle with host := [.write 32 0x000#12 0x12000000#32] }.host = [.write 32 0x000#12 0x12000000#32]
    ∧ onePhase .uartStop = true ∧ numberWrite (.writeU8 .res) = true
    ∧ after (seqStep (running .uartStart .only)) (fun t => t.fault.isSome) = some true := by decide

theorem witness_FaultWritesOnlyTheRecord :
    (running .uartStart .only).fault = none
    ∧ after (agentStep .seq (running .uartStart .only)) code = some (some .uartNotInitialised)
    ∧ after (agentStep .host { idle with host := [.read 16 0x004#12] }) code = some (some (.badAccess 0x004#12))
    ∧ { idle with fault := some ⟨.busNotEnabled, none⟩ }.fault ≠ none := by decide

theorem witness_DescriptorLookup :
    idle.config.wf = true ∧ (∀ d ∈ idle.config.desc, d.addr ≠ 0x01#6)
    ∧ (let c := { Config.default with desc := [] };
        measures c .readVoltage = some (0x05#6, false) ∧ (∀ d ∈ c.desc, d.addr ≠ 0x05#6))
    ∧ (running .readVoltage .w0).kIdx = 0 ∧ (running .readVoltage .w0).ph = .w0 := by decide

/-- Boundary offsets of each clause: shape, map, BUSY, rights, reserved bits, validity. -/
theorem witness_HostAccessCheckOrder :
    (0x002#12).extractLsb' 0 2 ≠ 0#2 ∧ (0xFFF#12).extractLsb' 0 2 ≠ 0#2
    ∧ (∀ off ∈ [0x020#12, 0x0FC#12, 0x200#12, 0xFFC#12],
        off.extractLsb' 0 2 = 0#2 ∧ (0x020 ≤ off.toNat ∧ off.toNat < 0x100 ∨ 0x200 ≤ off.toNat))
    ∧ (∀ off ∈ [0x000#12, 0x004#12, 0x01C#12, 0x100#12, 0x1FC#12],
        off.extractLsb' 0 2 = 0#2 ∧ (off.toNat < 0x020 ∨ 0x100 ≤ off.toNat ∧ off.toNat < 0x200))
    ∧ (running .mkstr .only).busy = true ∧ idle.busy = false
    ∧ (0x00000002#32).extractLsb' 1 31 ≠ 0#31 ∧ (0x01000007#32).extractLsb' 24 8 ≠ 0#8
    ∧ idle.pbuf.get 2 = none ∧ idle.res = none ∧ idle.str = none ∧ idle.brr = none
    ∧ idle.tmem.read (0x1FC - 0x100 + 3) = none
    ∧ { idle with fault := some ⟨.busNotEnabled, none⟩ }.fault ≠ none := by decide

/-- Each register with a value, and without one; the first and the last word of the window. -/
theorem witness_HostReadReturns :
    idle.busy = false
    ∧ (let s := { idle with pbuf := ⟨some 1#8, some 2#8, none⟩ };
        s.busy = false ∧ s.pbuf.get 2 = none ∧ ∀ j, j < 2 → (s.pbuf.get j).isSome = true)
    ∧ { idle with pbuf := ⟨some 1#8, some 2#8, some 3#8⟩ }.pbuf = ⟨some 1#8, some 2#8, some 3#8⟩
    ∧ { idle with res := some 5#32 }.res = some 5#32 ∧ idle.res = none
    ∧ { idle with str := some ⟨1#8, 2#8, 0#8⟩ }.str = some ⟨1#8, 2#8, 0#8⟩ ∧ idle.str = none
    ∧ { idle with brr := some 5#16 }.brr = some 5#16 ∧ idle.brr = none
    ∧ (let s := { idle with tmem := [(252, 1#8), (253, 2#8), (254, 3#8), (255, 4#8)] };
        s.tmem.read (4 * 63) = some 1#8 ∧ s.tmem.read (4 * 63 + 1) = some 2#8 ∧ s.tmem.read (4 * 63 + 2) = some 3#8
          ∧ s.tmem.read (4 * 63 + 3) = some 4#8 ∧ s.tmem.read (4 * 0) = none)
    ∧ (let s := { idle with tmem := [(0, 1#8), (1, 2#8), (2, 3#8)] };
        s.tmem.read (4 * 0 + 3) = none ∧ ∀ m, m < 3 → (s.tmem.read (4 * 0 + m)).isSome = true) := by decide

theorem witness_HostWriteEffects :
    idle.busy = false ∧ decode 0x12000000#32 = .ok .mkstr ∧ decode 0#32 = .error .unknownOpcode
    ∧ (0x00000002#32).extractLsb' 1 31 ≠ 0#31 ∧ (0x00000001#32).extractLsb' 1 31 = 0#31
    ∧ (0x01000007#32).extractLsb' 24 8 ≠ 0#8 ∧ (0x00FFFFFF#32).extractLsb' 24 8 = 0#8 := by decide

theorem witness_TmemWindowReadsBack :
    (63 < 64) ∧ ((hostWrite idle 32 (BitVec.ofNat 12 (0x100 + 4 * 63)) 0x64636261#32).toOption.map State.tmem)
      = some [(252, 0x61#8), (253, 0x62#8), (254, 0x63#8), (255, 0x64#8)] := by decide

theorem witness_HostStepRunsItsNextOperation :
    idle.host = [] ∧ (hostRead idle 32 0x004#12).toOption = some 0xC0#32
    ∧ hostRead idle 32 0x014#12 = .error (.uninitRead .res)
    ∧ ((hostWrite idle 32 0x008#12 0#32).toOption.map State.pe) = some false
    ∧ (hostWrite idle 32 0x004#12 0#32).toOption.isNone = true
    ∧ { idle with host := [.waitIdle] }.host = [.waitIdle] := by decide

theorem witness_HostCannotDisturbARunningCommand :
    (let s := { running .uartStop .only with host := [.waitIdle] };
      s.busy = true ∧ s.fault = none ∧ after (agentStep .host s) State.fault = some none) := by decide

theorem witness_MemReadChecksEndThenValidity :
    (256 ≤ 256 ∧ 255 < 256) ∧ idle.tmem.read 255 = none
    ∧ { idle with tmem := [(255, 7#8)] }.tmem.read 255 = some 7#8
    ∧ after (exec .mkstr (running .mkstr .only)) State.tmem = some [] := by decide

/-- Every phase of I2C_WRITE, and each of its faults. -/
theorem witness_I2cWritePhases :
    (let s := { running (.i2cWrite 0x40#7 2#2) .w0 with pe := false }; s.ph = .w0 ∧ s.pe = false)
    ∧ (let s := { running (.i2cWrite 0x40#7 2#2) .w0 with pbuf := ⟨some 1#8, none, none⟩ };
        s.ph = .w0 ∧ s.pe = true ∧ 1 < (2#2).toNat ∧ (∀ j, j < 1 → (s.pbuf.get j).isSome = true) ∧ s.pbuf.get 1 = none)
    ∧ (let s := { running (.i2cWrite 0x40#7 2#2) .w0 with pbuf := ⟨some 1#8, some 2#8, none⟩ };
        s.ph = .w0 ∧ s.pe = true ∧ ∀ k, k < (2#2).toNat → (s.pbuf.get k).isSome = true)
    ∧ (let s := { running (.i2cWrite 0x40#7 2#2) .w1 with pbuf := ⟨some 1#8, some 2#8, none⟩, txrdy := true, idx := 1 };
        s.ph = .w1 ∧ s.idx < (2#2).toNat ∧ s.txrdy = true ∧ s.pbuf.get s.idx = some 2#8)
    ∧ (let s := running (.i2cWrite 0x40#7 2#2) .w1; s.ph = .w1 ∧ s.idx < (2#2).toNat ∧ s.txrdy = false)
    ∧ (let s := { running (.i2cWrite 0x40#7 2#2) .w2 with tc := true }; s.ph = .w2 ∧ s.tc = true)
    ∧ (let s := running (.i2cWrite 0x40#7 2#2) .w2; s.ph = .w2 ∧ s.tc = false)
    ∧ (let s := running (.i2cWrite 0x40#7 2#2) .w3; s.ph = .w3 ∧ s.stop = false)
    ∧ (let s := { running (.i2cWrite 0x40#7 2#2) .w3 with stop := true }; s.ph = .w3 ∧ s.stop = true) := by decide

/-- Every phase of I2C_READ, and its fault. -/
theorem witness_I2cReadPhases :
    (let s := { running (.i2cRead 0x40#7 2#2) .rd0 with pe := false }; s.ph = .rd0 ∧ s.pe = false)
    ∧ (let s := running (.i2cRead 0x40#7 2#2) .rd0; s.ph = .rd0 ∧ s.pe = true)
    ∧ (let s := { running (.i2cRead 0x40#7 2#2) .rd1 with rxrdy := true, idx := 1 };
        s.ph = .rd1 ∧ s.idx < (2#2).toNat ∧ s.rxrdy = true)
    ∧ (let s := running (.i2cRead 0x40#7 2#2) .rd1; s.ph = .rd1 ∧ s.idx < (2#2).toNat ∧ s.rxrdy = false)
    ∧ (let s := { running (.i2cRead 0x40#7 2#2) .rd2 with tc := true }; s.ph = .rd2 ∧ s.tc = true)
    ∧ (let s := running (.i2cRead 0x40#7 2#2) .rd2; s.ph = .rd2 ∧ s.tc = false)
    ∧ (let s := running (.i2cRead 0x40#7 2#2) .rd3; s.ph = .rd3 ∧ s.stop = false)
    ∧ (let s := { running (.i2cRead 0x40#7 2#2) .rd3 with stop := true }; s.ph = .rd3 ∧ s.stop = true) := by decide

/-- A composite command in each phase of its write and of its read. -/
theorem witness_TransactionPhasesAreShared :
    (let s := { running .readCurrent .w1 with pbuf := ⟨some 7#8, none, none⟩, txrdy := true };
      plan s.config .readCurrent s.kIdx = some (.write 1) ∧ s.ph = .w1 ∧ s.idx < 1 ∧ s.txrdy = true
        ∧ s.pbuf.get s.idx = some 7#8)
    ∧ (let s := running .readCurrent .w1; s.ph = .w1 ∧ s.idx < 1 ∧ s.txrdy = false)
    ∧ (let s := { running .readCurrent .w2 with tc := true }; s.ph = .w2 ∧ s.tc = true)
    ∧ (let s := running .readCurrent .w2; s.ph = .w2 ∧ s.tc = false)
    ∧ (let s := { running .readCurrent .w3 with stop := true }; s.ph = .w3 ∧ s.stop = true)
    ∧ (let s := { running .readCurrent .rd1 with kIdx := 1, rxrdy := true, idx := 2 };
      plan s.config .readCurrent s.kIdx = some (.read 3) ∧ s.ph = .rd1 ∧ s.idx < 3 ∧ s.rxrdy = true)
    ∧ (let s := { running .readCurrent .rd1 with kIdx := 1 }; s.ph = .rd1 ∧ s.idx < 3 ∧ s.rxrdy = false)
    ∧ (let s := { running .readCurrent .rd2 with kIdx := 1, tc := true }; s.ph = .rd2 ∧ s.tc = true)
    ∧ (let s := { running .readCurrent .rd2 with kIdx := 1 }; s.ph = .rd2 ∧ s.tc = false)
    ∧ (let s := { running .readCurrent .rd3 with kIdx := 1, stop := true }; s.ph = .rd3 ∧ s.stop = true) := by decide

/-- I2C_WRITE 0x40, 1 with its stop requested, the state after step 5 of 95_test_vectors.md 4.1. -/
def stopping : State :=
  { running (.i2cWrite 0x40#7 1#2) .w3 with
    pbuf := ⟨some 0x3E#8, none, none⟩, sadd := 0x40#7, nbytes := 1#2, idx := 1, busact := true, cnt := 1#2, tc := true,
    stop := true, busTrace := [.start, .addr 0x40#7 .write, .wr 0x3E#8] }

/-- I2C_READ 0x40, 1 with its byte taken, before its stop. -/
def received : State :=
  { running (.i2cRead 0x40#7 1#2) .rd2 with
    pbuf := ⟨some 0xAB#8, none, none⟩, sadd := 0x40#7, dir := .read, nbytes := 1#2, idx := 1, busact := true,
    cnt := 1#2, tc := true, busTrace := [.start, .addr 0x40#7 .read, .rd 0xAB#8] }

/-- UART_STOP running while the stage holds a byte. -/
def draining : State := { writing .uartStop .only with uTxrdy := false, uTc := false, uStage := some 0x39#8 }

theorem inv_idle : StateInv idle where
  config := by decide
  memory := rfl
  console := ⟨rfl, rfl, fun _ => rfl⟩
  strNul := by intro t h; cases h
  brrNonzero := by intro d h; cases h
  index := by decide
  trace := rfl
  idle := fun _ _ => ⟨rfl, rfl, rfl, rfl, rfl, rfl, rfl, rfl⟩
  running := by intro _ h; cases h

theorem inv_stopping : StateInv stopping where
  config := by decide
  memory := rfl
  console := ⟨rfl, rfl, fun _ => rfl⟩
  strNul := by intro t h; cases h
  brrNonzero := by intro d h; cases h
  index := by decide
  trace := by decide
  idle := by intro _ h; cases h
  running := fun _ _ =>
    ⟨_, rfl, rfl, rfl, ⟨1, rfl⟩, .inl ⟨rfl, rfl, rfl, rfl, rfl, rfl, by decide, rfl⟩, fun _ => rfl⟩

theorem inv_received : StateInv received where
  config := by decide
  memory := rfl
  console := ⟨rfl, rfl, fun _ => rfl⟩
  strNul := by intro t h; cases h
  brrNonzero := by intro d h; cases h
  index := by decide
  trace := by decide
  idle := by intro _ h; cases h
  running := fun _ _ =>
    ⟨_, rfl, rfl, rfl, 1, rfl, by decide, rfl, rfl, rfl, rfl, rfl, rfl, rfl, rfl, rfl, rfl, by decide, by decide⟩

theorem inv_draining : StateInv draining where
  config := by decide
  memory := rfl
  console := ⟨rfl, rfl, by intro h; cases h⟩
  strNul := by intro t h; cases h
  brrNonzero := by intro d h; cases h; decide
  index := by decide
  trace := rfl
  idle := by intro _ h; cases h
  running := fun _ _ => ⟨_, rfl, rfl, ⟨rfl, rfl, rfl, rfl, rfl, rfl, rfl, rfl⟩, rfl⟩

/-- UART_START running on a console that no UART_INIT has set up. -/
theorem inv_starting : StateInv (running .uartStart .only) where
  config := by decide
  memory := rfl
  console := ⟨rfl, rfl, fun _ => rfl⟩
  strNul := by intro t h; cases h
  brrNonzero := by intro d h; cases h
  index := by decide
  trace := rfl
  idle := by intro _ h; cases h
  running := fun _ _ => ⟨_, rfl, rfl, ⟨rfl, rfl, rfl, rfl, rfl, rfl, rfl, rfl⟩, rfl⟩

theorem witness_StartAndStopSteps :
    ({ idle with start := true }.start = true ∧ idle.stop = false ∧ idle.busact = false ∧ idle.start = false)
    ∧ (received.stop = false ∧ after (agentStep .seq received) State.stop = some true)
    ∧ StateInv stopping ∧ stopping.fault = none ∧ stopping.stop = true :=
  ⟨by decide, by decide, inv_stopping, rfl, rfl⟩

/-- A byte that is not the last and one that is; a read with bytes left, from a given byte and from a free one. -/
theorem witness_ByteSteps :
    (let s := { running (.i2cWrite 0x40#7 2#2) .w1 with busact := true, nbytes := 2#2, txd := some 1#8 };
      s.busact = true ∧ s.dir = .write ∧ s.txd = some 1#8 ∧ s.cnt + 1#2 < s.nbytes)
    ∧ (let s := { running (.i2cWrite 0x40#7 2#2) .w2 with busact := true, nbytes := 2#2, cnt := 1#2, txd := some 1#8 };
      s.busact = true ∧ s.dir = .write ∧ s.txd = some 1#8 ∧ ¬s.cnt + 1#2 < s.nbytes)
    ∧ (let s := { running (.i2cRead 0x40#7 3#2) .rd1 with busact := true, dir := .read, nbytes := 3#2, cnt := 2#2 };
      s.busact = true ∧ s.dir = .read ∧ s.rxrdy = false ∧ s.cnt < s.nbytes ∧ s.draws = []
        ∧ { s with draws := [9#8] }.draws = [9#8])
    ∧ idle.busact = false
    ∧ StateInv received ∧ received.fault = none ∧ received.busy = true ∧ received.ph = .rd2 :=
  ⟨by decide, by decide, by decide, rfl, inv_received, rfl, rfl, rfl⟩

theorem witness_I2cWriteRunsToDone :
    (let s := { running (.i2cWrite 0x40#7 1#2) .w0 with pbuf := ⟨some 0x3E#8, none, none⟩, sched := writeSched 1 };
      s.config.wf = true ∧ s.fault = none ∧ s.busy = true ∧ s.cur = some (.i2cWrite 0x40#7 1#2) ∧ s.ph = .w0
        ∧ s.pe = true ∧ s.busIdle ∧ (1#2 ≠ 0#2) ∧ [0x3E#8].length = (1#2).toNat
        ∧ (∀ (k : Nat) (b : Byte), [0x3E#8][k]? = some b → s.pbuf.get k = some b)
        ∧ s.sched = writeSched (1#2).toNat ++ []) := by
  refine ⟨by decide, rfl, rfl, rfl, rfl, rfl, ⟨rfl, rfl, rfl, rfl, rfl, rfl, rfl, rfl⟩, by decide, rfl, ?_, rfl⟩
  intro k b h
  rcases k with _ | k
  · simpa [Pbuf.get] using h
  · simp at h

theorem witness_I2cReadRunsToDone :
    (let s := { running (.i2cRead 0x7F#7 3#2) .rd0 with draws := [1#8, 2#8, 3#8, 4#8], sched := readSched 3 ++ [Agent.host] };
      s.config.wf = true ∧ s.fault = none ∧ s.busy = true ∧ s.cur = some (.i2cRead 0x7F#7 3#2) ∧ s.ph = .rd0
        ∧ s.pe = true ∧ s.busIdle ∧ (3#2 ≠ 0#2) ∧ [1#8, 2#8, 3#8].length = (3#2).toNat
        ∧ s.draws = [1#8, 2#8, 3#8] ++ [4#8] ∧ s.sched = readSched (3#2).toNat ++ [.host]) :=
  ⟨by decide, rfl, rfl, rfl, rfl, rfl, ⟨rfl, rfl, rfl, rfl, rfl, rfl, rfl, rfl⟩, by decide, rfl, rfl, rfl⟩

theorem witness_ScaleRoundsDown :
    (1000000 < 2 ^ 32 ∧ 19 ≤ 31 ∧ 2 ^ 32 - 1 < 2 ^ 32 ∧ 31 ≤ 31) ∧ -2 ^ 19 ≤ (BitVec.ofInt 32 (-524288)).toInt
      ∧ (BitVec.ofInt 32 524287).toInt < 2 ^ 19 := by decide

theorem witness_CurrentScaleLaws :
    -2 ^ 19 ≤ (BitVec.ofInt 32 (-524288)).toInt
      ∧ (BitVec.ofInt 32 (-524288)).toInt ≤ (BitVec.ofInt 32 524287).toInt ∧ (BitVec.ofInt 32 524287).toInt < 2 ^ 19
      ∧ (BitVec.ofInt 32 (-1)).toInt < 0 ∧ (BitVec.ofInt 32 (-1)).toInt % 8192 ≠ 0 := by decide

theorem witness_CodecRoundTrip :
    -2 ^ 19 ≤ (0xFFF80000#32).toInt ∧ (0xFFF80000#32).toInt < 2 ^ 19 ∧ (0x000FFFFF#32).toNat < 2 ^ 20
      ∧ (0x00000FFF#32).toNat < 2 ^ 12 := by decide

theorem witness_DecodeRanges : (0x0F#8).extractLsb' 4 4 = 0#4 := by decide

/-- No descriptor; a missing byte of each width; a 16-bit and a 24-bit register; a scale of 1. -/
theorem witness_DecodeCommand :
    idle.desc 0x01#6 = none
    ∧ (idle.desc 0x07#6 = some ⟨0x07#6, .w24, true, 1000000, 19⟩ ∧ idle.desc 0x06#6 = some ⟨0x06#6, .w16, false, 1, 0⟩)
    ∧ (let s := { idle with pbuf := ⟨some 1#8, some 2#8, none⟩ };
        2 < descBytes ⟨0x07#6, .w24, true, 1000000, 19⟩ ∧ s.pbuf.get 2 = none
          ∧ (∀ j, j < 2 → (s.pbuf.get j).isSome = true) ∧ s.pbuf.b0 = some 1#8 ∧ s.pbuf.b1 = some 2#8)
    ∧ { idle with pbuf := ⟨some 1#8, some 2#8, some 3#8⟩ }.pbuf.b2 = some 3#8 := by decide

theorem witness_ScaleAndMkstrCommands :
    idle.desc 0x3A#6 = none ∧ idle.desc 0x05#6 = some ⟨0x05#6, .w24, true, 1, 0⟩ ∧ idle.res = none
    ∧ { idle with res := some 7#32 }.res = some 7#32
    ∧ (let s := { idle with pbuf := ⟨some 1#8, none, none⟩ };
        s.pbuf.get 1 = none ∧ ∀ j, j < 1 → (s.pbuf.get j).isSome = true)
    ∧ (let s := { idle with pbuf := ⟨some 1#8, some 2#8, none⟩ }; s.pbuf.b0 = some 1#8 ∧ s.pbuf.b1 = some 2#8) := by
  decide

theorem witness_SensorInitSteps :
    (let s := { running .sensorInit .w0 with config := configTest, kIdx := 3 };
      s.kIdx = 3 ∧ s.ph = .w0 ∧ s.pe = true ∧ s.config.init = some initTest
        ∧ [(s.config.regs.config, s.config.initWords.rst), (s.config.initWords.rangeReg, s.config.initWords.range),
            (s.config.regs.adcConfig, s.config.initWords.adc),
            (s.config.regs.shuntCal, s.config.initWords.shuntCal)][3]? = some (0x02#6, 0x1000#16))
    ∧ { running .sensorInit .w0 with pe := false }.pe = false
    ∧ (let s := { running .sensorInit .w3 with kIdx := 2 }; s.ph = .w3 ∧ s.stop = false ∧ s.kIdx < 3) := by decide

theorem witness_ReadMfrIdSteps :
    (let s := { running .readMfrId .w0 with pe := false }; s.kIdx = 0 ∧ s.ph = .w0 ∧ s.pe = false)
    ∧ (let s := running .readMfrId .w0; s.kIdx = 0 ∧ s.ph = .w0 ∧ s.pe = true)
    ∧ (let s := running .readMfrId .w3; s.kIdx = 0 ∧ s.ph = .w3 ∧ s.stop = false)
    ∧ (let s := { running .readMfrId .rd0 with kIdx := 1 }; s.kIdx = 1 ∧ s.ph = .rd0 ∧ s.pe = true)
    ∧ (let s := { running .readMfrId .rd3 with kIdx := 1 }; s.kIdx = 1 ∧ s.ph = .rd3 ∧ s.stop = false)
    ∧ (let s := { running .readMfrId .k2 with kIdx := 2, pbuf := ⟨some 0x54#8, some 0x49#8, none⟩ };
        s.kIdx = 2 ∧ s.ph = .k2 ∧ s.pbuf.b0 = some 0x54#8 ∧ s.pbuf.b1 = some 0x49#8) := by decide

theorem witness_NumericReadsNameTheirRegister :
    Config.default.mode = .bug ∧ (running .readEnergy .w0).kIdx < 2
    ∧ (let s := { running .readEnergy .w0 with config := { Config.default with mode := .dedicated } };
        s.config.mode = .dedicated ∧ s.kIdx = 0 ∧ s.ph = .w0 ∧ s.desc s.config.regs.energy = none
          ∧ s.desc s.config.regs.charge = none) := by decide

theorem witness_SensorReadSteps :
    (let s := { running .readPower .w0 with config := { Config.default with desc := [] } };
      measures s.config .readPower = some (0x08#6, false) ∧ s.desc 0x08#6 = none ∧ s.kIdx = 0 ∧ s.ph = .w0)
    ∧ (let s := running .readPower .w0;
      measures s.config .readPower = some (0x08#6, false) ∧ s.desc 0x08#6 = some ⟨0x08#6, .w24, false, 1, 0⟩
        ∧ s.kIdx = 0 ∧ s.ph = .w0 ∧ s.pe = true ∧ { s with pe := false }.pe = false)
    ∧ (let s := running .readPower .w3; s.kIdx = 0 ∧ s.ph = .w3 ∧ s.stop = false)
    ∧ (let s := { running .readPower .rd0 with kIdx := 1 }; s.kIdx = 1 ∧ s.ph = .rd0 ∧ s.pe = true)
    ∧ (let s := { running .readPower .rd3 with kIdx := 1 }; s.kIdx = 1 ∧ s.ph = .rd3 ∧ s.stop = false)
    ∧ (let s := { running .readPower .k2 with kIdx := 2, pbuf := ⟨some 1#8, some 2#8, some 3#8⟩ };
        s.kIdx = 2 ∧ s.ph = .k2 ∧ s.pbuf.b0 = some 1#8 ∧ s.pbuf.b1 = some 2#8 ∧ s.pbuf.b2 = some 3#8)
    ∧ (let s := { running .readTemperature .k2 with kIdx := 2, pbuf := ⟨some 1#8, some 2#8, none⟩ };
        measures s.config .readTemperature = some (0x06#6, false) ∧ s.desc 0x06#6 = some ⟨0x06#6, .w16, false, 1, 0⟩
          ∧ s.kIdx = 2 ∧ s.ph = .k2 ∧ s.pbuf.b0 = some 1#8 ∧ s.pbuf.b1 = some 2#8) := by decide

theorem witness_NumericReadRunsToDone :
    (let s := { running .readCurrent .w0 with
        draws := [0x85#8, 0xEE#8, 0x0F#8], sched := writeSched 1 ++ readSched 3 ++ [Agent.seq] };
      s.config.wf = true ∧ s.fault = none ∧ s.busy = true ∧ s.cur = some .readCurrent
        ∧ measures s.config .readCurrent = some (0x07#6, true)
        ∧ s.desc 0x07#6 = some ⟨0x07#6, .w24, true, 1000000, 19⟩ ∧ s.ph = .w0 ∧ s.kIdx = 0 ∧ s.pe = true
        ∧ s.busIdle ∧ s.draws = [0x85#8, 0xEE#8, 0x0F#8] ++ []
        ∧ measured ⟨0x07#6, .w24, true, 1000000, 19⟩ true [0x85#8, 0xEE#8, 0x0F#8] = some 0xFFF172B5#32
        ∧ s.sched = writeSched 1 ++ readSched [0x85#8, 0xEE#8, 0x0F#8].length ++ [.seq] ++ []) :=
  ⟨by decide, rfl, rfl, rfl, rfl, by decide, rfl, rfl, rfl, ⟨rfl, rfl, rfl, rfl, rfl, rfl, rfl, rfl⟩, rfl, by decide, rfl⟩

theorem witness_MfrIdReadRunsToDone :
    (let s := { running .readMfrId .w0 with
        draws := [0x54#8, 0x49#8], sched := writeSched 1 ++ readSched 2 ++ [Agent.seq] };
      s.config.wf = true ∧ s.fault = none ∧ s.busy = true ∧ s.cur = some .readMfrId ∧ s.ph = .w0 ∧ s.kIdx = 0
        ∧ s.pe = true ∧ s.busIdle ∧ s.draws = 0x54#8 :: 0x49#8 :: []
        ∧ s.sched = writeSched 1 ++ readSched 2 ++ [.seq] ++ []) :=
  ⟨by decide, rfl, rfl, rfl, rfl, rfl, rfl, ⟨rfl, rfl, rfl, rfl, rfl, rfl, rfl, rfl⟩, rfl, rfl⟩

theorem witness_SensorInitRunsToDone :
    (let s := { running .sensorInit .w0 with
        config := configTest, sched := writeSched 3 ++ writeSched 3 ++ writeSched 3 ++ writeSched 3 };
      s.config.wf = true ∧ s.fault = none ∧ s.busy = true ∧ s.cur = some .sensorInit ∧ s.ph = .w0 ∧ s.kIdx = 0
        ∧ s.pe = true ∧ s.busIdle ∧ s.config.init = some initTest
        ∧ s.sched = writeSched 3 ++ writeSched 3 ++ writeSched 3 ++ writeSched 3 ++ []) :=
  ⟨by decide, rfl, rfl, rfl, rfl, rfl, rfl, ⟨rfl, rfl, rfl, rfl, rfl, rfl, rfl, rfl⟩, rfl, rfl⟩

theorem witness_ConsoleLifecycleCommands :
    (writing (.uartInit 1#16) .only).uEn = true ∧ idle.uEn = false ∧ idle.brr = none
    ∧ (writing .uartStart .only).brr = some 0x45#16 ∧ draining.uTc = false ∧ idle.uTc = true ∧ StateInv idle :=
  ⟨rfl, rfl, rfl, rfl, rfl, rfl, inv_idle⟩

/-- Both sources in each phase; TMEM at its last byte and past it. -/
theorem witness_WriteTextPhases :
    (running (.writeText .str) .t0).uEn = false ∧ (writing (.writeText .str) .t0).uEn = true
    ∧ (writing (.writeText .str) .t0).str = none ∧ (writing (.writeText .str) .t0).ph = .t0
    ∧ { idle with str := some ⟨0x54#8, 0x49#8, 0#8⟩ }.str.isSome = true
    ∧ (let s := { writing (.writeText (.tmem 0xFF#8)) .t1 with tmem := [(255, 0x41#8)] };
        s.ph = .t1 ∧ (0xFF#8).toNat + s.textPos < 256 ∧ s.tmem.read ((0xFF#8).toNat + s.textPos) = some 0x41#8
          ∧ 0x41#8 ≠ 0x00#8 ∧ 256 ≤ (0xFF#8).toNat + { s with textPos := 1 }.textPos)
    ∧ (writing (.writeText (.tmem 0xFF#8)) .t1).tmem.read 255 = none
    ∧ { idle with tmem := [(255, 0x00#8)] }.tmem.read 255 = some 0x00#8
    ∧ ([0x54#8, 0x49#8, 0x00#8][2]? = some 0x00#8 ∧ [0x54#8, 0x49#8, 0x00#8][1]? = some 0x49#8)
    ∧ (let s := writing (.writeText .str) (.t2 0x41#8); s.ph = .t2 0x41#8 ∧ s.uTxrdy = true)
    ∧ draining.uTxrdy = false := by decide

theorem witness_NumberWritePhases :
    (let s := writing (.writeU8 .res) .n0; s.ph = .n0 ∧ s.uEn = true ∧ s.res = none)
    ∧ { idle with res := some 7#32 }.res = some 7#32
    ∧ numberWrite (.writeU16 .res) = true ∧ (running (.writeU8 .res) .n0).uEn = false
    ∧ (let s := { writing (.writeU8 (.imm 9#8)) .n1 with dbuf := #v[0x39#8, 0#8, 0#8, 0#8, 0#8, 0#8] };
        s.ph = .n1 ∧ s.dbuf[s.idx]? = some 0x39#8 ∧ { s with idx := 1 }.dbuf[1]? = some 0x00#8)
    ∧ (let s := writing (.writeU8 (.imm 9#8)) (.n2 0x39#8); s.ph = .n2 0x39#8 ∧ s.uTxrdy = true)
    ∧ draining.uTxrdy = false := by decide

theorem witness_LineStepSendsTheStagedByte :
    draining.uStage = some 0x39#8 ∧ idle.uStage = none ∧ StateInv draining ∧ draining.uStage.isSome = true :=
  ⟨rfl, rfl, inv_draining, rfl⟩

theorem witness_FormatterPrintsDecimal : 255 ≤ 255 ∧ 65535 ≤ 65535 ∧ 0 ≤ 255 := by decide

theorem witness_FormatterOverwritesWhatIsSent :
    999 < 10 * placesU8.headD 0 ∧ 99999 < 10 * placesU16.headD 0 := by decide

theorem witness_TextReachesTheLine :
    (let s := { writing (.writeText (.tmem 0xFD#8)) .t0 with
        tmem := [(253, 0x54#8), (254, 0x49#8), (255, 0x00#8)], sched := textSched 2 };
      s.config.wf = true ∧ s.fault = none ∧ s.busy = true ∧ s.cur = some (.writeText (.tmem 0xFD#8)) ∧ s.ph = .t0
        ∧ s.uEn = true ∧ s.uStage = none ∧ s.uTxrdy = true ∧ s.uTc = true ∧ (∀ c ∈ [0x54#8, 0x49#8], c ≠ 0x00#8)
        ∧ (0xFD#8).toNat + [0x54#8, 0x49#8].length < 256
        ∧ s.tmem.read ((0xFD#8).toNat + [0x54#8, 0x49#8].length) = some 0x00#8
        ∧ (∀ (k : Nat) (c : Byte), [0x54#8, 0x49#8][k]? = some c → s.tmem.read ((0xFD#8).toNat + k) = some c)
        ∧ s.sched = textSched [0x54#8, 0x49#8].length ++ [])
    ∧ (∃ t more, some (StrReg.mk 0x54#8 0x49#8 0x00#8) = some t
        ∧ [t.b0, t.b1, t.b2] = [0x54#8, 0x49#8] ++ 0x00#8 :: more) := by
  refine ⟨⟨by decide, rfl, rfl, rfl, rfl, rfl, rfl, rfl, rfl, by decide, by decide, by decide, ?_, rfl⟩, _, [], rfl, rfl⟩
  intro k c h
  rcases k with _ | _ | k
  · simp at h; subst h; decide
  · simp at h; subst h; decide
  · simp at h

theorem witness_NumberReachesTheLineInDecimal :
    (let s := { writing (.writeU16 .res) .n0 with res := some 0xFFFFFFFE#32, sched := textSched 5 };
      s.config.wf = true ∧ s.fault = none ∧ s.busy = true ∧ s.cur = some (.writeU16 .res) ∧ s.ph = .n0 ∧ s.uEn = true
        ∧ s.uStage = none ∧ s.uTxrdy = true ∧ s.uTc = true ∧ s.res = some 0xFFFFFFFE#32
        ∧ 65534 = (0xFFFFFFFE#32).toNat % 65536 ∧ s.sched = textSched 5 ++ []) := by decide

theorem witness_LaunchMeetsTheInvariant : configTest.wf = true := by decide

theorem witness_StepKeepsTheInvariant :
    StateInv { draining with sched := [.line] }
      ∧ after (step { draining with sched := [.line] }) State.lineTrace = some [0x39#8] :=
  ⟨⟨inv_draining.config, rfl, inv_draining.console, inv_draining.strNul, inv_draining.brrNonzero,
    inv_draining.index, rfl, inv_draining.idle, inv_draining.running⟩, by decide⟩

/-- A run of two steps that ends with BUSY = 0. -/
theorem witness_ReachableBusIdleAndConsole :
    Config.default.wf = true
    ∧ after (runSteps 2 (launchState Config.default [.hw 0x000#12 0x30000045#32] [.host, .seq] []))
        (fun t => (t.busy, t.fault, t.brr)) = some (false, none, some 0x0045#16) := by decide

/-- A run whose one transaction is complete: I2C_READ 0x40, 1. -/
theorem witness_ReachableBusTraceIsWholeTransactions :
    Config.default.wf = true
    ∧ after (runSteps 9 (launchState Config.default [.hw 0x008#12 1#32, .hw 0x000#12 0x02000140#32]
          ([.host, .host] ++ readSched 1) [0xAB#8])) (fun t => (t.busy, t.fault.isNone, t.busTrace))
        = some (false, true, [.start, .addr 0x40#7 .read, .rd 0xAB#8, .stop]) := by decide

/-- A step of each agent: it sets or clears a flag. -/
theorem witness_FlagWriters :
    after (agentStep .seq (running .readVoltage .w0)) State.start = some true
    ∧ after (agentStep (.bus .eStop) stopping) State.stop = some false
    ∧ after (agentStep .line draining) State.uTxrdy = some true
    ∧ after (agentStep .host { idle with host := [.waitIdle] }) State.uTxrdy = some true := by decide

theorem witness_AgentsWriteOnlyTheirState :
    after (agentStep .seq (running .readVoltage .w0)) State.dir = some .write
    ∧ after (agentStep (.bus .eStop) stopping) State.busact = some false
    ∧ after (agentStep .line draining) State.lineTrace = some [0x39#8]
    ∧ after (agentStep .host { idle with host := [.hw 0x008#12 0#32] }) State.pe = some false := by decide

theorem witness_CommandFrames : after (exec .mkstr (running .mkstr .only)) State.uEn = some false := by decide

theorem witness_CommandFaultsAreListedAndEarly :
    StateInv (running .uartStart .only) ∧ (running .uartStart .only).fault = none
      ∧ (running .uartStart .only).busy = true ∧ (running .uartStart .only).cur = some .uartStart
      ∧ after (exec .uartStart (running .uartStart .only)) State.fault
          = some (some ⟨.uartNotInitialised, some .uartStart⟩) :=
  ⟨inv_starting, rfl, rfl, rfl, by decide⟩

/-- One running command that holds and one that does not. -/
theorem witness_HoldPointsAreTheListedOnes :
    (StateInv draining ∧ draining.fault = none ∧ draining.busy = true ∧ draining.cur = some .uartStop
      ∧ draining.holds .uartStop)
    ∧ (StateInv received ∧ received.cur = some (.i2cRead 0x40#7 1#2))
    ∧ { draining with host := [.waitIdle] }.hostWaits
    ∧ (hostStep { draining with host := [.waitIdle] }).host = [.waitIdle] ∧ draining.fault = none :=
  ⟨⟨inv_draining, rfl, rfl, rfl, rfl, rfl⟩, ⟨inv_received, rfl⟩, ⟨rfl, rfl, _, rfl⟩, by decide, rfl⟩

theorem witness_HoldsHaveNoTimeout :
    (let s := { draining with sched := List.replicate 3 Agent.seq ++ [Agent.line] };
      s.config.wf = true ∧ s.fault = none ∧ s.busy = true ∧ s.cur = some .uartStop ∧ s.holds .uartStop
        ∧ s.sched = List.replicate 3 .seq ++ [.line]) :=
  ⟨by decide, rfl, rfl, rfl, ⟨rfl, rfl⟩, rfl⟩

/-- UART_STOP with an empty stage ends at its first step; then nothing is left to do, whoever moves. -/
def shortRun (n : Nat) : State :=
  match n with
  | 0 => { running .uartStop .only with sched := [.seq] }
  | k + 1 => { running .uartStop .only with busy := false, sched := [], tick := k }

theorem shortRun_rests (k : Nat) (a : Agent) :
    agentStep a { running .uartStop .only with busy := false, sched := [], tick := k }
      = .next { running .uartStop .only with busy := false, sched := [], tick := k } := by
  cases a with
  | bus r => cases r <;> rfl
  | _ => rfl

theorem inv_shortRun : StateInv (shortRun 0) where
  config := by decide
  memory := rfl
  console := ⟨rfl, rfl, fun _ => rfl⟩
  strNul := by intro t h; cases h
  brrNonzero := by intro d h; cases h
  index := by decide
  trace := rfl
  idle := by intro _ h; cases h
  running := fun _ _ => ⟨_, rfl, rfl, ⟨rfl, rfl, rfl, rfl, rfl, rfl, rfl, rfl⟩, rfl⟩

theorem witness_FairRunsFinishEveryCommand :
    IsRun shortRun ∧ StateInv (shortRun 0) ∧ SeqFair shortRun ∧ BusFair shortRun ∧ LineFair shortRun
      ∧ (shortRun 0).busy = true := by
  have rests : ∀ (n : Nat) (f : State → Bool), (∀ k, f (shortRun (k + 1)) = false) →
      ¬∀ m, n ≤ m → f (shortRun m) = true := by
    intro n f h hm
    have := hm (n + 1) (by omega)
    rw [h n] at this
    cases this
  refine ⟨?_, inv_shortRun, ?_, ?_, ?_, rfl⟩
  · intro n
    cases n with
    | zero => rfl
    | succ k =>
      have hw : (shortRun (k + 1)).config.wf = true := by simp only [shortRun]; decide
      have h := shortRun_rests (k + 1) (Config.nextAgent k)
      simp only [step, hw, if_true]
      exact h
  · intro n h
    exact absurd h (rests n (fun s => s.busy) fun _ => rfl)
  · intro r n h
    exact absurd h (rests n (busEnabled r) fun _ => by cases r <;> rfl)
  · intro n h
    exact absurd h (rests n lineEnabled fun _ => rfl)

/-- Each side of the refusal: INIT words, and the descriptors of mode DEDICATED. -/
theorem witness_LaunchIsRefusedExactlyWhereR209Says :
    (Config.default.wf = true ∧ .sensorInit ∈ hostCommands (hostRun .sensorInit)
      ∧ .readEnergy ∈ hostCommands (hostRun .readEnergy) ∧ .readCharge ∈ hostCommands (hostRun .readCharge))
    ∧ Config.default.init.isSome = false ∧ configTest.init.isSome = true
    ∧ { Config.default with desc := [⟨0x06#6, .w16, true, 1, 0⟩] }.wf = false
    ∧ launch configTest (hostRun .sensorInit) [] [] = .next (launchState configTest (hostRun .sensorInit) [] []) :=
  ⟨by decide, by decide, by decide, by decide, rfl⟩

/-! ### Launches, HOST duties and the end of a run (R8, R209, R222, R223) -/

/-- 95_test_vectors.md 9, P3, with its INIT words. -/
def programP3 : List HostOp :=
  hostEnableBus ++ hostRun .sensorInit ++ hostRun .readMfrId ++ hostRun (.uartInit 0x0045#16) ++ hostRun .uartStart
    ++ hostRun (.writeText .str) ++ hostRun .uartStop ++ [.hr 0x018#12]

theorem test_launch_P3 :
    launchRefusal configTest programP3 = none ∧ launchRefusal Config.default programP3 = some .initNotSupplied
    ∧ launchAdmitted configTest programP3 = true := by decide

theorem test_launch_dedicated :
    launchRefusal { Config.default with mode := .dedicated } (hostRun .readEnergy) = some (.descriptorNotSupplied 0x09#6)
    ∧ launchRefusal { Config.default with mode := .dedicated } (hostRun .readCharge) = some (.descriptorNotSupplied 0x0A#6)
    ∧ launchRefusal Config.default (hostRun .readEnergy ++ hostRun .readCharge) = none
    ∧ launchRefusal (Config.ofParams RegAddrs.default false .dedicated [⟨0x09#6, .w24, false, 1, 0⟩] none)
        (hostRun .readEnergy) = none := by decide

/-- P3 meets the duties; P4 writes before UART_START; P5 lacks a WAITIDLE. -/
theorem test_duties_programs :
    hostDuties programP3 = true
    ∧ hostDuties (hostRun (.uartInit 0x0045#16) ++ hostRun (.writeU8 (.imm 9#8))) = false
    ∧ hostDuties (hostEnableBus ++ [.command .readDeviceId, .command .readCurrent, .waitIdle]) = false := by decide

/-- R222, step 4: each message block has its own UART_INIT and ends with its UART_STOP. -/
theorem test_duties_blocks :
    hostDuties (hostRun (.uartInit 1#16) ++ hostRun .uartStart ++ hostRun .uartStop ++ hostRun .uartStart
      ++ hostRun .uartStop) = false
    ∧ hostDuties (hostRun (.uartInit 1#16) ++ hostRun .uartStart ++ hostRun .uartStop ++ hostRun (.uartInit 1#16)
      ++ hostRun .uartStart ++ hostRun .uartStop) = true
    ∧ hostDuties (hostRun (.uartInit 1#16) ++ hostRun .uartStart) = false := by decide

/-- R222 asks for no wait after the last command, and nothing of a word that is no command. -/
theorem test_duties_not_asked :
    hostDuties [.command (.uartInit 1#16)] = true ∧ hostDuties [.hw 0x000#12 0x00000000#32] = true := by decide

/-- R8: a final state, and one that is not for its full stage. -/
theorem test_ending :
    idle.ending = .final idle.own ∧ { draining with busy := false }.ending = .goesOn
    ∧ { idle with fault := some ⟨.busNotEnabled, none⟩ }.observation.ending = .fault ⟨.busNotEnabled, none⟩ := by decide

/-- R8, R200: the run of a faulted block stays, and shows its fault. -/
theorem test_faulted_run :
    IsWholeRun (fun _ => { idle with fault := some ⟨.busNotEnabled, none⟩ })
    ∧ Shows (fun _ => { idle with fault := some ⟨.busNotEnabled, none⟩ }) 0 ⟨[], [], [], .fault ⟨.busNotEnabled, none⟩⟩ :=
  ⟨fun _ => .inr ⟨fun _ h => Option.some_ne_none _ (step_next h).2.1, rfl⟩, rfl, rfl, rfl, rfl⟩

/-- R176, R23, log 6: WRITE_TEXT from TMEM counts its characters past 5, and I stays in its range. -/
theorem test_writeText_counts_past_five :
    after (exec (.writeText (.tmem 0x00#8)) { writing (.writeText (.tmem 0x00#8)) (.t2 0x41#8) with textPos := 5 })
      (fun t => (t.textPos, t.idx, t.uStage)) = some (6, 0, some 0x41#8) := by decide

end Sys2Proof.Tests
end

section
/-!
PROOFS of the obligations of 20_memory.md, and their support: the register map at the offsets it holds and at those it
does not, one rule per check of R65 for a read and for a write, and what each register word needs valid (R62 to R67).
-/

namespace Sys2Proof.Machine

/-! ### The register map -/

/-- Check 1 of R65 as a proposition. -/
theorem goodShape_iff {width : Nat} {off : BitVec 12} :
    goodShape width off = true ↔ width = 32 ∧ off.extractLsb' 0 2 = 0#2 := by
  simp [goodShape]

/-- The alignment of R56 as a remainder. -/
theorem aligned_iff_mod_four {off : BitVec 12} : off.extractLsb' 0 2 = 0#2 ↔ off.toNat % 4 = 0 := by
  simp [← BitVec.toNat_inj, BitVec.extractLsb'_toNat]

/-- The reserved offsets of R61 and R63 have no register. -/
theorem hostReg_reserved {off : BitVec 12} (h : 0x020 ≤ off.toNat ∧ off.toNat < 0x100 ∨ 0x200 ≤ off.toNat) :
    hostReg off = none := by
  unfold hostReg
  repeat rw [if_neg (by rintro rfl; simp at h)]
  rw [if_neg (by omega)]

/-- An aligned offset of the window holds the TMEM word at its distance from 0x100 (R64). -/
theorem hostReg_window {off : BitVec 12} (hal : off.extractLsb' 0 2 = 0#2) (hlo : 0x100 ≤ off.toNat)
    (hhi : off.toNat < 0x200) : hostReg off = some (.tmem (off.toNat - 0x100)) := by
  have hmod := aligned_iff_mod_four.1 hal
  unfold hostReg
  repeat rw [if_neg (by rintro rfl; simp at hlo)]
  rw [if_pos (by omega)]

/-- An aligned offset below 0x020 is that of one of the eight named registers (R62). -/
theorem aligned_mem_named_offsets {off : BitVec 12} (hal : off.extractLsb' 0 2 = 0#2) (h : off.toNat < 0x020) :
    off ∈ [0x000#12, 0x004#12, 0x008#12, 0x00C#12, 0x010#12, 0x014#12, 0x018#12, 0x01C#12] := by
  have hmod := aligned_iff_mod_four.1 hal
  simp only [List.mem_cons, List.not_mem_nil, or_false, ← BitVec.toNat_inj, BitVec.toNat_ofNat]
  omega

/-- Every aligned offset that is not reserved has a register; CMD and STATUS stand at one offset each (R62). -/
theorem hostReg_mapped {off : BitVec 12} (hal : off.extractLsb' 0 2 = 0#2)
    (h : off.toNat < 0x020 ∨ 0x100 ≤ off.toNat ∧ off.toNat < 0x200) :
    ∃ r, hostReg off = some r ∧ (r = .cmd ↔ off = 0x000#12) ∧ (r = .status ↔ off = 0x004#12) := by
  rcases h with h | ⟨hlo, hhi⟩
  · have named : ∀ o ∈ [0x000#12, 0x004#12, 0x008#12, 0x00C#12, 0x010#12, 0x014#12, 0x018#12, 0x01C#12],
        ∃ r, hostReg o = some r ∧ (r = .cmd ↔ o = 0x000#12) ∧ (r = .status ↔ o = 0x004#12) := by
      simp [hostReg]
    exact named off (aligned_mem_named_offsets hal h)
  · have h0 : off ≠ 0x000#12 := by rintro rfl; simp at hlo
    have h4 : off ≠ 0x004#12 := by rintro rfl; simp at hlo
    exact ⟨_, hostReg_window hal hlo hhi, by simp [h0], by simp [h4]⟩

/-- The offset of word `j` of the window, as a number. -/
theorem windowOffset_toNat {j : Nat} (hj : j < 64) : (BitVec.ofNat 12 (0x100 + 4 * j)).toNat = 0x100 + 4 * j := by
  rw [BitVec.toNat_ofNat]
  omega

/-- The words of the window are aligned. -/
theorem windowOffset_aligned {j : Nat} (hj : j < 64) : (BitVec.ofNat 12 (0x100 + 4 * j)).extractLsb' 0 2 = 0#2 := by
  rw [aligned_iff_mod_four, windowOffset_toNat hj]
  omega

/-- Word `j` of the window holds the TMEM bytes from address `4 * j` on (R64). -/
theorem hostReg_windowOffset {j : Nat} (hj : j < 64) :
    hostReg (BitVec.ofNat 12 (0x100 + 4 * j)) = some (.tmem (4 * j)) := by
  have h := windowOffset_toNat hj
  rw [hostReg_window (windowOffset_aligned hj) (by omega) (by omega), h, Nat.add_sub_cancel_left]

/-! ### The checks of an access (R65) -/

section checks
variable {s : State} {width : Nat} {off : BitVec 12} {v : Word} {r : HostReg}

/-- Check 1 fails a read. -/
theorem hostRead_badAccess (hs : goodShape width off = false) : hostRead s width off = .error (.badAccess off) := by
  simp [hostRead, readTarget, hs]

/-- Check 1 fails a write. -/
theorem hostWrite_badAccess (hs : goodShape width off = false) :
    hostWrite s width off v = .error (.badAccess off) := by
  simp [hostWrite, writeTarget, hs]

/-- Check 2 fails a read. -/
theorem hostRead_badOffset (hs : goodShape width off = true) (hr : hostReg off = none) :
    hostRead s width off = .error (.badOffset off) := by
  simp [hostRead, readTarget, hs, hr]

/-- Check 2 fails a write. -/
theorem hostWrite_badOffset (hs : goodShape width off = true) (hr : hostReg off = none) :
    hostWrite s width off v = .error (.badOffset off) := by
  simp [hostWrite, writeTarget, hs, hr]

/-- Check 3 fails a read of any register but STATUS. -/
theorem hostRead_accessWhileBusy (hs : goodShape width off = true) (hr : hostReg off = some r) (hb : s.busy = true)
    (hne : r ≠ .status) : hostRead s width off = .error (.accessWhileBusy off) := by
  simp [hostRead, readTarget, hs, hr, hb, hne]

/-- Check 3 fails a write of any register. -/
theorem hostWrite_busy (hs : goodShape width off = true) (hr : hostReg off = some r) (hb : s.busy = true) :
    hostWrite s width off v = .error (if r = .cmd then .cmdWhileBusy v else .accessWhileBusy off) := by
  by_cases hc : r = .cmd <;> simp [hostWrite, writeTarget, hs, hr, hb, hc]

/-- On a block that is not busy a read comes to its register. -/
theorem hostRead_idle (hs : goodShape width off = true) (hr : hostReg off = some r) (hb : s.busy = false) :
    hostRead s width off = readReg s off r := by
  simp [hostRead, readTarget, hs, hr, hb]

/-- On a block that is not busy a write comes to its register. -/
theorem hostWrite_idle (hs : goodShape width off = true) (hr : hostReg off = some r) (hb : s.busy = false) :
    hostWrite s width off v = writeReg s off v r := by
  simp [hostWrite, writeTarget, hs, hr, hb]

end checks

/-! ### The validity of an element (R66) -/

/-- An element with a value passes R66's `require`. -/
@[simp] theorem require_some {α : Type} (e : Element) (x : α) : require e (some x) = .ok x := rfl

/-- An element without a value fails R66's `require`. -/
@[simp] theorem require_none {α : Type} (e : Element) : require e (none : Option α) = .error (.uninitRead e) := rfl

/-- Where an element below `n` has no value, there is a first such element. -/
theorem exists_first_invalid {α : Type} {f : Nat → Option α} {n : Nat} (h : ∃ k < n, f k = none) :
    ∃ k < n, f k = none ∧ ∀ j, j < k → (f j).isSome = true := by
  obtain ⟨hlt, hnone⟩ := Nat.find_spec h
  refine ⟨Nat.find h, hlt, hnone, fun j hj => ?_⟩
  have hmin := Nat.find_min h hj
  exact Option.isSome_iff_ne_none.2 fun hf => hmin ⟨by omega, hf⟩

/-- PBUF with its three bytes valid. -/
theorem State.pbufWord_ok {s : State} {b0 b1 b2 : Byte} (h : s.pbuf = ⟨some b0, some b1, some b2⟩) :
    s.pbufWord = .ok ((b2 ++ b1 ++ b0).setWidth 32) := by
  simp [State.pbufWord, h]

/-- PBUF with an invalid byte: the first one is named. -/
theorem State.pbufWord_error {s : State} {k : Nat} (hk : k < 3) (hi : s.pbuf.get k = none)
    (hv : ∀ j, j < k → (s.pbuf.get j).isSome = true) : s.pbufWord = .error (.uninitRead (.pbuf k)) := by
  have valid : ∀ j, j < k → ∃ b, s.pbuf.get j = some b := fun j hj => Option.isSome_iff_exists.1 (hv j hj)
  have hc : k = 0 ∨ k = 1 ∨ k = 2 := by omega
  rcases hc with rfl | rfl | rfl <;> simp only [Pbuf.get] at hi
  · simp [State.pbufWord, hi]
  · obtain ⟨b0, h0⟩ : ∃ b, s.pbuf.b0 = some b := valid 0 (by omega)
    simp [State.pbufWord, hi, h0]
  · obtain ⟨b0, h0⟩ : ∃ b, s.pbuf.b0 = some b := valid 0 (by omega)
    obtain ⟨b1, h1⟩ : ∃ b, s.pbuf.b1 = some b := valid 1 (by omega)
    simp [State.pbufWord, hi, h0, h1]

/-- A window word with its four bytes valid. -/
theorem State.tmemWord_ok {s : State} {a : Nat} {b0 b1 b2 b3 : Byte} (h0 : s.tmem.read a = some b0)
    (h1 : s.tmem.read (a + 1) = some b1) (h2 : s.tmem.read (a + 2) = some b2) (h3 : s.tmem.read (a + 3) = some b3) :
    s.tmemWord a = .ok (b3 ++ b2 ++ b1 ++ b0) := by
  simp [State.tmemWord, h0, h1, h2, h3]

/-- A window word with an invalid byte: the first one is named. -/
theorem State.tmemWord_error {s : State} {a k : Nat} (hk : k < 4) (hi : s.tmem.read (a + k) = none)
    (hv : ∀ j, j < k → (s.tmem.read (a + j)).isSome = true) :
    s.tmemWord a = .error (.uninitRead (.tmem (a + k))) := by
  have valid : ∀ j, j < k → ∃ b, s.tmem.read (a + j) = some b := fun j hj => Option.isSome_iff_exists.1 (hv j hj)
  have hc : k = 0 ∨ k = 1 ∨ k = 2 ∨ k = 3 := by omega
  rcases hc with rfl | rfl | rfl | rfl
  · simp only [Nat.add_zero] at hi ⊢
    simp [State.tmemWord, hi]
  · obtain ⟨b0, h0⟩ : ∃ b, s.tmem.read a = some b := valid 0 (by omega)
    simp [State.tmemWord, hi, h0]
  · obtain ⟨b0, h0⟩ : ∃ b, s.tmem.read a = some b := valid 0 (by omega)
    obtain ⟨b1, h1⟩ := valid 1 (by omega)
    simp [State.tmemWord, hi, h0, h1]
  · obtain ⟨b0, h0⟩ : ∃ b, s.tmem.read a = some b := valid 0 (by omega)
    obtain ⟨b1, h1⟩ := valid 1 (by omega)
    obtain ⟨b2, h2⟩ := valid 2 (by omega)
    simp [State.tmemWord, hi, h0, h1, h2]

/-! ### The registers of a block that is not busy -/

section idle
variable {s : State} (hb : s.busy = false)
include hb

/-- A read of PBUF (R66). -/
theorem hostRead_pbuf : hostRead s 32 0x010#12 = s.pbufWord :=
  hostRead_idle (r := .pbuf) rfl rfl hb

/-- A read of RES (R66). -/
theorem hostRead_res : hostRead s 32 0x014#12 = require .res s.res :=
  hostRead_idle (r := .res) rfl rfl hb

/-- A read of STR (R66). -/
theorem hostRead_str : hostRead s 32 0x018#12 = s.strWord :=
  hostRead_idle (r := .str) rfl rfl hb

/-- A read of UART_BRR (R66). -/
theorem hostRead_brr : hostRead s 32 0x01C#12 = s.brrWord :=
  hostRead_idle (r := .uartBrr) rfl rfl hb

/-- A read of word `j` of the TMEM window (R64, R66). -/
theorem hostRead_window {j : Nat} (hj : j < 64) :
    hostRead s 32 (BitVec.ofNat 12 (0x100 + 4 * j)) = s.tmemWord (4 * j) :=
  hostRead_idle (goodShape_iff.2 ⟨rfl, windowOffset_aligned hj⟩) (hostReg_windowOffset hj) hb

/-- A write of word `j` of the TMEM window (R64, R67). -/
theorem hostWrite_window {j : Nat} (hj : j < 64) (v : Word) :
    hostWrite s 32 (BitVec.ofNat 12 (0x100 + 4 * j)) v = .ok { s with tmem := s.tmem.writeWord (4 * j) v } :=
  hostWrite_idle (goodShape_iff.2 ⟨rfl, windowOffset_aligned hj⟩) (hostReg_windowOffset hj) hb

/-- A write of I2C_CTRL (R67). -/
theorem hostWrite_i2cCtrl (v : Word) :
    hostWrite s 32 0x008#12 v
      = if v.extractLsb' 1 31 = 0#31 then .ok { s with pe := v.getLsbD 0 }
        else .error (.reservedBits 0x008#12 v) :=
  hostWrite_idle (r := .i2cCtrl) rfl rfl hb

/-- A write of PBUF (R67). -/
theorem hostWrite_pbuf (v : Word) :
    hostWrite s 32 0x010#12 v
      = if v.extractLsb' 24 8 = 0#8 then
          .ok { s with pbuf := ⟨some (v.extractLsb' 0 8), some (v.extractLsb' 8 8), some (v.extractLsb' 16 8)⟩ }
        else .error (.reservedBits 0x010#12 v) :=
  hostWrite_idle (r := .pbuf) rfl rfl hb

/-- The read-only registers (R62, check 4 of R65). -/
theorem hostWrite_readOnly (v : Word) :
    ∀ off ∈ [0x004#12, 0x00C#12, 0x014#12, 0x018#12, 0x01C#12], hostWrite s 32 off v = .error (.accessRight off) := by
  have refused : ∀ off r, goodShape 32 off = true → hostReg off = some r →
      writeReg s off v r = .error (.accessRight off) → hostWrite s 32 off v = .error (.accessRight off) :=
    fun off r hs hr hw => (hostWrite_idle hs hr hb).trans hw
  simp only [List.forall_mem_cons, List.not_mem_nil, false_imp_iff, implies_true, and_true]
  exact ⟨refused _ .status rfl rfl rfl, refused _ .i2cXfer rfl rfl rfl, refused _ .res rfl rfl rfl,
    refused _ .str rfl rfl rfl, refused _ .uartBrr rfl rfl rfl⟩

end idle

/-! ### TMEM -/

/-- The byte of lane `k` of a word written is read back at the word's address plus `k` (R54). -/
theorem Memory.read_writeWord_lane (m : Memory) (a : Nat) (v : Word) {k : Nat} (hk : k < 4) :
    (m.writeWord a v).read (a + k) = some (laneByte v k) := by
  have hc : k = 0 ∨ k = 1 ∨ k = 2 ∨ k = 3 := by omega
  rcases hc with rfl | rfl | rfl | rfl <;> simp [Memory.read_writeWord]

/-- A word written leaves the bytes outside it as they were. -/
theorem Memory.read_writeWord_outside (m : Memory) {a a' : Nat} (v : Word) (h : a' < a ∨ a + 4 ≤ a') :
    (m.writeWord a v).read a' = m.read a' := by
  rw [Memory.read_writeWord]
  repeat rw [if_neg (by omega)]

/-- A word is its four bytes put together, in the lane order of R54. -/
theorem laneBytes_append (v : Word) : laneByte v 3 ++ laneByte v 2 ++ laneByte v 1 ++ laneByte v 0 = v := by
  unfold laneByte
  rw [BitVec.extractLsb'_append_extractLsb'_eq_extractLsb' (by rfl),
    BitVec.extractLsb'_append_extractLsb'_eq_extractLsb' (by rfl),
    BitVec.extractLsb'_append_extractLsb'_eq_extractLsb' (by rfl)]
  exact BitVec.extractLsb'_eq_self

/-- Below the end of TMEM, MemRead requires the byte as a host read does (R60, R66). -/
theorem State.memRead_below_end {s : State} {a : Nat} (h : a < Config.tmemSize) :
    s.memRead a = require (.tmem a) (s.tmem.read a) := by
  rw [State.memRead, if_neg (Nat.not_le.2 h)]
  cases s.tmem.read a <;> rfl

/-- No step of a command writes TMEM (R60). -/
theorem SeqMove.tmem_eq {i : Instr} {s t : State} (h : SeqMove i s t) : t.tmem = s.tmem := by
  cases h <;> rfl

/-! ### The obligations -/

/-- Settles O12: one rule per check, on the register that the map gives for the offset. -/
theorem hostAccessCheckOrder : Obligations.HostAccessCheckOrder := by
  intro s width off v
  refine ⟨fun hbad => ?_, fun hw hal => ?_, fun hf t hstep => hf (step_next hstep).2.1⟩
  · have hs : goodShape width off = false := by
      rw [← Bool.not_eq_true, goodShape_iff, not_and_or]
      exact hbad
    exact ⟨hostRead_badAccess hs, hostWrite_badAccess hs⟩
  have hs : goodShape width off = true := goodShape_iff.2 ⟨hw, hal⟩
  subst hw
  refine ⟨fun hres => ⟨hostRead_badOffset hs (hostReg_reserved hres), hostWrite_badOffset hs (hostReg_reserved hres)⟩,
    fun hmap => ⟨fun hb => ?_, fun hb => ?_⟩⟩
  · obtain ⟨r, hr, hcmd, hstatus⟩ := hostReg_mapped hal hmap
    refine ⟨fun h => ?_, fun h => ?_, fun h => ?_, ?_⟩
    · rw [hostWrite_busy hs hr hb, if_pos (hcmd.2 h)]
    · rw [hostWrite_busy hs hr hb, if_neg (mt hcmd.1 h)]
    · exact hostRead_accessWhileBusy hs hr hb (mt hstatus.1 h)
    · rintro rfl
      exact ⟨_, hostRead_status s⟩
  · refine ⟨?cmdRead, hostWrite_readOnly hb v off, ?ctrl, ?pbufWrite, ?pbufRead, ?res, ?str, ?brr, fun hlo hinv => ?tmem⟩
    case cmdRead =>
      rintro rfl
      exact hostRead_idle (r := .cmd) rfl rfl hb
    case ctrl =>
      rintro rfl hbits
      rw [hostWrite_i2cCtrl hb, if_neg hbits]
    case pbufWrite =>
      rintro rfl hbits
      rw [hostWrite_pbuf hb, if_neg hbits]
    case pbufRead =>
      rintro rfl hinv
      obtain ⟨k, hk, hnone, hv⟩ := exists_first_invalid hinv
      exact ⟨k, hk, (hostRead_pbuf hb).trans (State.pbufWord_error hk hnone hv)⟩
    case res =>
      rintro rfl hnone
      rw [hostRead_res hb, hnone, require_none]
    case str =>
      rintro rfl hnone
      simp [hostRead_str hb, State.strWord, hnone]
    case brr =>
      rintro rfl hnone
      simp [hostRead_brr hb, State.brrWord, hnone]
    case tmem =>
      obtain ⟨k, hk, hnone, hv⟩ := exists_first_invalid hinv
      have hr := hostReg_window hal hlo (by omega)
      exact ⟨k, hk, (hostRead_idle hs hr hb).trans (State.tmemWord_error hk hnone hv)⟩

/-- Settles O13: a read comes to its register, whose word gives the value or the first invalid element. -/
theorem hostReadReturns : Obligations.HostReadReturns := by
  refine ⟨hostRead_status, fun s hb => ?_, hostRead_status _, rfl⟩
  refine ⟨hostRead_idle (r := .i2cCtrl) rfl rfl hb, ?xfer, fun b0 b1 b2 h => ?pbuf,
    fun k hk hi hv => ?pbufInvalid, fun w h => ?res, fun h => ?resInvalid, fun t h => ?str, fun h => ?strInvalid,
    fun d h => ?brr, fun h => ?brrInvalid,
    fun j hj => ⟨fun b0 b1 b2 b3 h0 h1 h2 h3 => ?tmem, fun k hk hi hv => ?tmemInvalid⟩⟩
  case xfer =>
    have hread : hostRead s 32 0x00C#12 = .ok s.xferWord := hostRead_idle (r := .i2cXfer) rfl rfl hb
    rw [hread, State.xferWord]
    cases s.dir <;> rfl
  case pbuf => rw [hostRead_pbuf hb, State.pbufWord_ok h]
  case pbufInvalid => rw [hostRead_pbuf hb, State.pbufWord_error hk hi hv]
  case res => rw [hostRead_res hb, h, require_some]
  case resInvalid => rw [hostRead_res hb, h, require_none]
  case str => simp [hostRead_str hb, State.strWord, h]
  case strInvalid => simp [hostRead_str hb, State.strWord, h]
  case brr => simp [hostRead_brr hb, State.brrWord, h]
  case brrInvalid => simp [hostRead_brr hb, State.brrWord, h]
  case tmem => rw [hostRead_window hb hj, State.tmemWord_ok h0 h1 h2 h3]
  case tmemInvalid => rw [hostRead_window hb hj, State.tmemWord_error hk hi hv]

/-- Settles O14: a write comes to its register; the window word is read back byte by byte. -/
theorem hostWriteEffects : Obligations.HostWriteEffects := by
  intro s v hb
  refine ⟨fun i hi => ?_, fun r hr => ?_, fun h => ?_, fun h => ?_, fun h => ?_, fun h => ?_, fun j hj => ?_,
    hostWrite_readOnly hb v⟩
  · simp [hostWrite_cmd s v hb, accept, hi]
  · simp [hostWrite_cmd s v hb, accept, hr]
  · rw [hostWrite_i2cCtrl hb, if_neg h]
  · rw [hostWrite_i2cCtrl hb, if_pos h]
  · rw [hostWrite_pbuf hb, if_neg h]
  · rw [hostWrite_pbuf hb, if_pos h]
  · exact ⟨_, hostWrite_window hb hj v, fun k hk => Memory.read_writeWord_lane s.tmem (4 * j) v hk,
      fun a ha => Memory.read_writeWord_outside s.tmem v ha⟩

/-- Settles O15: a write that completes found BUSY = 0, so the read comes to the same word, whose lanes are `v`'s. -/
theorem tmemWindowReadsBack : Obligations.TmemWindowReadsBack := by
  intro s t v j hj hwrite
  have hb : s.busy = false := (hostWrite_ok hwrite).1
  rw [hostWrite_window hb hj v] at hwrite
  cases hwrite
  have lane : ∀ k, k < 4 → (s.tmem.writeWord (4 * j) v).read (4 * j + k) = some (laneByte v k) :=
    fun k hk => Memory.read_writeWord_lane s.tmem (4 * j) v hk
  refine ⟨?_, lane 0 (by omega), lane 1 (by omega), lane 2 (by omega), lane 3 (by omega)⟩
  rw [hostRead_window (s := { s with tmem := s.tmem.writeWord (4 * j) v }) hb hj, State.tmemWord_ok (lane 0 (by omega))
    (lane 1 (by omega)) (lane 2 (by omega)) (lane 3 (by omega)), laneBytes_append]

/-- Settles O18: MemRead branch by branch, and the frame of `SeqMove`. -/
theorem memReadChecksEndThenValidity : Obligations.MemReadChecksEndThenValidity := by
  refine ⟨fun s a => ⟨fun h => ?_, fun h hnone => ?_, fun b h hsome => ?_⟩, fun i s t h => (exec_move h).tmem_eq⟩
  · exact if_pos h
  · rw [State.memRead_below_end h, hnone, require_none]
  · rw [State.memRead_below_end h, hsome, require_some]

end Sys2Proof.Machine
end

section
/-!
PROOFS of two obligations of 30_encoding.md, and their support: fields against masks, what each format admits, and the
decoder as the row of the word's opcode (R82 to R91, R95).
-/

namespace Sys2Proof.Machine

/-! ### Fields and masks -/

/-- The mask of the bits `lo + w - 1` down to `lo` of a word. -/
def fieldMask (lo w : Nat) : Word := (BitVec.allOnes w).setWidth 32 <<< lo

/-- Masking a word leaves the field, at its place. -/
theorem and_fieldMask (v : Word) (lo w : Nat) : v &&& fieldMask lo w = (field v lo w).setWidth 32 <<< lo := by
  ext i hi
  by_cases hlo : i < lo
  · simp [fieldMask, hlo]
  · simp [fieldMask, field, hlo, show lo + (i - lo) = i by omega, BitVec.getLsbD_eq_getElem hi, Bool.and_comm]

/-- A field is read back from its place. -/
theorem field_place {lo w : Nat} (h : lo + w ≤ 32) (x : BitVec w) : field (x.setWidth 32 <<< lo) lo w = x := by
  ext i hi
  simp [field, show lo + i < 32 by omega, BitVec.getLsbD_eq_getElem hi]

/-- The mask of a field finds the value `x` exactly if the field is `x`. -/
theorem and_fieldMask_eq_iff {lo w : Nat} (h : lo + w ≤ 32) (v : Word) (x : BitVec w) :
    v &&& fieldMask lo w = x.setWidth 32 <<< lo ↔ field v lo w = x := by
  rw [and_fieldMask]
  constructor
  · intro hx
    rw [← field_place h (field v lo w), hx, field_place h]
  · intro hx
    rw [hx]

/-- A word has no bit of a field's mask exactly if the field is 0. -/
theorem and_fieldMask_eq_zero_iff {lo w : Nat} (h : lo + w ≤ 32) (v : Word) :
    v &&& fieldMask lo w = 0#32 ↔ field v lo w = 0#w := by
  simpa using and_fieldMask_eq_iff h v 0#w

/-- A word has no bit of a union of masks exactly if it has none of either. -/
theorem and_or_eq_zero_iff (v a b : Word) : v &&& (a ||| b) = 0#32 ↔ v &&& a = 0#32 ∧ v &&& b = 0#32 := by
  rw [BitVec.and_or_distrib_left, BitVec.or_eq_zero_iff]

/-- Bits `a` of a word are `m` and its bits `b` are 0 exactly if the union of the two disjoint masks finds `m`. -/
theorem and_or_eq_iff {a b m : Word} (hab : a &&& b = 0#32) (hm : m &&& a = m) (v : Word) :
    v &&& (a ||| b) = m ↔ v &&& a = m ∧ v &&& b = 0#32 := by
  constructor
  · intro h
    constructor
    · calc v &&& a = (v &&& (a ||| b)) &&& a := by grind
        _ = m := by rw [h, hm]
    · calc v &&& b = (v &&& (a ||| b)) &&& b := by grind
        _ = m &&& (a &&& b) := by rw [h, ← BitVec.and_assoc, hm]
        _ = 0#32 := by rw [hab, BitVec.and_zero]
  · rintro ⟨ha, hb⟩
    rw [BitVec.and_or_distrib_left, ha, hb, BitVec.or_zero]

/-- A word has no bit of the masks of some fields exactly if all these fields are 0. -/
theorem and_fieldMasks_eq_zero_iff (v : Word) (fields : List (Nat × Nat)) (h : ∀ p ∈ fields, p.1 + p.2 ≤ 32) :
    v &&& fields.foldr (fun p m => fieldMask p.1 p.2 ||| m) 0#32 = 0#32 ↔ ∀ p ∈ fields, field v p.1 p.2 = 0#p.2 := by
  induction fields with
  | nil => simp
  | cons p ps ih =>
    obtain ⟨hp, hps⟩ := List.forall_mem_cons.1 h
    rw [List.foldr_cons, and_or_eq_zero_iff, and_fieldMask_eq_zero_iff hp, ih hps, List.forall_mem_cons]

/-- A field of one bit is 0 exactly if the bit is not set. -/
theorem field_bit_eq_zero_iff (v : Word) (lo : Nat) : field v lo 1 = 0#1 ↔ v.getLsbD lo = false := by
  simp [field, ← BitVec.toNat_inj, BitVec.getLsbD, Nat.testBit]

/-! ### The formats (R82 to R89) -/

/-- A format's mask fixes the opcode and the reserved bits of the format. -/
theorem formatMask_eq (f : Format) : f.mask = fieldMask 24 8 ||| reservedBits f := by
  cases f <;> decide

/-- No reserved bit is a bit of the opcode. -/
theorem opcodeMask_and_reservedBits (f : Format) : fieldMask 24 8 &&& reservedBits f = 0#32 := by
  cases f <;> decide

/-- A word has the mask and match of a row exactly if it has the row's opcode and no reserved bit of its format. -/
theorem and_formatMask_eq_iff (v : Word) (op : BitVec 8) (f : Format) :
    v &&& f.mask = op.setWidth 32 <<< 24 ↔ opcodeOf v = op ∧ v &&& reservedBits f = 0#32 := by
  have hm : op.setWidth 32 <<< 24 &&& fieldMask 24 8 = op.setWidth 32 <<< 24 := by
    rw [and_fieldMask, field_place (by decide)]
  rw [formatMask_eq, and_or_eq_iff (opcodeMask_and_reservedBits f) hm, and_fieldMask_eq_iff (by decide), opcodeOf]

/-- The reserved fields of a format as lowest bit and width: the zeros of its line of R82. -/
def reservedFields : Format → List (Nat × Nat)
  | .N => [(0, 24)]
  | .T => [(10, 14), (7, 1)]
  | .RS => [(9, 15), (6, 2)]
  | .R => [(6, 18)]
  | .V8 => [(8, 15)]
  | .V16 => [(16, 7)]
  | .X => [(8, 15)]
  | .B => [(16, 8)]

/-- No reserved bit of a format is set exactly if its reserved fields are 0. -/
theorem and_reservedBits_eq_zero_iff (v : Word) (f : Format) :
    v &&& reservedBits f = 0#32 ↔ ∀ p ∈ reservedFields f, field v p.1 p.2 = 0#p.2 := by
  have hmask : reservedBits f = (reservedFields f).foldr (fun p m => fieldMask p.1 p.2 ||| m) 0#32 := by
    cases f <;> decide
  have hwidth : ∀ p ∈ reservedFields f, p.1 + p.2 ≤ 32 := by cases f <;> decide
  rw [hmask, and_fieldMasks_eq_zero_iff v _ hwidth]

/-- Cases 3 to 5 of R91, by fields. -/
theorem broken_iff (f : Format) (v : Word) :
    f.broken v = true ↔
      f = .T ∧ field v 8 2 = 0#2
        ∨ (f = .V8 ∨ f = .X) ∧ v.getLsbD 23 = true ∧ field v 0 8 ≠ 0#8
        ∨ f = .V16 ∧ v.getLsbD 23 = true ∧ field v 0 16 ≠ 0#16
        ∨ f = .B ∧ field v 0 16 = 0#16 := by
  have nb : v &&& 0x00000300#32 = 0#32 ↔ field v 8 2 = 0#2 :=
    and_fieldMask_eq_zero_iff (lo := 8) (w := 2) (by decide) v
  have src : v &&& 0x00800000#32 = 0#32 ↔ v.getLsbD 23 = false :=
    (and_fieldMask_eq_zero_iff (lo := 23) (w := 1) (by decide) v).trans (field_bit_eq_zero_iff v 23)
  have byte : v &&& 0x000000FF#32 = 0#32 ↔ field v 0 8 = 0#8 :=
    and_fieldMask_eq_zero_iff (lo := 0) (w := 8) (by decide) v
  have half : v &&& 0x0000FFFF#32 = 0#32 ↔ field v 0 16 = 0#16 :=
    and_fieldMask_eq_zero_iff (lo := 0) (w := 16) (by decide) v
  cases f <;> simp [Format.broken, nb, src, byte, half]

/-- Format `f` admits the operand field of `v`: no reserved bit is set, and the operands meet the format's constraint. -/
def Admits (f : Format) (v : Word) : Prop := v &&& reservedBits f = 0#32 ∧ f.broken v = false

/-- A word is legal for a row exactly if it has the row's opcode and an operand field its format admits. -/
theorem legalFor_iff (v : Word) (row : BitVec 8 × Format) :
    legalFor v row = true ↔ opcodeOf v = row.1 ∧ Admits row.2 v := by
  simp [legalFor, Admits, and_formatMask_eq_iff, and_assoc]

/-- `Admits` by fields: no reserved field is set and none of cases 3 to 5 of R91 holds. -/
theorem admits_iff (f : Format) (v : Word) :
    Admits f v ↔ (∀ p ∈ reservedFields f, field v p.1 p.2 = 0#p.2) ∧ ¬f.broken v = true := by
  rw [Admits, and_reservedBits_eq_zero_iff, Bool.not_eq_true]

/-- An operand field is not admitted in exactly the cases 2 to 5 of R91. -/
theorem not_admits_iff (f : Format) (v : Word) : ¬Admits f v ↔ v &&& reservedBits f ≠ 0#32 ∨ f.broken v = true := by
  rw [Admits, not_and_or, Bool.not_eq_false]

/-- What the decoder answers for a word with the opcode of a row: a command of the row where the row's format admits the
operand field, and an error where it does not. -/
inductive RowDecodes (row : BitVec 8 × Format) (v : Word) : Except IllegalReason Instr → Prop where
  | ok {i : Instr} (hop : i.opcode = row.1) (hadm : Admits row.2 v) : RowDecodes row v (.ok i)
  | error {r : IllegalReason} (hadm : ¬Admits row.2 v) : RowDecodes row v (.error r)

/-! The decoders of the formats nest their checks in three shapes. -/

section shapes

variable {row : BitVec 8 × Format} {v : Word} {i j : Instr} {r r' : IllegalReason} {p q q' : Prop} [Decidable p]
  [Decidable q] [Decidable q']

/-- The shape of the formats without a constraint. -/
theorem rowDecodes_of_reserved (hadm : Admits row.2 v ↔ p) (hi : i.opcode = row.1) :
    RowDecodes row v (if p then .ok i else .error r) := by
  split_ifs with hp
  · exact .ok hi (hadm.2 hp)
  · exact .error (mt hadm.1 hp)

/-- The shape of the formats with one constraint on an operand. -/
theorem rowDecodes_of_constraint (hadm : Admits row.2 v ↔ p ∧ q) (hi : i.opcode = row.1) :
    RowDecodes row v (if p then if q then .ok i else .error r else .error r') := by
  split_ifs with hp hq
  · exact .ok hi (hadm.2 ⟨hp, hq⟩)
  · exact .error fun h => hq (hadm.1 h).2
  · exact .error fun h => hp (hadm.1 h).1

/-- The shape of the formats with an operand source. -/
theorem rowDecodes_of_source (hadm : Admits row.2 v ↔ p ∧ (¬q → q')) (hi : i.opcode = row.1) (hj : j.opcode = row.1) :
    RowDecodes row v (if p then if q then .ok i else if q' then .ok j else .error r else .error r') := by
  split_ifs with hp hq hq'
  · exact .ok hi (hadm.2 ⟨hp, fun h => (h hq).elim⟩)
  · exact .ok hj (hadm.2 ⟨hp, fun _ => hq'⟩)
  · exact .error fun h => hq' ((hadm.1 h).2 hq)
  · exact .error fun h => hp (hadm.1 h).1

end shapes

/-! Each format's decoder answers by the rows of its format. -/

section formats

variable {op : BitVec 8} (v : Word)

theorem decodeN_row {i : Instr} (h : i.opcode = op) : RowDecodes (op, .N) v (decodeN i v) :=
  rowDecodes_of_reserved (by simp [admits_iff, reservedFields, broken_iff]) h

theorem decodeT_row {mk : BitVec 7 → BitVec 2 → Instr} (h : ∀ sadd nb, (mk sadd nb).opcode = op) :
    RowDecodes (op, .T) v (decodeT mk v) :=
  rowDecodes_of_constraint (by simp [admits_iff, reservedFields, broken_iff, okByteCount]) (h _ _)

theorem decodeRS_row {mk : BitVec 6 → Bool → Instr} (h : ∀ reg sc, (mk reg sc).opcode = op) :
    RowDecodes (op, .RS) v (decodeRS mk v) :=
  rowDecodes_of_reserved (by simp [admits_iff, reservedFields, broken_iff]) (h _ _)

theorem decodeR_row {mk : BitVec 6 → Instr} (h : ∀ reg, (mk reg).opcode = op) :
    RowDecodes (op, .R) v (decodeR mk v) :=
  rowDecodes_of_reserved (by simp [admits_iff, reservedFields, broken_iff]) (h _)

theorem decodeV8_row {mk : NumSrc 8 → Instr} (h : ∀ src, (mk src).opcode = op) :
    RowDecodes (op, .V8) v (decodeV8 mk v) :=
  rowDecodes_of_source (by simp [admits_iff, reservedFields, broken_iff, field_bit_eq_zero_iff]) (h _) (h _)

theorem decodeV16_row {mk : NumSrc 16 → Instr} (h : ∀ src, (mk src).opcode = op) :
    RowDecodes (op, .V16) v (decodeV16 mk v) :=
  rowDecodes_of_source (by simp [admits_iff, reservedFields, broken_iff, field_bit_eq_zero_iff]) (h _) (h _)

theorem decodeX_row {mk : TextSrc → Instr} (h : ∀ src, (mk src).opcode = op) :
    RowDecodes (op, .X) v (decodeX mk v) :=
  rowDecodes_of_source (by simp [admits_iff, reservedFields, broken_iff, field_bit_eq_zero_iff]) (h _) (h _)

theorem decodeB_row {mk : BitVec 16 → Instr} (h : ∀ div, (mk div).opcode = op) :
    RowDecodes (op, .B) v (decodeB mk v) :=
  rowDecodes_of_constraint (by simp [admits_iff, reservedFields, broken_iff, okDivisor]) (h _)

end formats

/-! ### The opcode map (R90) -/

/-- The unit v[31:28], which the decoder looks at first, is the high half of the opcode. -/
theorem unitField_eq (v : Word) : field v 28 4 = (opcodeOf v).extractLsb' 4 4 := by
  ext i hi
  simp [field, opcodeOf, show 4 + i < 8 by omega, ← Nat.add_assoc]

/-- No two rows have one opcode. -/
theorem opcodeRows_opcodes_nodup : (opcodeRows.map Prod.fst).Nodup := by
  decide

/-- A row is the only one of its opcode. -/
theorem opcodeRows_eq_of_opcode_eq {x y : BitVec 8 × Format} (hx : x ∈ opcodeRows) (hy : y ∈ opcodeRows)
    (h : x.1 = y.1) : x = y :=
  List.inj_on_of_nodup_map opcodeRows_opcodes_nodup hx hy h

/-- A word with the opcode of a row is decoded by that row. -/
theorem decode_row (v : Word) : ∀ row ∈ opcodeRows, row.1 = opcodeOf v → RowDecodes row v (decode v) := by
  intro row hrow hop
  simp only [decode, unitField_eq, decodeBtd, decodeCodec, decodeSensor, decodeConsole, ← hop]
  clear hop
  revert row
  simp only [opcodeRows, List.forall_mem_cons]
  exact ⟨decodeT_row v fun _ _ => rfl, decodeT_row v fun _ _ => rfl, decodeRS_row v fun _ _ => rfl,
    decodeR_row v fun _ => rfl, decodeN_row v rfl, decodeN_row v rfl, decodeN_row v rfl, decodeN_row v rfl,
    decodeN_row v rfl, decodeN_row v rfl, decodeN_row v rfl, decodeN_row v rfl, decodeN_row v rfl, decodeN_row v rfl,
    decodeB_row v fun _ => rfl, decodeN_row v rfl, decodeN_row v rfl, decodeX_row v fun _ => rfl,
    decodeV8_row v fun _ => rfl, decodeV16_row v fun _ => rfl, List.forall_mem_nil _⟩

/-- A word whose opcode has no row is rejected: case 1 of R91. -/
theorem decode_unmapped (v : Word) (h : ∀ row ∈ opcodeRows, row.1 ≠ opcodeOf v) :
    decode v = .error .unknownOpcode := by
  simp only [opcodeRows, List.forall_mem_cons, ne_comm (b := opcodeOf v)] at h
  simp [decode, decodeBtd, decodeCodec, decodeSensor, decodeConsole, h]

/-- The decoder answers by the row of the word's opcode, and rejects a word whose opcode has no row. -/
theorem decode_cases (v : Word) :
    (decode v = .error .unknownOpcode ∧ ∀ row ∈ opcodeRows, row.1 ≠ opcodeOf v)
      ∨ ∃ row ∈ opcodeRows, row.1 = opcodeOf v ∧ RowDecodes row v (decode v) := by
  by_cases h : ∃ row ∈ opcodeRows, row.1 = opcodeOf v
  · obtain ⟨row, hrow, hop⟩ := h
    exact .inr ⟨row, hrow, hop, decode_row v row hrow hop⟩
  · push Not at h
    exact .inl ⟨decode_unmapped v h, h⟩

/-! ### The obligations -/

/-- Settles O3: legality for a row fixes the word's opcode, which no two rows share, and the row of the opcode decodes the
word exactly if its format admits the operand field. -/
theorem everyWordIsOneRowOrIllegal : Obligations.EveryWordIsOneRowOrIllegal := by
  constructor
  · intro v
    obtain ⟨herr, hnone⟩ | ⟨row, hrow, hop, hdec⟩ := decode_cases v
    · refine .inr ⟨⟨_, herr⟩, fun row hrow => Bool.eq_false_iff.2 fun hlegal => ?_⟩
      exact hnone row hrow ((legalFor_iff v row).1 hlegal).1.symm
    · have only : ∀ other ∈ opcodeRows, legalFor v other = true → other = row := fun other hother hlegal =>
        opcodeRows_eq_of_opcode_eq hother hrow (((legalFor_iff v other).1 hlegal).1.symm.trans hop.symm)
      generalize decode v = d at hdec
      cases hdec with
      | ok hi hadm => exact .inl ⟨_, row, rfl, hrow, (legalFor_iff v row).2 ⟨hop.symm, hadm⟩, hi.symm, only⟩
      | error hadm =>
        refine .inr ⟨⟨_, rfl⟩, fun other hother => Bool.eq_false_iff.2 fun hlegal => hadm ?_⟩
        obtain rfl := only other hother hlegal
        exact ((legalFor_iff v other).1 hlegal).2
  · refine (List.pairwise_map.1 opcodeRows_opcodes_nodup).imp fun {x y} hne v ⟨hx, hy⟩ => hne ?_
    rw [← ((and_formatMask_eq_iff v x.1 x.2).1 hx).1, ((and_formatMask_eq_iff v y.1 y.2).1 hy).1]

/-- Settles O4: where the opcode has a row, the decoder rejects the operand fields that the row's format does not admit. -/
theorem illegalWordsAreTheFiveCases : Obligations.IllegalWordsAreTheFiveCases := by
  refine ⟨fun v => ?_, fun s v r hb herr => ?_, _, rfl⟩
  · obtain ⟨herr, hnone⟩ | ⟨row, hrow, hop, hdec⟩ := decode_cases v
    · exact iff_of_true ⟨_, herr⟩ (.inl hnone)
    · have herr : (∃ r, decode v = .error r) ↔ ¬Admits row.2 v := by
        generalize decode v = d at hdec
        cases hdec with
        | ok _ hadm => simp [hadm]
        | error hadm => simp [hadm]
      rw [herr, not_admits_iff, broken_iff]
      constructor
      · exact fun h => .inr ⟨row, hrow, hop, h⟩
      · rintro (hnone | ⟨other, hother, hop', h⟩)
        · exact absurd hop (hnone row hrow)
        · obtain rfl := opcodeRows_eq_of_opcode_eq hother hrow (hop'.trans hop.symm)
          exact h
  · rw [hostWrite_cmd s v hb, accept, herr]

end Sys2Proof.Machine
end

section
/-!
PROOFS of the obligations of 40_i2c_master.md, and their support: what each agent's step does to the flags of the bus and
the console (R117, R188), where the bus stands in each phase of a command, and the bus and console invariants (R119, R189).
-/

namespace Sys2Proof.Machine

/-! ### What each agent does to the flags (R117, R188) -/

section flags
variable {i : Instr} {s t : State}

/-- What SEQ does to the flags of the bus: each of the four it writes moves one way, in its phases (R117). -/
theorem SeqMove.busFlags (h : SeqMove i s t) :
    (t.start = s.start ∨ t.start = true ∧ (s.ph = .w0 ∨ s.ph = .rd0))
      ∧ (t.stop = s.stop ∨ t.stop = true ∧ (s.ph = .w2 ∨ s.ph = .rd2))
      ∧ (t.txrdy = s.txrdy ∨ t.txrdy = false ∧ s.ph = .w1)
      ∧ (t.rxrdy = s.rxrdy ∨ t.rxrdy = false ∧ s.ph = .rd1)
      ∧ t.tc = s.tc ∧ t.busact = s.busact := by
  cases h <;> simp [*]

/-- What SEQ does to the console: only its two commands write U_EN (R188). -/
theorem SeqMove.uEn_cases (h : SeqMove i s t) :
    t.uEn = s.uEn ∨ t.uEn = true ∧ i = .uartStart ∨ t.uEn = false ∧ i = .uartStop := by
  cases h <;> simp [*]

/-- What SEQ does to the stage and its two flags: it fills the stage in a sending phase, or leaves all three (R188). -/
theorem SeqMove.stage_cases (h : SeqMove i s t) :
    t.uTxrdy = s.uTxrdy ∧ t.uTc = s.uTc ∧ t.uStage = s.uStage
      ∨ ∃ c, (s.ph = .t2 c ∨ s.ph = .n2 c) ∧ t.uTxrdy = false ∧ t.uTc = false ∧ t.uStage = some c := by
  cases h <;> simp [*]

end flags

/-- HOST leaves the flags of the bus and the console as they are. -/
theorem hostStep_keeps_flags (s : State) :
    (hostStep s).start = s.start ∧ (hostStep s).stop = s.stop ∧ (hostStep s).txrdy = s.txrdy
      ∧ (hostStep s).rxrdy = s.rxrdy ∧ (hostStep s).tc = s.tc ∧ (hostStep s).busact = s.busact
      ∧ (hostStep s).uEn = s.uEn ∧ (hostStep s).uTxrdy = s.uTxrdy ∧ (hostStep s).uTc = s.uTc
      ∧ (hostStep s).uStage = s.uStage := by
  obtain h | ⟨_, h⟩ | ⟨_, _, h⟩ | ⟨_, _, _, _, t, _, _, hw, h⟩ := hostStep_cases s <;> rw [h]
  · simp
  · simp
  · simp
  · obtain ⟨_, ⟨_, _, rfl⟩ | ⟨_, rfl⟩ | ⟨_, _, _, rfl⟩ | ⟨_, _, rfl⟩⟩ := hostWrite_ok hw <;> simp

/-- E_START is enabled and opens the transaction, or leaves the state as it is (R110). -/
theorem eStart_cases (s : State) :
    eStart s = s
      ∨ s.start = true ∧ s.stop = false ∧ s.busact = false
        ∧ eStart s = { s.emitBus [.start, .addr s.sadd s.dir] with
            busact := true, start := false, cnt := 0#2, txrdy := if s.dir = .write then true else s.txrdy } := by
  unfold eStart
  split
  · rename_i h
    simp only [Bool.and_eq_true, Bool.not_eq_true'] at h
    obtain ⟨⟨hstart, hstop⟩, hact⟩ := h
    refine .inr ⟨hstart, hstop, hact, ?_⟩
    cases s.dir <;> rfl
  · exact .inl rfl

/-- E_TX is enabled and moves a byte, the last one or another, or leaves the state as it is (R111). -/
theorem eTx_cases (s : State) :
    eTx s = s
      ∨ s.busact = true ∧ s.dir = .write ∧ ∃ b, s.txd = some b
        ∧ (s.cnt + 1#2 < s.nbytes
            ∧ eTx s = { s.emitBus [.wr b] with txd := none, cnt := s.cnt + 1#2, txrdy := true }
          ∨ ¬s.cnt + 1#2 < s.nbytes
            ∧ eTx s = { s.emitBus [.wr b] with txd := none, cnt := s.cnt + 1#2, tc := true }) := by
  unfold eTx
  split
  · rename_i b ha hd hb
    refine .inr ⟨ha, hd, b, hb, ?_⟩
    split_ifs with h
    · exact .inl ⟨h, rfl⟩
    · exact .inr ⟨h, rfl⟩
  · exact .inl rfl

/-- E_RX is enabled and moves a byte, or leaves the state as it is (R112). -/
theorem eRx_cases (s : State) :
    eRx s = s
      ∨ s.busact = true ∧ s.dir = .read ∧ s.rxrdy = false ∧ s.cnt < s.nbytes
        ∧ eRx s = { s.drawn.emitBus [.rd s.drawByte] with
            rxd := s.drawByte, rxrdy := true, cnt := s.cnt + 1#2,
            tc := if s.cnt + 1#2 = s.nbytes then true else s.tc } := by
  unfold eRx
  split
  · rename_i ha hd
    split
    · rename_i h
      simp only [Bool.and_eq_true, Bool.not_eq_true', decide_eq_true_eq] at h
      exact .inr ⟨ha, hd, h.1, h.2, rfl⟩
    · exact .inl rfl
  · exact .inl rfl

/-- E_STOP is enabled and closes the transaction, or leaves the state as it is (R114). -/
theorem eStop_cases (s : State) :
    eStop s = s
      ∨ s.stop = true
        ∧ eStop s = { s.emitBus [.stop] with stop := false, tc := false, busact := false, txrdy := false, cnt := 0#2 } := by
  unfold eStop
  split_ifs with h
  · exact .inr ⟨h, rfl⟩
  · exact .inl rfl

/-- E_LINE empties a full stage and raises both flags, or leaves the state as it is (R186). -/
theorem lineStep_cases (s : State) :
    lineStep s = s
      ∨ ∃ b, s.uStage = some b
        ∧ lineStep s = { s with lineTrace := s.lineTrace ++ [b], uStage := none, uTxrdy := true, uTc := true } := by
  unfold lineStep
  split
  · exact .inr ⟨_, by assumption, rfl⟩
  · exact .inl rfl

/-! ### The bus in each phase, and what BUSENV makes of it (R119) -/

section busenv
variable {s : State} {n : Nat} (r : BusRule)

/-- A step of BUSENV leaves SEQ's elements, the console and what it reads of the transaction as they are. -/
theorem busStep_frame (s : State) :
    (busStep r s).fault = s.fault ∧ (busStep r s).busy = s.busy ∧ (busStep r s).cur = s.cur
      ∧ (busStep r s).ph = s.ph ∧ (busStep r s).kIdx = s.kIdx ∧ (busStep r s).config = s.config
      ∧ (busStep r s).uEn = s.uEn ∧ (busStep r s).uTxrdy = s.uTxrdy ∧ (busStep r s).uTc = s.uTc
      ∧ (busStep r s).uStage = s.uStage := by
  cases r with
  | eStart => obtain h | ⟨_, _, _, h⟩ := eStart_cases s <;> simp [busStep, h]
  | eTx => obtain h | ⟨_, _, _, _, ⟨_, h⟩ | ⟨_, h⟩⟩ := eTx_cases s <;> simp [busStep, h]
  | eRx => obtain h | ⟨_, _, _, _, h⟩ := eRx_cases s <;> simp [busStep, h]
  | eStop => obtain h | ⟨_, h⟩ := eStop_cases s <;> simp [busStep, h]

/-- A rule that is not enabled leaves the state as it is (R110 to R114). -/
theorem busStep_of_not_enabled (h : busEnabled r s = false) : busStep r s = s := by
  cases r with
  | eStart => exact (eStart_cases s).resolve_right fun ⟨h1, h2, h3, _⟩ => by simp [busEnabled, h1, h2, h3] at h
  | eTx => exact (eTx_cases s).resolve_right fun ⟨h1, h2, _, h3, _⟩ => by simp [busEnabled, h1, h2, h3] at h
  | eRx => exact (eRx_cases s).resolve_right fun ⟨h1, h2, h3, h4, _⟩ => by simp [busEnabled, h1, h2, h3, h4] at h
  | eStop => exact (eStop_cases s).resolve_right fun ⟨h1, _⟩ => by simp [busEnabled, h1] at h

/-- On an idle bus no rule is enabled. -/
theorem busStep_of_busIdle (h : s.busIdle) : busStep r s = s := by
  obtain ⟨hstart, hstop, hact, -⟩ := h
  refine busStep_of_not_enabled r ?_
  cases r <;> simp [busEnabled, hstart, hstop, hact]

/-- With all bytes taken and no stop requested no rule is enabled. -/
theorem busStep_of_inRD2 (h : s.inRD2 n) : busStep r s = s := by
  obtain ⟨hd, hn, hstart, hstop, -, -, -, -, -, hc, -⟩ := h
  refine busStep_of_not_enabled r ?_
  cases r <;> simp [busEnabled, hstart, hstop, hd, BitVec.lt_def, hc, hn]

/-- A count below another does not wrap. -/
theorem toNat_add_one_of_lt {c m : BitVec 2} (h : c < m) : (c + 1#2).toNat = c.toNat + 1 := by
  bv_omega

/-- BUSENV moves phase W1 from one of its moments to the next. -/
theorem busStep_inW1 (h : s.inW1 n) : (busStep r s).inW1 n := by
  have h' := h
  obtain ⟨hd, hn, hstop, hrx, htc, hlt, hv, m⟩ := h'
  cases r with
  | eStart =>
    obtain e | ⟨hs, -, -, e⟩ := eStart_cases s <;> rw [busStep, e]
    · exact h
    · obtain ⟨-, -, -, htxd, -, hi⟩ | ⟨hs', -⟩ | ⟨hs', -⟩ := m
      · exact ⟨hd, hn, hstop, hrx, htc, hlt, hv, .inr (.inl ⟨rfl, rfl, by simp [hd], htxd, by simp [hi]⟩)⟩
      · simp [hs] at hs'
      · simp [hs] at hs'
  | eTx =>
    obtain e | ⟨ha, -, b, hb, e⟩ := eTx_cases s
    · rw [busStep, e]; exact h
    · obtain ⟨-, ha', -⟩ | ⟨-, -, -, hb', -⟩ | ⟨hs, -, -, -, hc⟩ := m
      · simp [ha] at ha'
      · simp [hb] at hb'
      · have more : s.cnt + 1#2 < s.nbytes := by bv_omega
        have hc' : (s.cnt + 1#2).toNat = s.idx := by bv_omega
        simp only [more, not_true, false_and, or_false, true_and] at e
        rw [busStep, e]
        exact ⟨hd, hn, hstop, hrx, htc, hlt, hv, .inr (.inl ⟨hs, ha, rfl, rfl, hc'⟩)⟩
  | eRx => rwa [busStep_of_not_enabled .eRx (by simp [busEnabled, hd])]
  | eStop => rwa [busStep_of_not_enabled .eStop (by simp [busEnabled, hstop])]

/-- BUSENV sends the last byte of phase W2. -/
theorem busStep_inW2 (h : s.inW2 n) : (busStep r s).inW2 n := by
  have h' := h
  obtain ⟨hd, hn, hstart, hstop, hact, htx, hrx, h1, m⟩ := h'
  cases r with
  | eStart => rwa [busStep_of_not_enabled .eStart (by simp [busEnabled, hstart])]
  | eTx =>
    obtain e | ⟨-, -, b, hb, e⟩ := eTx_cases s
    · rw [busStep, e]; exact h
    · obtain ⟨-, -, hc⟩ | ⟨-, hb', -⟩ := m
      · have last : ¬s.cnt + 1#2 < s.nbytes := by bv_omega
        have hc' : (s.cnt + 1#2).toNat = n := by bv_omega
        simp only [last, false_and, false_or, not_false_eq_true, true_and] at e
        rw [busStep, e]
        exact ⟨hd, hn, hstart, hstop, hact, htx, hrx, h1, .inr ⟨rfl, rfl, hc'⟩⟩
      · simp [hb] at hb'
  | eRx => rwa [busStep_of_not_enabled .eRx (by simp [busEnabled, hd])]
  | eStop => rwa [busStep_of_not_enabled .eStop (by simp [busEnabled, hstop])]

/-- BUSENV moves phase RD1 from one of its moments to the next. -/
theorem busStep_inRD1 (h : s.inRD1 n) : (busStep r s).inRD1 n := by
  have h' := h
  obtain ⟨hd, hn, hstop, htx, htxd, hlt, hv, m⟩ := h'
  cases r with
  | eStart =>
    obtain e | ⟨hs, -, -, e⟩ := eStart_cases s <;> rw [busStep, e]
    · exact h
    · obtain ⟨-, -, hrx, htc, -, hi⟩ | ⟨hs', -⟩ | ⟨hs', -⟩ := m
      · exact ⟨hd, hn, hstop, by simp [hd, htx], htxd, hlt, hv, .inr (.inl ⟨rfl, rfl, hrx, htc, by simp [hi]⟩)⟩
      · simp [hs] at hs'
      · simp [hs] at hs'
  | eTx => rwa [busStep_of_not_enabled .eTx (by simp [busEnabled, hd])]
  | eRx =>
    obtain e | ⟨ha, -, hr, hc, e⟩ := eRx_cases s <;> rw [busStep, e]
    · exact h
    · obtain ⟨-, ha', -⟩ | ⟨hs, -, -, htc, hi⟩ | ⟨-, -, hr', -⟩ := m
      · simp [ha] at ha'
      · have hc' : (s.cnt + 1#2).toNat = s.idx + 1 := by rw [toNat_add_one_of_lt hc, hi]
        have last : s.cnt + 1#2 = s.nbytes ↔ s.idx + 1 = n := by rw [← BitVec.toNat_inj, hc', hn]
        refine ⟨by simp [hd], by simp [hn], by simp [hstop], by simp [htx], by simp [htxd], by simp [hlt],
          by simpa using hv, .inr (.inr ⟨by simp [hs], by simp [ha], rfl, by simp [hc'], ?_⟩)⟩
        simp [last, htc]
      · simp [hr] at hr'
  | eStop => rwa [busStep_of_not_enabled .eStop (by simp [busEnabled, hstop])]

/-- BUSENV closes the transaction that phase W3 or RD3 waits for. -/
theorem busStep_inStop (h : s.inStop) : (busStep r s).inStop := by
  have h' := h
  obtain ⟨hstop, hstart, hact, htx, hrx, htxd, h1, hc⟩ | hidle := h'
  · cases r with
    | eStart => rwa [busStep_of_not_enabled .eStart (by simp [busEnabled, hstart])]
    | eTx => rwa [busStep_of_not_enabled .eTx (by simp [busEnabled, htxd])]
    | eRx => rwa [busStep_of_not_enabled .eRx (by simp [busEnabled, hc])]
    | eStop =>
      obtain e | ⟨-, e⟩ := eStop_cases s <;> rw [busStep, e]
      · exact h
      · exact .inr ⟨hstart, rfl, rfl, rfl, hrx, rfl, htxd, rfl⟩
  · rwa [busStep_of_busIdle r hidle]

end busenv

/-! ### One step of a command, by its plan (R102, R104, R151) -/

/-- The K steps of every command that has one. -/
theorem plan_cases {c : Config} {i : Instr} {k : Nat} {st : KStep} (h : plan c i k = some st) :
    (∃ a nb, i = .i2cWrite a nb ∧ k = 0 ∧ st = .write nb.toNat)
      ∨ (∃ a nb, i = .i2cRead a nb ∧ k = 0 ∧ st = .read nb.toNat)
      ∨ (i = .sensorInit ∧ k < 4 ∧ st = .write 3)
      ∨ (i = .readMfrId ∧ (k = 0 ∧ st = .write 1 ∨ k = 1 ∧ st = .read 2 ∨ k = 2 ∧ st = .finish 2))
      ∨ ∃ reg sc d, measures c i = some (reg, sc) ∧ (c.desc.find? fun d => d.addr == reg) = some d
          ∧ (k = 0 ∧ st = .write 1 ∨ k = 1 ∧ st = .read (descBytes d) ∨ k = 2 ∧ st = .finish (descBytes d)) := by
  unfold plan at h
  split at h
  · simp only [Option.ite_none_right_eq_some, Option.some.injEq] at h
    exact .inl ⟨_, _, rfl, h.1, h.2.symm⟩
  · simp only [Option.ite_none_right_eq_some, Option.some.injEq] at h
    exact .inr (.inl ⟨_, _, rfl, h.1, h.2.symm⟩)
  · simp only [Option.ite_none_right_eq_some, Option.some.injEq] at h
    exact .inr (.inr (.inl ⟨rfl, h.1, h.2.symm⟩))
  · exact .inr (.inr (.inr (.inl ⟨rfl, by grind⟩)))
  · obtain ⟨⟨reg, sc⟩, hm, hp⟩ := Option.bind_eq_some_iff.1 h
    unfold sensorPlan at hp
    split at hp
    · cases hp
    · exact .inr (.inr (.inr (.inr ⟨reg, sc, _, hm, by assumption, by grind⟩)))

/-- The bytes of a K step's transaction, or those that its last step needs. -/
def KStep.bytes : KStep → Nat
  | .write n | .read n | .finish n => n

/-- A K step of a legal command is about 1 to 3 bytes (R86, R100). -/
theorem plan_bytes_range {c : Config} {i : Instr} {k : Nat} {st : KStep} (hw : i.wf = true)
    (h : plan c i k = some st) : 1 ≤ st.bytes ∧ st.bytes ≤ 3 := by
  have operand : ∀ nb : BitVec 2, okByteCount nb = true → 1 ≤ nb.toNat ∧ nb.toNat ≤ 3 := by decide
  obtain ⟨_, nb, rfl, -, rfl⟩ | ⟨_, nb, rfl, -, rfl⟩ | ⟨-, -, rfl⟩ | ⟨-, e⟩ | ⟨-, -, d, -, -, e⟩ := plan_cases h
  · exact operand nb hw
  · exact operand nb hw
  · simp [KStep.bytes]
  · obtain ⟨-, rfl⟩ | ⟨-, rfl⟩ | ⟨-, rfl⟩ := e <;> simp [KStep.bytes]
  · have width := descBytes_range d
    obtain ⟨-, rfl⟩ | ⟨-, rfl⟩ | ⟨-, rfl⟩ := e <;> simp only [KStep.bytes] <;> omega

/-- The phase in which a K step begins (R150, R151). -/
def KStep.entry : KStep → Phase
  | .write _ => .w0
  | .read _ => .rd0
  | .finish _ => .k2

/-- What follows the transaction of a K step: the command ends, or its next K step begins. -/
def State.goesOn (s : State) (i : Instr) (t : State) : Prop :=
  t = s.done ∨ ∃ st, plan s.config i (s.kIdx + 1) = some st ∧ t = s.nextK st.entry

/-- With a descriptor, K0 of `sensor_read` is the pointer write (R151). -/
theorem sensorReadK0_of_desc {s : State} {reg : BitVec 6} {d : Descriptor} (h : s.desc reg = some d) :
    sensorReadK0 reg s = pointStep reg s := by
  unfold sensorReadK0
  split <;> simp_all

/-- The step of a K step that writes is `BTD_WRITE` (R102, R103). -/
theorem exec_of_plan_write {s : State} {i : Instr} {n : Nat} (h : plan s.config i s.kIdx = some (.write n)) :
    ∃ load sadd fin, exec i s = .next (btdWrite load sadd n fin s) ∧ (∀ t, ∃ p, load t = { t with pbuf := p })
      ∧ s.goesOn i (fin s) := by
  obtain ⟨a, nb, rfl, -, e⟩ | ⟨_, _, -, -, e⟩ | ⟨rfl, hk, e⟩ | ⟨rfl, ⟨hk, e⟩ | ⟨-, e⟩ | ⟨-, e⟩⟩
    | ⟨reg, sc, d, hm, hd, ⟨hk, e⟩ | ⟨-, e⟩ | ⟨-, e⟩⟩ := plan_cases h <;> cases e
  · exact ⟨id, a, State.done, rfl, fun _ => ⟨_, rfl⟩, .inl rfl⟩
  · have hc : s.kIdx = 0 ∨ s.kIdx = 1 ∨ s.kIdx = 2 ∨ s.kIdx = 3 := by omega
    rcases hc with hk | hk | hk | hk <;> simp only [exec, execSensorInit, hk, wr16Step]
    · exact ⟨_, _, _, rfl, fun _ => ⟨_, rfl⟩, .inr ⟨.write 3, by simp [plan, hk], rfl⟩⟩
    · exact ⟨_, _, _, rfl, fun _ => ⟨_, rfl⟩, .inr ⟨.write 3, by simp [plan, hk], rfl⟩⟩
    · exact ⟨_, _, _, rfl, fun _ => ⟨_, rfl⟩, .inr ⟨.write 3, by simp [plan, hk], rfl⟩⟩
    · exact ⟨_, _, _, rfl, fun _ => ⟨_, rfl⟩, .inl rfl⟩
  · simp only [exec, execReadMfrId, hk, pointStep]
    exact ⟨_, _, _, rfl, fun _ => ⟨_, rfl⟩, .inr ⟨.read 2, by simp [plan, hk], rfl⟩⟩
  · rw [exec_measures hm, sensorRead, hk]
    simp only [sensorReadK0_of_desc hd, pointStep]
    refine ⟨_, _, _, rfl, fun _ => ⟨_, rfl⟩, .inr ⟨.read (descBytes d), ?_, rfl⟩⟩
    simp [measures_plan hm, sensorPlan, hd, hk]

/-- The step of a K step that reads is `BTD_READ` (R104, R105). -/
theorem exec_of_plan_read {s : State} {i : Instr} {n : Nat} (h : plan s.config i s.kIdx = some (.read n)) :
    ∃ sadd fin, exec i s = .next (btdRead sadd n fin s) ∧ s.goesOn i (fin s) := by
  obtain ⟨_, _, -, -, e⟩ | ⟨a, nb, rfl, -, e⟩ | ⟨-, -, e⟩ | ⟨rfl, ⟨-, e⟩ | ⟨hk, e⟩ | ⟨-, e⟩⟩
    | ⟨reg, sc, d, hm, hd, ⟨-, e⟩ | ⟨hk, e⟩ | ⟨-, e⟩⟩ := plan_cases h <;> cases e
  · exact ⟨a, State.done, rfl, .inl rfl⟩
  · simp only [exec, execReadMfrId, hk]
    exact ⟨_, _, rfl, .inr ⟨.finish 2, by simp [plan, hk], rfl⟩⟩
  · have hd' : s.desc reg = some d := hd
    rw [exec_measures hm, sensorRead, hk]
    simp only [hd', if_true, sensorReadK1]
    refine ⟨_, _, rfl, .inr ⟨.finish (descBytes d), ?_, rfl⟩⟩
    simp [measures_plan hm, sensorPlan, hd, hk]

/-- Without its descriptor a numeric read raises NoDescriptor in its first phase (R151). -/
theorem exec_of_no_desc {s : State} {i : Instr} {reg : BitVec 6} {sc : Bool} (hm : measures s.config i = some (reg, sc))
    (hd : s.desc reg = none) (hp : s.ph = .w0) : exec i s = .next (s.raise (.noDescriptor reg) s.cur) := by
  rw [exec_measures hm, sensorRead]
  split <;> simp [sensorReadK0, hd, hp]

/-! ### A decoded command is legal (R86, R89) -/

section decoded
variable {v : Word} {i : Instr}

theorem decodeN_wf {j : Instr} (h : decodeN j v = .ok i) (hj : j.wf = true) : i.wf = true := by
  unfold decodeN at h
  split_ifs at h
  cases h
  exact hj

theorem decodeT_wf {mk : BitVec 7 → BitVec 2 → Instr} (h : decodeT mk v = .ok i)
    (hmk : ∀ sadd nb, (mk sadd nb).wf = okByteCount nb) : i.wf = true := by
  unfold decodeT at h
  split_ifs at h with _ hn
  cases h
  exact (hmk _ _).trans hn

theorem decodeRS_wf {mk : BitVec 6 → Bool → Instr} (h : decodeRS mk v = .ok i)
    (hmk : ∀ reg sc, (mk reg sc).wf = true) : i.wf = true := by
  unfold decodeRS at h
  split_ifs at h
  cases h
  exact hmk _ _

theorem decodeR_wf {mk : BitVec 6 → Instr} (h : decodeR mk v = .ok i) (hmk : ∀ reg, (mk reg).wf = true) :
    i.wf = true := by
  unfold decodeR at h
  split_ifs at h
  cases h
  exact hmk _

theorem decodeV8_wf {mk : NumSrc 8 → Instr} (h : decodeV8 mk v = .ok i) (hmk : ∀ src, (mk src).wf = true) :
    i.wf = true := by
  unfold decodeV8 at h
  split_ifs at h <;> cases h <;> exact hmk _

theorem decodeV16_wf {mk : NumSrc 16 → Instr} (h : decodeV16 mk v = .ok i) (hmk : ∀ src, (mk src).wf = true) :
    i.wf = true := by
  unfold decodeV16 at h
  split_ifs at h <;> cases h <;> exact hmk _

theorem decodeX_wf {mk : TextSrc → Instr} (h : decodeX mk v = .ok i) (hmk : ∀ src, (mk src).wf = true) :
    i.wf = true := by
  unfold decodeX at h
  split_ifs at h <;> cases h <;> exact hmk _

theorem decodeB_wf {mk : BitVec 16 → Instr} (h : decodeB mk v = .ok i) (hmk : ∀ div, (mk div).wf = okDivisor div) :
    i.wf = true := by
  unfold decodeB at h
  split_ifs at h with _ hd
  cases h
  exact (hmk _).trans hd

/-- A word that decodes is a command with an encoding. -/
theorem decode_wf (h : decode v = .ok i) : i.wf = true := by
  unfold decode at h
  split_ifs at h
  · unfold decodeBtd at h
    split_ifs at h
    · exact decodeT_wf h fun _ _ => rfl
    · exact decodeT_wf h fun _ _ => rfl
  · unfold decodeCodec at h
    split_ifs at h
    · exact decodeRS_wf h fun _ _ => rfl
    · exact decodeR_wf h fun _ => rfl
    · exact decodeN_wf h rfl
  · unfold decodeSensor at h
    split_ifs at h <;> exact decodeN_wf h rfl
  · unfold decodeConsole at h
    split_ifs at h
    · exact decodeB_wf h fun _ => rfl
    · exact decodeN_wf h rfl
    · exact decodeN_wf h rfl
    · exact decodeX_wf h fun _ => rfl
    · exact decodeV8_wf h fun _ => rfl
    · exact decodeV16_wf h fun _ => rfl

end decoded

/-! ### The bus invariant (R119) -/

/-- The phases of a bus transaction (R102, R104). -/
def Phase.onBus : Phase → Bool
  | .w0 | .w1 | .w2 | .w3 | .rd0 | .rd1 | .rd2 | .rd3 => true
  | _ => false

/-- What the phase PH of the command `i` says about the bus: the part of `State.phaseOk` that R119 turns on. -/
def State.busPhase (s : State) (i : Instr) : Prop :=
  match s.ph with
  | .w0 =>
    s.busIdle ∧ ((∃ n, plan s.config i s.kIdx = some (.write n))
      ∨ ∃ reg sc, measures s.config i = some (reg, sc) ∧ s.desc reg = none)
  | .w1 => ∃ n, plan s.config i s.kIdx = some (.write n) ∧ s.inW1 n
  | .w2 => ∃ n, plan s.config i s.kIdx = some (.write n) ∧ s.inW2 n
  | .w3 => (∃ n, plan s.config i s.kIdx = some (.write n)) ∧ s.inStop
  | .rd0 => s.busIdle ∧ ∃ n, plan s.config i s.kIdx = some (.read n)
  | .rd1 => ∃ n, plan s.config i s.kIdx = some (.read n) ∧ s.inRD1 n
  | .rd2 => ∃ n, plan s.config i s.kIdx = some (.read n) ∧ s.inRD2 n
  | .rd3 => (∃ n, plan s.config i s.kIdx = some (.read n)) ∧ s.inStop
  | _ => s.busIdle

/-- The bus of a block that runs the command `i`, or has just ended it. -/
def State.busOk (s : State) (i : Instr) : Prop :=
  s.fault = none → (s.busy = false → s.busIdle) ∧ (s.busy = true → s.busPhase i)

section seq
variable {s t : State} {i : Instr} {n : Nat} {fin : State → State}

/-- Outside a transaction the bus is idle. -/
theorem busPhase_of_not_onBus (h : s.ph.onBus = false) : s.busPhase i ↔ s.busIdle := by
  unfold State.busPhase
  split <;> simp_all [Phase.onBus]

/-- Nothing is asked of a faulted block. -/
theorem busOk_raise (code : FaultCode) (cmd : Option Instr) : (s.raise code cmd).busOk i := by
  simp [State.busOk]

/-- While BUSY = 1 the phase says it all. -/
theorem busOk_of_busPhase (hb : s.busy = true) (h : s.busPhase i) : s.busOk i := by
  simp [State.busOk, hb, h]

/-- After a transaction the bus is idle, in the next K step and at the end. -/
theorem busOk_of_goesOn (hb : s.busy = true) (hi : s.busIdle) (h : s.goesOn i t) : t.busOk i := by
  obtain rfl | ⟨st, hp, rfl⟩ := h
  · exact fun _ => ⟨fun _ => hi, fun h => by simp at h⟩
  · refine busOk_of_busPhase hb ?_
    cases st with
    | write n => exact ⟨hi, .inl ⟨n, hp⟩⟩
    | read n => exact ⟨hi, n, hp⟩
    | finish n => exact hi

/-- W3 and RD3 end on an idle bus. -/
theorem seqStopped_busOk (hb : s.busy = true) (hphase : s.busPhase i) (hstop : s.inStop) (hgo : s.goesOn i (fin s)) :
    (seqStopped fin s).busOk i := by
  obtain ⟨hs, h⟩ | ⟨-, h⟩ := seqStopped_cases fin s <;> rw [h]
  · refine busOk_of_goesOn hb (hstop.resolve_left fun ⟨hs', _⟩ => ?_) hgo
    simp [hs] at hs'
  · exact busOk_of_busPhase hb hphase

/-- W0 sets up the transaction, in the first moment of W1. -/
theorem seqW0_busOk {load : State → State} {sadd : BitVec 7} (hb : s.busy = true) (hi : s.busIdle)
    (hplan : plan s.config i s.kIdx = some (.write n)) (hn : 1 ≤ n ∧ n ≤ 3)
    (hl : ∀ t, ∃ p, load t = { t with pbuf := p }) : (seqW0 load sadd n s).busOk i := by
  obtain ⟨-, h⟩ | ⟨-, _, -, h⟩ | ⟨-, hv, h⟩ := seqW0_cases load sadd n s <;> rw [h]
  · exact busOk_raise _ _
  · exact busOk_raise _ _
  · obtain ⟨p, hp⟩ := hl s
    rw [hp] at hv ⊢
    obtain ⟨-, hstop, hact, htx, hrx, htc, htxd, hc⟩ := hi
    exact busOk_of_busPhase hb ⟨n, hplan, rfl, Nat.mod_eq_of_lt (by omega), hstop, hrx, htc, hn.1, hv,
      .inl ⟨rfl, hact, htx, htxd, hc, rfl⟩⟩

/-- W1 sends a byte, the last one or another, or holds. -/
theorem seqW1_busOk (hb : s.busy = true) (hphase : s.busPhase i) (hplan : plan s.config i s.kIdx = some (.write n))
    (h : s.inW1 n) : (seqW1 n s).busOk i := by
  have h' := h
  obtain ⟨hd, hn, hstop, hrx, htc, hlt, hv, m⟩ := h'
  have holds : s.txrdy = false → (seqW1 n s).busOk i := fun hr => by
    rw [seqW1_holds hlt hr]
    exact busOk_of_busPhase hb hphase
  obtain ⟨-, -, hr, -⟩ | ⟨hs, ha, hr, ht, hc⟩ | ⟨-, -, hr, -⟩ := m
  · exact holds hr
  · obtain ⟨b, hbyte⟩ := Option.isSome_iff_exists.1 (Pbuf.firstInvalid_none.1 hv _ hlt)
    rw [seqW1_ready hlt hr hbyte]
    refine busOk_of_busPhase hb ?_
    split_ifs with hmore
    · exact ⟨n, hplan, hd, hn, hstop, hrx, htc, hmore, hv, .inr (.inr ⟨hs, ha, rfl, rfl, by simp [hc]⟩)⟩
    · refine ⟨n, hplan, hd, hn, hs, hstop, ha, rfl, hrx, by omega, .inl ⟨htc, rfl, ?_⟩⟩
      simp only [hc]
      omega
  · exact holds hr

/-- W2 requests the stop once I2C_TC is up, or holds. -/
theorem seqStop_w2_busOk (hb : s.busy = true) (hphase : s.busPhase i) (hplan : plan s.config i s.kIdx = some (.write n))
    (h : s.inW2 n) : (seqStop .w3 s).busOk i := by
  have h' := h
  obtain ⟨-, hn, hs, -, ha, htx, hrx, h1, m⟩ := h'
  obtain ⟨ht, e⟩ | ⟨-, e⟩ := seqStop_cases .w3 s <;> rw [e]
  · obtain ⟨ht', -⟩ | ⟨-, htxd, hc⟩ := m
    · simp [ht] at ht'
    · refine busOk_of_busPhase hb ⟨⟨n, hplan⟩, .inl ⟨rfl, hs, ha, htx, hrx, htxd, by simp [hc, h1], ?_⟩⟩
      exact BitVec.eq_of_toNat_eq (hc.trans hn.symm)
  · exact busOk_of_busPhase hb hphase

/-- RD0 sets up the transaction, in the first moment of RD1. -/
theorem seqRD0_busOk {sadd : BitVec 7} (hb : s.busy = true) (hi : s.busIdle)
    (hplan : plan s.config i s.kIdx = some (.read n)) (hn : 1 ≤ n ∧ n ≤ 3) : (seqRD0 sadd n s).busOk i := by
  obtain ⟨-, h⟩ | ⟨-, h⟩ := seqRD0_cases sadd n s <;> rw [h]
  · exact busOk_raise _ _
  · obtain ⟨-, hstop, hact, htx, hrx, htc, htxd, hc⟩ := hi
    exact busOk_of_busPhase hb ⟨n, hplan, rfl, Nat.mod_eq_of_lt (by omega), hstop, htx, htxd, hn.1,
      fun _ hk => absurd hk (Nat.not_lt_zero _), .inl ⟨rfl, hact, hrx, htc, hc, rfl⟩⟩

/-- RD1 takes a byte, the last one or another, or holds. -/
theorem seqRD1_busOk (hb : s.busy = true) (hphase : s.busPhase i) (hplan : plan s.config i s.kIdx = some (.read n))
    (_ : n ≤ 3) (h : s.inRD1 n) : (seqRD1 n s).busOk i := by
  have h' := h
  obtain ⟨hd, hn, hstop, htx, htxd, hlt, hv, m⟩ := h'
  have holds : s.rxrdy = false → (seqRD1 n s).busOk i := fun hr => by
    rw [seqRD1_holds hlt hr]
    exact busOk_of_busPhase hb hphase
  obtain ⟨-, -, hr, -⟩ | ⟨-, -, hr, -⟩ | ⟨hs, ha, hr, hc, htc⟩ := m
  · exact holds hr
  · exact holds hr
  · have taken : ∀ k, k < s.idx + 1 → ((s.pbuf.set s.idx s.rxd).get k).isSome = true := fun k hk => by
      rw [Pbuf.get_set (by omega)]
      split_ifs with hki
      · rfl
      · exact hv k (by omega)
    rw [seqRD1_ready hlt hr]
    refine busOk_of_busPhase hb ?_
    split_ifs with hmore
    · exact ⟨n, hplan, hd, hn, hstop, htx, htxd, hmore, taken,
        .inr (.inl ⟨hs, ha, rfl, htc.trans (decide_eq_false (by omega)), hc⟩)⟩
    · have last : s.idx + 1 = n := by omega
      exact ⟨n, hplan, hd, hn, hs, hstop, ha, htx, rfl, htxd, htc.trans (decide_eq_true last), hc.trans last, by omega,
        Pbuf.firstInvalid_none.2 (last ▸ taken)⟩

/-- RD2 requests the stop: I2C_TC is up. -/
theorem seqStop_rd2_busOk (hb : s.busy = true) (hplan : plan s.config i s.kIdx = some (.read n)) (h : s.inRD2 n) :
    (seqStop .rd3 s).busOk i := by
  obtain ⟨-, hn, hs, -, ha, htx, hrx, htxd, ht, hc, h1, -⟩ := h
  obtain ⟨-, e⟩ | ⟨ht', -⟩ := seqStop_cases .rd3 s
  · rw [e]
    refine busOk_of_busPhase hb ⟨⟨n, hplan⟩, .inl ⟨rfl, hs, ha, htx, hrx, htxd, by simp [hc, h1], ?_⟩⟩
    exact BitVec.eq_of_toNat_eq (hc.trans hn.symm)
  · simp [ht] at ht'

/-- Outside a transaction a step of a command leaves the bus idle and begins no transaction. -/
theorem SeqMove.busOk (h : SeqMove i s t) (hq : s.ph.onBus = false) (hi : s.busIdle) : t.busOk i := by
  have hold : s.busOk i := fun _ => ⟨fun _ => hi, fun _ => (busPhase_of_not_onBus hq).2 hi⟩
  have done : ∀ u : State, u.busy = false → u.busIdle → u.busOk i := fun u hb hu _ => ⟨fun _ => hu, by simp [hb]⟩
  have onBus : ∀ {ph : Phase}, ph.onBus = true → s.ph ≠ ph := fun h e => by simp [e, h] at hq
  cases h with
  | hold => exact hold
  | fault code => exact busOk_raise _ _
  | setUpWrite p sadd n hb hr hw hp => exact absurd hp (onBus rfl)
  | setUpRead sadd n hb hr hi hp => exact absurd hp (onBus rfl)
  | send b ph hb hr hp => exact absurd hp (onBus rfl)
  | take ph hb hr hi hp => exact absurd hp (onBus rfl)
  | skip ph hb hp => exact (hp.elim (onBus rfl) (onBus rfl)).elim
  | requestStop ph hb hp => exact (hp.elim (onBus rfl) (onBus rfl)).elim
  | nextK ph hb hw hr hp => exact (hp.elim (onBus rfl) (onBus rfl)).elim
  | done | result | string | divisor | enable | disable => exact done _ rfl hi
  | startText | fetchText | format | fetchDigit | sendChar | sendDigit => exact fun _ => ⟨fun _ => hi, fun _ => hi⟩

/-- A step of a write transaction leaves the bus in order. -/
theorem btdWrite_busOk {load : State → State} {sadd : BitVec 7} (hw : i.wf = true) (hb : s.busy = true)
    (hphase : s.busPhase i) (hplan : plan s.config i s.kIdx = some (.write n))
    (hl : ∀ t, ∃ p, load t = { t with pbuf := p }) (hgo : s.goesOn i (fin s)) :
    (btdWrite load sadd n fin s).busOk i := by
  have hphase' := hphase
  unfold btdWrite
  split <;> rename_i hp <;> simp only [State.busPhase, hp, hplan, Option.some.injEq, KStep.write.injEq] at hphase'
  · exact seqW0_busOk hb hphase'.1 hplan (plan_bytes_range hw hplan) hl
  · obtain ⟨_, rfl, h⟩ := hphase'
    exact seqW1_busOk hb hphase hplan h
  · obtain ⟨_, rfl, h⟩ := hphase'
    exact seqStop_w2_busOk hb hphase hplan h
  · exact seqStopped_busOk hb hphase hphase'.2 hgo
  · exact busOk_of_busPhase hb hphase

/-- A step of a read transaction leaves the bus in order. -/
theorem btdRead_busOk {sadd : BitVec 7} (hw : i.wf = true) (hb : s.busy = true) (hphase : s.busPhase i)
    (hplan : plan s.config i s.kIdx = some (.read n)) (hgo : s.goesOn i (fin s)) :
    (btdRead sadd n fin s).busOk i := by
  have hphase' := hphase
  unfold btdRead
  split <;> rename_i hp <;> simp only [State.busPhase, hp, hplan, Option.some.injEq, KStep.read.injEq] at hphase'
  · exact seqRD0_busOk hb hphase'.1 hplan (plan_bytes_range hw hplan)
  · obtain ⟨_, rfl, h⟩ := hphase'
    exact seqRD1_busOk hb hphase hplan (plan_bytes_range hw hplan).2 h
  · obtain ⟨_, rfl, h⟩ := hphase'
    exact seqStop_rd2_busOk hb hplan h
  · exact seqStopped_busOk hb hphase hphase'.2 hgo
  · exact busOk_of_busPhase hb hphase

/-- A K step without a transaction finds the bus idle; W0 is a phase of it only where the descriptor is missing. -/
theorem busPhase_of_no_transaction (hw : ¬∃ n, plan s.config i s.kIdx = some (.write n))
    (hr : ¬∃ n, plan s.config i s.kIdx = some (.read n)) (h : s.busPhase i) :
    s.busIdle ∧ (s.ph.onBus = false
      ∨ s.ph = .w0 ∧ ∃ reg sc, measures s.config i = some (reg, sc) ∧ s.desc reg = none) := by
  unfold State.busPhase at h
  split at h
  case h_1 hp => exact ⟨h.1, .inr ⟨hp, h.2.resolve_left hw⟩⟩
  case h_5 => exact absurd h.2 hr
  case h_9 => exact ⟨h, .inl (by unfold Phase.onBus; split <;> simp_all)⟩
  all_goals grind

/-- A step of a running command leaves the bus in order. -/
theorem exec_busOk (hw : i.wf = true) (hb : s.busy = true) (hphase : s.busPhase i) (h : exec i s = .next t) :
    t.busOk i := by
  by_cases hpw : ∃ n, plan s.config i s.kIdx = some (.write n)
  · obtain ⟨n, hplan⟩ := hpw
    obtain ⟨load, sadd, fin, he, hl, hgo⟩ := exec_of_plan_write hplan
    cases he.symm.trans h
    exact btdWrite_busOk hw hb hphase hplan hl hgo
  by_cases hpr : ∃ n, plan s.config i s.kIdx = some (.read n)
  · obtain ⟨n, hplan⟩ := hpr
    obtain ⟨sadd, fin, he, hgo⟩ := exec_of_plan_read hplan
    cases he.symm.trans h
    exact btdRead_busOk hw hb hphase hplan hgo
  · obtain ⟨hi, hq | ⟨hp, reg, sc, hm, hd⟩⟩ := busPhase_of_no_transaction hpw hpr hphase
    · exact (exec_move h).busOk hq hi
    · cases (exec_of_no_desc hm hd hp).symm.trans h
      exact busOk_raise _ _

end seq

/-- The bus invariant: R119, and the phase of a running command. -/
structure BusInv (s : State) : Prop where
  /-- R119 -/
  idle : s.fault = none → s.busy = false → s.busIdle
  /-- a running command is a legal one, in a phase that says where the bus stands -/
  running : s.fault = none → s.busy = true → ∃ i, s.cur = some i ∧ i.wf = true ∧ s.busPhase i

section agents
variable {s t : State} {i : Instr}

/-- A command finds the bus idle when it is accepted, and begins in its first phase (R80). -/
theorem busPhase_acceptInstr (i : Instr) (h : s.busIdle) : (s.acceptInstr i).busPhase i := by
  rcases hm : measures s.config i with _ | ⟨reg, sc⟩
  · cases i with
    | i2cWrite a nb => exact ⟨h, .inl ⟨nb.toNat, rfl⟩⟩
    | i2cRead a nb => exact ⟨h, nb.toNat, rfl⟩
    | sensorInit => exact ⟨h, .inl ⟨3, rfl⟩⟩
    | readMfrId => exact ⟨h, .inl ⟨1, rfl⟩⟩
    | readDeviceId | readCurrent | readVoltage | readTemperature | readPower | readEnergy | readCharge =>
      simp [measures] at hm
    | _ => exact h
  · have hp : (s.acceptInstr i).ph = .w0 := by cases i <;> simp [measures] at hm <;> rfl
    simp only [State.busPhase, hp]
    refine ⟨h, ?_⟩
    cases hd : s.desc reg with
    | none => exact .inr ⟨reg, sc, hm, hd⟩
    | some d =>
      have hd' : (s.config.desc.find? fun d => d.addr == reg) = some d := hd
      exact .inl ⟨1, by simp [measures_plan (s := s) hm, sensorPlan, hd']⟩

/-- BUSENV keeps what the phase says about the bus. -/
theorem busPhase_busStep (r : BusRule) (h : s.busPhase i) : (busStep r s).busPhase i := by
  obtain ⟨-, -, -, hp, hk, hc, -⟩ := busStep_frame r s
  have idle : s.busIdle → (busStep r s).busIdle := fun h => by rwa [busStep_of_busIdle r h]
  unfold State.busPhase at h ⊢
  rw [hp, hk, hc]
  generalize s.ph = ph at h ⊢
  cases ph with
  | w0 => exact ⟨idle h.1, by simpa only [State.desc, hc] using h.2⟩
  | w1 => exact h.imp fun n h => ⟨h.1, busStep_inW1 r h.2⟩
  | w2 => exact h.imp fun n h => ⟨h.1, busStep_inW2 r h.2⟩
  | w3 => exact ⟨h.1, busStep_inStop r h.2⟩
  | rd0 => exact ⟨idle h.1, h.2⟩
  | rd1 => exact h.imp fun n h => ⟨h.1, busStep_inRD1 r h.2⟩
  | rd2 => exact h.imp fun n h => ⟨h.1, by rw [busStep_of_inRD2 r h.2]; exact h.2⟩
  | rd3 => exact ⟨h.1, busStep_inStop r h.2⟩
  | _ => exact idle h

/-- A step of HOST keeps the bus invariant: only a block that is not busy accepts a command. -/
theorem BusInv.hostStep (h : BusInv s) (hf : s.fault = none) : BusInv (hostStep s) := by
  obtain e | ⟨_, e⟩ | ⟨v, ops, e⟩ | ⟨hb, _, _, _, t, ops, _, hw, e⟩ := hostStep_cases s <;> rw [e]
  · exact h
  · exact ⟨by simp, by simp⟩
  · exact ⟨h.idle, h.running⟩
  · have hi := h.idle hf hb
    have stays : ∀ u : State, u.busy = false → u.busIdle → BusInv u := fun u hb hu => ⟨fun _ _ => hu, by simp [hb]⟩
    obtain ⟨-, ⟨i, hd, rfl⟩ | ⟨_, rfl⟩ | ⟨_, _, _, rfl⟩ | ⟨_, -, rfl⟩⟩ := hostWrite_ok hw
    · exact ⟨fun _ _ => hi, fun _ _ => ⟨i, rfl, decode_wf hd, busPhase_acceptInstr i hi⟩⟩
    · exact stays _ hb hi
    · exact stays _ hb hi
    · exact stays _ hb hi

/-- A command stays the current one through its steps. -/
theorem SeqMove.cur_eq (h : SeqMove i s t) : t.cur = s.cur := by
  cases h <;> rfl

/-- A step of SEQ keeps the bus invariant. -/
theorem BusInv.seqStep (h : BusInv s) (hf : s.fault = none) (hs : seqStep s = .next t) : BusInv t := by
  obtain e | ⟨hb, i, hcur, e⟩ := seqStep_cases s <;> rw [e] at hs
  · cases hs
    exact h
  · obtain ⟨j, hj, hw, hphase⟩ := h.running hf hb
    obtain rfl : i = j := Option.some.inj (hcur.symm.trans hj)
    have ok := exec_busOk hw hb hphase hs
    exact ⟨fun ht => (ok ht).1, fun ht hb' => ⟨i, (exec_move hs).cur_eq.trans hcur, hw, (ok ht).2 hb'⟩⟩

/-- A step of BUSENV keeps the bus invariant. -/
theorem BusInv.busStep (r : BusRule) (h : BusInv s) : BusInv (busStep r s) := by
  obtain ⟨hf, hb, hc, -⟩ := busStep_frame r s
  constructor <;> rw [hf, hb]
  · intro hf' hb'
    rw [busStep_of_busIdle r (h.idle hf' hb')]
    exact h.idle hf' hb'
  · intro hf' hb'
    obtain ⟨i, hi, hw, hphase⟩ := h.running hf' hb'
    exact ⟨i, hc.trans hi, hw, busPhase_busStep r hphase⟩

/-- A step of LINEENV keeps the bus invariant. -/
theorem BusInv.lineStep (h : BusInv s) : BusInv (lineStep s) := by
  obtain e | ⟨_, -, e⟩ := lineStep_cases s <;> rw [e]
  · exact h
  · exact ⟨h.idle, h.running⟩

/-- The choice of the mover keeps the bus invariant. -/
theorem BusInv.scheduled (h : BusInv s) : BusInv s.scheduled := by
  unfold State.scheduled
  split <;> exact ⟨h.idle, h.running⟩

/-- Every agent keeps the bus invariant. -/
theorem BusInv.agentStep {a : Agent} (h : BusInv s) (hf : s.fault = none) (ha : agentStep a s = .next t) :
    BusInv t := by
  cases a with
  | host => cases ha; exact h.hostStep hf
  | seq => exact h.seqStep hf ha
  | bus r => cases ha; exact h.busStep r
  | line => cases ha; exact h.lineStep

end agents

/-! ### The console invariant (R189) -/

/-- The phases of a text or number write that has found the console enabled (R176, R180). -/
def Phase.sending : Phase → Bool
  | .t1 | .t2 _ | .n1 | .n2 _ => true
  | _ => false

/-- The console invariant: R189, and what keeps UART_STOP apart from a write under way. -/
structure ConsoleInv (s : State) : Prop where
  /-- R189 -/
  ok : s.consoleOk
  /-- a write under way has found the console enabled -/
  enabled : s.busy = true → (∀ i, s.cur = some i → busCommand i = false) → s.ph.sending = true → s.uEn = true

section console
variable {s t : State} {i : Instr}

/-- A step of a running command keeps the console invariant: the stage is filled only in a sending phase, and the console
is disabled only where the stage is empty. -/
theorem SeqMove.consoleInv (h : SeqMove i s t) (hs : ConsoleInv s) (hb : s.busy = true) (hcur : s.cur = some i) :
    ConsoleInv t := by
  have ⟨hok, hon⟩ := hs
  have ⟨hrdy, htc, _⟩ := hok
  have text : ∀ {src}, i = .writeText src → s.ph.sending = true → s.uEn = true := by
    rintro src rfl
    exact hon hb (by simp [hcur, busCommand])
  have number : numberWrite i = true → s.ph.sending = true → s.uEn = true := fun hn =>
    hon hb (by cases i <;> simp [numberWrite] at hn <;> simp [hcur, busCommand])
  have atBus : ∀ u : State, busCommand i = true → u.consoleOk → u.cur = s.cur → ConsoleInv u := fun u hi hu hc =>
    ⟨hu, fun _ h => by simp [h i (hc.trans hcur)] at hi⟩
  have ended : ∀ u : State, u.consoleOk → u.busy = false → ConsoleInv u := fun u hu hb => ⟨hu, by simp [hb]⟩
  cases h with
  | hold => exact hs
  | fault code => exact ⟨hok, hon⟩
  | setUpWrite _ _ _ hi | setUpRead _ _ hi | send _ _ hi | take _ hi | skip _ hi | requestStop _ hi | nextK _ hi =>
    exact atBus _ hi hok rfl
  | done | result | string | divisor => exact ended _ hok rfl
  | enable => exact ended _ ⟨hrdy, htc, fun h => by simp at h⟩ rfl
  | disable _ ht =>
    have empty : s.uStage = none := by
      rw [← Option.isNone_iff_eq_none, ← hrdy, ← htc]
      exact ht
    exact ended _ ⟨hrdy, htc, fun _ => empty⟩ rfl
  | startText src hi hp he => exact ⟨hok, fun _ _ _ => he⟩
  | format buf hi hp he => exact ⟨hok, fun _ _ _ => he⟩
  | fetchText src c hi hp => exact ⟨hok, fun _ _ _ => text hi (by rw [hp]; rfl)⟩
  | fetchDigit c hi hp => exact ⟨hok, fun _ _ _ => number hi (by rw [hp]; rfl)⟩
  | sendChar src c hi hp =>
    have he := text hi (by rw [hp]; rfl)
    exact ⟨⟨rfl, rfl, fun h => by simp [he] at h⟩, fun _ _ _ => he⟩
  | sendDigit c hi hp =>
    have he := number hi (by rw [hp]; rfl)
    exact ⟨⟨rfl, rfl, fun h => by simp [he] at h⟩, fun _ _ _ => he⟩

/-- No command begins in a sending phase. -/
theorem firstPhase_not_sending (i : Instr) : (firstPhase i).sending = false := by
  cases i <;> rfl

/-- A step of HOST keeps the console invariant: an accepted command has not begun to send. -/
theorem ConsoleInv.hostStep (h : ConsoleInv s) : ConsoleInv (hostStep s) := by
  obtain e | ⟨_, e⟩ | ⟨v, ops, e⟩ | ⟨hb, _, _, _, t, ops, _, hw, e⟩ := hostStep_cases s <;> rw [e]
  · exact h
  · exact ⟨h.ok, h.enabled⟩
  · exact ⟨h.ok, h.enabled⟩
  · obtain ⟨-, ⟨i, -, rfl⟩ | ⟨_, rfl⟩ | ⟨_, _, _, rfl⟩ | ⟨_, -, rfl⟩⟩ := hostWrite_ok hw
    · exact ⟨h.ok, fun _ _ hp => by simp [firstPhase_not_sending] at hp⟩
    · exact ⟨h.ok, h.enabled⟩
    · exact ⟨h.ok, h.enabled⟩
    · exact ⟨h.ok, h.enabled⟩

/-- A step of BUSENV keeps the console invariant: it writes nothing of the console. -/
theorem ConsoleInv.busStep (r : BusRule) (h : ConsoleInv s) : ConsoleInv (busStep r s) := by
  obtain ⟨-, hb, hc, hp, -, -, hen, hrdy, htc, hst⟩ := busStep_frame r s
  constructor
  · simpa only [State.consoleOk, hen, hrdy, htc, hst] using h.ok
  · simpa only [hb, hc, hp, hen] using h.enabled

/-- A step of LINEENV keeps the console invariant: it empties the stage and raises both flags. -/
theorem ConsoleInv.lineStep (h : ConsoleInv s) : ConsoleInv (lineStep s) := by
  obtain e | ⟨_, -, e⟩ := lineStep_cases s <;> rw [e]
  · exact h
  · exact ⟨⟨rfl, rfl, fun _ => rfl⟩, h.enabled⟩

/-- Every agent keeps the console invariant. -/
theorem ConsoleInv.agentStep {a : Agent} (h : ConsoleInv s) (ha : agentStep a s = .next t) : ConsoleInv t := by
  cases a with
  | host => cases ha; exact h.hostStep
  | seq =>
    obtain e | ⟨hb, i, hcur, e⟩ := seqStep_cases s <;> rw [Machine.agentStep, e] at ha
    · cases ha
      exact h
    · exact (exec_move ha).consoleInv h hb hcur
  | bus r => cases ha; exact h.busStep r
  | line => cases ha; exact h.lineStep

/-- The choice of the mover keeps the console invariant. -/
theorem ConsoleInv.scheduled (h : ConsoleInv s) : ConsoleInv s.scheduled := by
  unfold State.scheduled
  split <;> exact ⟨h.ok, h.enabled⟩

end console

/-! ### Reachable states -/

/-- What the choice of the mover and every agent's step keep holds after any number of steps. -/
theorem runSteps_invariant {P : State → Prop} (scheduled : ∀ {s}, P s → P s.scheduled)
    (agent : ∀ {a s t}, P s → s.fault = none → agentStep a s = .next t → P t) {n : Nat} {s t : State} (hs : P s)
    (h : runSteps n s = .next t) : P t := by
  induction n generalizing s with
  | zero =>
    cases h
    exact hs
  | succ n ih =>
    unfold runSteps at h
    split at h
    · rename_i u hu
      obtain ⟨-, hf, ha⟩ := step_next hu
      exact ih (agent (scheduled hs) ((State.scheduled_fault s).trans hf) ha) h
    · cases h
    · cases h

/-- A launch starts with the bus idle (R220). -/
theorem busInv_launchState (c : Config) (ops : List HostOp) (sched : List Agent) (draws : List Byte) :
    BusInv (launchState c ops sched draws) :=
  ⟨fun _ _ => ⟨rfl, rfl, rfl, rfl, rfl, rfl, rfl, rfl⟩, nofun⟩

/-- A launch starts with the console disabled and its stage empty (R220). -/
theorem consoleInv_launchState (c : Config) (ops : List HostOp) (sched : List Agent) (draws : List Byte) :
    ConsoleInv (launchState c ops sched draws) :=
  ⟨⟨rfl, rfl, fun _ => rfl⟩, nofun⟩

/-! ### The obligations -/

/-- Settles O51: the bus and the console invariant hold at the launch, and every agent keeps them. -/
theorem reachableBusIdleAndConsole : Obligations.ReachableBusIdleAndConsole := by
  refine ⟨fun c ops sched draws n t _ h => ⟨fun hb hf => ?_, ?_⟩,
    ⟨rfl, rfl, rfl, rfl, rfl, rfl, rfl, rfl⟩, rfl, rfl, fun _ => rfl⟩
  · have bus : BusInv t :=
      runSteps_invariant (P := BusInv) BusInv.scheduled BusInv.agentStep (busInv_launchState c ops sched draws) h
    exact bus.idle hf hb
  · have console : ConsoleInv t :=
      runSteps_invariant (P := ConsoleInv) ConsoleInv.scheduled (fun hs _ ha => hs.agentStep ha)
        (consoleInv_launchState c ops sched draws) h
    obtain ⟨hrdy, htc, hen⟩ := console.ok
    exact ⟨by rw [hrdy, Option.isNone_iff_eq_none], htc, hen⟩

/-- Settles O53: one split by agent; what an agent's step does to the flags is said by that step's own lemmas. -/
theorem flagWriters : Obligations.FlagWriters := by
  intro a s t h
  cases a with
  | host =>
    cases h
    simp +contextual [hostStep_keeps_flags s]
  | seq =>
    obtain h' | ⟨_, i, hcur, h'⟩ := seqStep_cases s <;> simp only [agentStep, h'] at h
    · cases h
      simp +contextual
    · have hm := exec_move h
      obtain ⟨hstart, hstop, htx, hrx, htc, hact⟩ := hm.busFlags
      have hen := hm.uEn_cases
      have hst := hm.stage_cases
      and_intros <;> grind
  | bus r =>
    cases h
    cases r with
    | eStart =>
      obtain h' | ⟨_, _, _, h'⟩ := eStart_cases s <;> simp +contextual [busStep, h']
    | eTx =>
      obtain h' | ⟨_, hd, _, _, ⟨hn, h'⟩ | ⟨hn, h'⟩⟩ := eTx_cases s
      · simp +contextual [busStep, h']
      · simp +contextual [busStep, h', hd, hn]
      · simp +contextual [busStep, h', hn]
    | eRx =>
      obtain h' | ⟨_, _, _, _, h'⟩ := eRx_cases s <;> simp +contextual [busStep, h']
    | eStop =>
      obtain h' | ⟨_, h'⟩ := eStop_cases s <;> simp +contextual [busStep, h']
  | line =>
    cases h
    obtain h' | ⟨_, _, h'⟩ := lineStep_cases s <;> simp +contextual [h']

end Sys2Proof.Machine
end

section
/-!
PROOFS of the obligations of 41_codec.md, and their support: the lookup in a well-formed table, the fields of a register
as numbers, the decodes as extensions of their fields, the scale as a floor division, and the steps of DECODE, SCALE and
MKSTR (R132 to R143).
-/

namespace Sys2Proof.Machine

/-! ### The descriptor table (R132, R133) -/

/-- The check of R132 that no address appears twice, as a proposition. -/
theorem distinct_iff_nodup (l : List (BitVec 6)) : Config.distinct l = true ↔ l.Nodup := by
  induction l with
  | nil => simp [Config.distinct]
  | cons a l ih => simp [Config.distinct, ih]

/-- A well-formed configuration has one entry for each address of its table (R132). -/
theorem Config.wf_nodup {c : Config} (h : c.wf = true) : (c.desc.map Descriptor.addr).Nodup := by
  rw [Config.wf, Bool.and_eq_true] at h
  exact (distinct_iff_nodup _).1 h.2

/-- In a table with one entry for each address the lookup finds the entry of an address (R133). -/
theorem State.desc_eq_some_iff {s : State} {reg : BitVec 6} {d : Descriptor}
    (hn : (s.config.desc.map Descriptor.addr).Nodup) : s.desc reg = some d ↔ d ∈ s.config.desc ∧ d.addr = reg := by
  have found : ∀ {e}, s.desc reg = some e → e ∈ s.config.desc ∧ e.addr = reg := fun he =>
    ⟨List.mem_of_find?_eq_some he, eq_of_beq (List.find?_some he :)⟩
  refine ⟨found, fun ⟨hmem, haddr⟩ => ?_⟩
  cases he : s.desc reg with
  | none => exact absurd (beq_iff_eq.2 haddr) (List.find?_eq_none.1 he d hmem)
  | some e =>
    obtain ⟨hmem', haddr'⟩ := found he
    rw [List.inj_on_of_nodup_map hn hmem' hmem (haddr'.trans haddr.symm)]

/-- The lookup finds nothing exactly if no entry has the address (R133). -/
theorem State.desc_eq_none_iff {s : State} {reg : BitVec 6} :
    s.desc reg = none ↔ ∀ d ∈ s.config.desc, d.addr ≠ reg := by
  simp [State.desc]

/-! ### The register fields (R134, R135, R141) -/

/-- The field of a 24-bit register does not hold the low nibble of the last byte. -/
theorem field20_append (b0 b1 : Byte) (n x : BitVec 4) : field20 b0 b1 (n ++ x) = b0 ++ b1 ++ n := by
  rw [field20, BitVec.extractLsb'_append_eq_left]

/-- The field of a 16-bit register does not hold the low nibble of the last byte. -/
theorem field12_append (b0 : Byte) (n x : BitVec 4) : field12 b0 (n ++ x) = b0 ++ n := by
  rw [field12, BitVec.extractLsb'_append_eq_left]

/-- The bytes that encode a word hold its low 20 bits. -/
theorem field20_encoded (v : Word) (x : BitVec 4) :
    field20 (v.extractLsb' 12 8) (v.extractLsb' 4 8) (v.extractLsb' 0 4 ++ x) = v.extractLsb' 0 20 := by
  rw [field20_append, BitVec.extractLsb'_append_extractLsb'_eq_extractLsb' (by rfl),
    BitVec.extractLsb'_append_extractLsb'_eq_extractLsb' (by rfl)]

/-- The bytes that encode a word hold its low 12 bits. -/
theorem field12_encoded (v : Word) (x : BitVec 4) :
    field12 (v.extractLsb' 4 8) (v.extractLsb' 0 4 ++ x) = v.extractLsb' 0 12 := by
  rw [field12_append, BitVec.extractLsb'_append_extractLsb'_eq_extractLsb' (by rfl)]

/-- The field of a 16-bit register as a number: the first byte on the bus is its bits 11:4 (C1). -/
theorem field12_toNat (b0 b1 : Byte) : (field12 b0 b1).toNat = b0.toNat * 16 + b1.toNat / 16 := by
  have hlow : b1.toNat / 16 < 2 ^ 4 := by omega
  rw [field12, BitVec.toNat_append, BitVec.extractLsb'_toNat, Nat.shiftRight_eq_div_pow, Nat.mod_eq_of_lt hlow,
    ← Nat.shiftLeft_add_eq_or_of_lt hlow, Nat.shiftLeft_eq]

/-- The sign bit of a 24-bit register is bit 7 of the first byte on the bus. -/
theorem field20_signBit (b0 b1 b2 : Byte) : (field20 b0 b1 b2).getLsbD 19 = b0.getLsbD 7 := by
  rw [field20, BitVec.getLsbD_append, BitVec.getLsbD_append]
  rfl

/-! ### The decodes (R134, R135, R142) -/

/-- Sign extension of a 20-bit field is zero extension, with the upper bits set where the sign bit is. -/
theorem signExtend_eq_or (f : BitVec 20) :
    f.signExtend 32 = if f.getLsbD 19 then f.setWidth 32 ||| 0xFFF00000#32 else f.setWidth 32 := by
  have hmsb : f.msb = f.getLsbD 19 := BitVec.msb_eq_getLsbD_last f
  split_ifs with hsign
  · have upper : ∀ i (hi : i < 32), (0xFFF00000#32)[i] = decide (20 ≤ i) := by decide
    ext i hi
    rw [BitVec.getElem_signExtend, BitVec.getElem_or, BitVec.getElem_setWidth, upper, hmsb, hsign]
    by_cases hlow : i < 20
    · simp [hlow]
    · simp [hlow, Nat.le_of_not_lt hlow]
  · exact BitVec.signExtend_eq_setWidth_of_msb_false (hmsb.trans (Bool.eq_false_iff.2 hsign))

/-- The signed decode is the field's sign extension. -/
theorem dec24_signed (b0 b1 b2 : Byte) : dec24 b0 b1 b2 true = (field20 b0 b1 b2).signExtend 32 := by
  rw [signExtend_eq_or, dec24, Bool.true_and]

/-- The unsigned decode is the field's zero extension. -/
theorem dec24_unsigned (b0 b1 b2 : Byte) : dec24 b0 b1 b2 false = (field20 b0 b1 b2).setWidth 32 := rfl

/-- A decode depends on the field alone. -/
theorem dec24_congr {b0 b1 b2 c0 c1 c2 : Byte} (h : field20 b0 b1 b2 = field20 c0 c1 c2) (sg : Bool) :
    dec24 b0 b1 b2 sg = dec24 c0 c1 c2 sg := by
  rw [dec24, h, dec24]

/-- A word in the signed 20-bit range is the sign extension of its low 20 bits. -/
theorem signExtend_low20 {v : Word} (hlo : -2 ^ 19 ≤ v.toInt) (hhi : v.toInt < 2 ^ 19) :
    (v.extractLsb' 0 20).signExtend 32 = v := by
  apply BitVec.eq_of_toInt_eq
  rw [BitVec.toInt_signExtend_of_le (by decide), ← BitVec.setWidth_eq_extractLsb' (by decide), BitVec.toInt_setWidth]
  calc (v.toNat : Int).bmod (2 ^ 20) = v.toInt.bmod (2 ^ 20) := by
        rw [BitVec.toInt_eq_toNat_bmod, Int.bmod_bmod_of_dvd (by decide)]
    _ = v.toInt := Int.bmod_eq_of_le (by omega) (by omega)

/-- A word below `2 ^ w` is the zero extension of its low `w` bits. -/
theorem setWidth_low {v : Word} {w : Nat} (h : v.toNat < 2 ^ w) : (v.extractLsb' 0 w).setWidth 32 = v := by
  apply BitVec.eq_of_toNat_eq
  rw [BitVec.toNat_setWidth, BitVec.extractLsb'_toNat, Nat.shiftRight_zero, Nat.mod_eq_of_lt h,
    Nat.mod_eq_of_lt v.isLt]

/-! ### The scale (R136, R143) -/

/-- The scale is the floor of the exact product over `2 ^ S`, in its low 32 bits. -/
theorem scaleWord_eq_ediv (v : Word) (M S : Nat) : scaleWord v M S = BitVec.ofInt 32 (v.toInt * M / 2 ^ S) := by
  rw [scaleWord, Int.fdiv_eq_ediv_of_nonneg _ (by positivity)]

/-- A scale of `M = 1, S = 0` leaves every value as it is (R137, R138). -/
theorem scaleWord_one_zero (v : Word) : scaleWord v 1 0 = v := by
  simp [scaleWord_eq_ediv, BitVec.ofInt_toInt]

/-- The exact product of the scale is a 64-bit signed number (R136). -/
theorem abs_product_lt (v : Word) {M : Nat} (hM : M < 2 ^ 32) : |v.toInt * M| < 2 ^ 63 := by
  have hv : |v.toInt| ≤ 2 ^ 31 := abs_le.2 ⟨v.le_toInt, v.toInt_lt.le⟩
  calc |v.toInt * M| = |v.toInt| * M := by rw [abs_mul, Nat.abs_cast]
    _ ≤ 2 ^ 31 * M := by gcongr
    _ < 2 ^ 63 := by omega

/-- On the signed 24-bit range the scaled current is the floor itself: it needs no more than its 32 bits (R136). -/
theorem currentScale_toInt {v : Word} (hlo : -2 ^ 19 ≤ v.toInt) (hhi : v.toInt < 2 ^ 19) :
    (scaleWord v 1000000 19).toInt = v.toInt * 1000000 / 2 ^ 19 := by
  rw [scaleWord_eq_ediv]
  exact BitVec.toInt_ofInt_eq_self (by decide) (by omega) (by omega)

/-- The quotient of R143 is exact exactly at the multiples of 8192, for `10 ^ 6 = 2 ^ 6 * 15625` with 15625 odd. -/
theorem currentQuotient_exact_iff (x : Int) : x * 1000000 / 2 ^ 19 * 2 ^ 19 = x * 1000000 ↔ x % 8192 = 0 := by
  omega

/-- Where the quotient of a negative value is not exact, truncation toward zero gives 1 more than the floor. -/
theorem ediv_eq_tdiv_sub_one {a b : Int} (ha : a < 0) (hb : 0 < b) (h : a / b * b ≠ a) : a / b = a.tdiv b - 1 := by
  have hdvd : ¬b ∣ a := fun hd => h (Int.ediv_mul_cancel hd)
  rw [Int.tdiv_eq_ediv, if_neg (not_or.2 ⟨by omega, hdvd⟩), Int.sign_eq_one_of_pos hb, Int.add_sub_cancel]

/-! ### The words of the commands (R82) -/

/-- A field placed at bit 0 is its zero extension. -/
theorem ofNat_place_zero {w : Nat} (f : BitVec w) : BitVec.ofNat 32 (place 0 f) = f.setWidth 32 := by
  rw [place, Nat.pow_zero, Nat.mul_one, BitVec.ofNat_toNat]

/-- A field placed above a smaller number is put together with it by OR. -/
theorem ofNat_place_add {w lo rest : Nat} (f : BitVec w) (h : rest < 2 ^ lo) :
    BitVec.ofNat 32 (place lo f + rest) = f.setWidth 32 <<< lo ||| BitVec.ofNat 32 rest := by
  have hplace : BitVec.ofNat 32 (place lo f) = f.setWidth 32 <<< lo := by
    apply BitVec.eq_of_toNat_eq
    rw [place, BitVec.toNat_ofNat, BitVec.toNat_shiftLeft, BitVec.toNat_setWidth, Nat.shiftLeft_eq, Nat.mod_mul_mod]
  rw [← hplace, ← BitVec.ofNat_or, place, ← Nat.shiftLeft_eq, Nat.shiftLeft_add_eq_or_of_lt h]

/-- The word of a command is its opcode, put together with its operand field by OR (R81, R82). -/
theorem encode_eq_or {i : Instr} (h : Laws.CommandWord.Statement i) :
    encode i = i.opcode.setWidth 32 <<< 24 ||| BitVec.ofNat 32 i.operandBits :=
  ofNat_place_add i.opcode (h.2 ▸ (field (encode i) 0 24).isLt)

/-- The word of DECODE (R85, R137). -/
theorem encode_decodeReg (reg : BitVec 6) (sc : Bool) :
    encode (.decodeReg reg sc) = 0x10000000#32 ||| (BitVec.ofBool sc).setWidth 32 <<< 8 ||| reg.setWidth 32 := by
  have hreg : place 0 reg < 2 ^ 8 := by
    have := reg.isLt
    rw [place]
    omega
  have hop : (Instr.decodeReg reg sc).opcode.setWidth 32 <<< 24 = 0x10000000#32 := by simp [Instr.opcode]
  rw [encode_eq_or (Laws.CommandWord.decodeReg reg sc), hop, Instr.operandBits, ofNat_place_add _ hreg,
    ofNat_place_zero, BitVec.or_assoc]

/-- The word of SCALE (R85, R138). -/
theorem encode_scale (reg : BitVec 6) : encode (.scale reg) = 0x11000000#32 ||| reg.setWidth 32 := by
  have hop : (Instr.scale reg).opcode.setWidth 32 <<< 24 = 0x11000000#32 := by simp [Instr.opcode]
  rw [encode_eq_or (Laws.CommandWord.scale reg), hop, Instr.operandBits, ofNat_place_zero]

/-! ### The commands (R137 to R139) -/

section commands
variable {s : State} {reg : BitVec 6} {sc : Bool} {d : Descriptor}

/-- Without a descriptor DECODE raises NoDescriptor (R137). -/
theorem exec_decodeReg_noDescriptor (hd : s.desc reg = none) :
    exec (.decodeReg reg sc) s = .next (s.raise (.noDescriptor reg) s.cur) := by
  simp [exec, execDecodeReg, hd]

/-- With a descriptor DECODE decodes PBUF to RES (R137). -/
theorem exec_decodeReg_of_desc (hd : s.desc reg = some d) :
    exec (.decodeReg reg sc) s = .next (decodeToRes d sc s) := by
  simp [exec, execDecodeReg, hd]

/-- A decode that fails raises its fault (R137). -/
theorem decodeToRes_error {f : FaultCode} (h : s.decodePayload d = .error f) :
    decodeToRes d sc s = s.raise f s.cur := by
  simp [decodeToRes, h]

/-- A decode that gives a value writes it to RES, scaled where that is asked for, and ends the command (R137). -/
theorem decodeToRes_ok {v : Word} (h : s.decodePayload d = .ok v) :
    decodeToRes d sc s = s.finishRes (scaledBy d sc v) := by
  simp [decodeToRes, h]

/-- A scale of `M = 1, S = 0` changes no result (R137). -/
theorem scaledBy_one_zero (hM : d.M = 1) (hS : d.S = 0) (sc : Bool) (v : Word) : scaledBy d sc v = v := by
  cases sc <;> simp [scaledBy, hM, hS, scaleWord_one_zero]

/-- With a scale of `M = 1, S = 0` it makes no difference whether the decode scales (R137). -/
theorem decodeToRes_unscaled (hM : d.M = 1) (hS : d.S = 0) : decodeToRes d true s = decodeToRes d false s := by
  simp only [decodeToRes, scaledBy_one_zero hM hS]

/-- Without a descriptor SCALE raises NoDescriptor (R138). -/
theorem exec_scale_noDescriptor (hd : s.desc reg = none) :
    exec (.scale reg) s = .next (s.raise (.noDescriptor reg) s.cur) := by
  simp [exec, execScale, hd]

/-- With a descriptor and no value in RES SCALE raises UninitRead (R138). -/
theorem exec_scale_uninitRead (hd : s.desc reg = some d) (hr : s.res = none) :
    exec (.scale reg) s = .next (s.raise (.uninitRead .res) s.cur) := by
  simp [exec, execScale, hd, hr]

/-- With a descriptor SCALE scales the value of RES (R138). -/
theorem exec_scale_of_desc {v : Word} (hd : s.desc reg = some d) (hr : s.res = some v) :
    exec (.scale reg) s = .next (s.finishRes (scaleWord v d.M d.S)) := by
  simp [exec, execScale, hd, hr]

/-- MKSTR raises UninitRead of the first invalid byte of PBUF[0] and PBUF[1] (R139). -/
theorem makeStr_error {k : Nat} (hk : k < 2) (hi : s.pbuf.get k = none)
    (hv : ∀ j, j < k → (s.pbuf.get j).isSome = true) : makeStr s = s.raise (.uninitRead (.pbuf k)) s.cur := by
  have hc : k = 0 ∨ k = 1 := by omega
  rcases hc with rfl | rfl
  · simp [makeStr, State.payload_error hi]
  · obtain ⟨b0, h0⟩ := Option.isSome_iff_exists.1 (hv 0 (by omega))
    simp [makeStr, State.payload_ok h0, State.payload_error hi]

/-- MKSTR makes STR from PBUF[0], PBUF[1] and a NUL (R139). -/
theorem makeStr_ok {b0 b1 : Byte} (h0 : s.pbuf.get 0 = some b0) (h1 : s.pbuf.get 1 = some b1) :
    makeStr s = { s with str := some ⟨b0, b1, 0x00#8⟩, busy := false } := by
  simp [makeStr, State.payload_ok h0, State.payload_ok h1]

end commands

/-! ### The obligations -/

/-- Settles O11: a well-formed table has distinct addresses, and where none is the wanted one the lookup fails. -/
theorem descriptorLookup : Obligations.DescriptorLookup := by
  refine ⟨fun s reg d hwf => State.desc_eq_some_iff (Config.wf_nodup hwf), fun s reg hmiss => ?_⟩
  have hd : s.desc reg = none := State.desc_eq_none_iff.2 hmiss
  exact ⟨fun _ => exec_decodeReg_noDescriptor hd, exec_scale_noDescriptor hd,
    fun i sc hm _ hp => exec_of_no_desc hm hd hp⟩

/-- Settles O26: the decodes are extensions of their fields. -/
theorem decodeFunctions : Obligations.DecodeFunctions := by
  refine ⟨fun b0 b1 b2 => ⟨dec24_signed b0 b1 b2, dec24_unsigned b0 b1 b2, ?_⟩, rfl, rfl, fun b0 b1 => ?_, rfl⟩
  · rw [← field20_signBit b0 b1 b2]
    exact (dec24_signed b0 b1 b2).trans (signExtend_eq_or _)
  · rw [dec16, BitVec.toNat_setWidth_of_le (by decide), field12_toNat]

/-- Settles O27: the scale is a floor division, which fits the result on the signed 24-bit range. -/
theorem scaleRoundsDown : Obligations.ScaleRoundsDown := by
  refine ⟨fun v M S hM _ => ⟨abs_product_lt v hM, v.toInt * M / 2 ^ S, ?_, ?_, scaleWord_eq_ediv v M S⟩,
    fun v hlo hhi => ?_, by decide, by decide, by decide, by decide⟩
  · exact Int.ediv_mul_le _ (by positivity)
  · exact Int.lt_ediv_add_one_mul_self _ (by positivity)
  · rw [currentScale_toInt hlo hhi]
    omega

/-- Settles O28: on the signed 24-bit range the scale is the floor itself, to which the laws of division apply. -/
theorem currentScaleLaws : Obligations.CurrentScaleLaws := by
  refine ⟨fun v w hlo hle hhi => ?_, fun v hlo hhi => ⟨?_, fun hneg hmod => ?_⟩, by decide, by decide, by decide,
    by decide, by decide, by decide⟩
  · rw [currentScale_toInt hlo (by omega), currentScale_toInt (by omega) hhi]
    exact Int.ediv_le_ediv (by decide) (by omega)
  · rw [currentScale_toInt hlo hhi]
    exact currentQuotient_exact_iff v.toInt
  · rw [currentScale_toInt hlo hhi]
    exact ediv_eq_tdiv_sub_one (by omega) (by decide) (mt (currentQuotient_exact_iff v.toInt).1 hmod)

/-- Settles O29: the bytes of an encoding hold the low bits of the value, and a field holds no discarded nibble. -/
theorem codecRoundTrip : Obligations.CodecRoundTrip := by
  refine ⟨fun v x hlo hhi => ?_, fun v x h => ?_, fun v x h => ?_, fun b0 b1 n x y sg => ?_, fun b0 n x y => ?_⟩
  · rw [dec24_signed, field20_encoded, signExtend_low20 hlo hhi]
  · rw [dec24_unsigned, field20_encoded, setWidth_low h]
  · rw [dec16, field12_encoded, setWidth_low h]
  · exact dec24_congr ((field20_append b0 b1 n x).trans (field20_append b0 b1 n y).symm) sg
  · rw [dec16, dec16, field12_append, field12_append]

/-- Settles O30: an extension keeps the number that its field is. -/
theorem decodeRanges : Obligations.DecodeRanges := by
  intro b0 b1 b2
  have hsigned : (dec24 b0 b1 b2 true).toInt = (field20 b0 b1 b2).toInt := by
    rw [dec24_signed, BitVec.toInt_signExtend_of_le (by decide)]
  have hunsigned : (dec24 b0 b1 b2 false).toNat = (field20 b0 b1 b2).toNat := by
    rw [dec24_unsigned, BitVec.toNat_setWidth_of_le (by decide)]
  have hhalf : (dec16 b0 b1).toNat = (field12 b0 b1).toNat := by
    rw [dec16, BitVec.toNat_setWidth_of_le (by decide)]
  have hlo := (field20 b0 b1 b2).le_toInt
  have hhi := (field20 b0 b1 b2).toInt_lt
  refine ⟨by omega, by omega, by omega, by omega, fun h0 h1 h2 => ?_⟩
  have hfield : field20 b0 b1 b2 = 0x80000#20 := by
    rw [field20, h0, h1, h2]
    rfl
  exact ⟨by rw [dec24_signed, hfield]; rfl, by rw [dec24_unsigned, hfield]; rfl⟩

/-- Settles O31: the lookup, then the decode of the descriptor's width, which is scaled where SC asks for it. -/
theorem decodeCommand : Obligations.DecodeCommand := by
  refine fun reg sc s => ⟨encode_decodeReg reg sc, exec_decodeReg_noDescriptor, fun d hd => ⟨?_, ?_, ?_, ?_⟩⟩
  · intro k hk hi hv
    rw [exec_decodeReg_of_desc hd, decodeToRes_error (State.decodePayload_error hk hi hv)]
    rfl
  · intro b0 b1 hw h0 h1
    rw [exec_decodeReg_of_desc hd, decodeToRes_ok (State.decodePayload_w16 hw h0 h1)]
    rfl
  · intro b0 b1 b2 hw h0 h1 h2
    rw [exec_decodeReg_of_desc hd, decodeToRes_ok (State.decodePayload_w24 hw h0 h1 h2)]
    rfl
  · intro hM hS
    rw [exec_decodeReg_of_desc hd, exec_decodeReg_of_desc hd, decodeToRes_unscaled hM hS]

/-- Settles O32: SCALE by its lookup and the validity of RES, MKSTR by the validity of its two bytes. -/
theorem scaleAndMkstrCommands : Obligations.ScaleAndMkstrCommands := by
  refine ⟨fun reg s => ⟨encode_scale reg, exec_scale_noDescriptor, fun d => exec_scale_uninitRead, fun d v hd hr =>
      ⟨exec_scale_of_desc hd hr, fun hM hS => ?_⟩⟩, by decide, by decide, rfl,
    fun s => ⟨fun k hk hi hv => ?_, fun b0 b1 h0 h1 => ?_⟩⟩
  · rw [hM, hS, scaleWord_one_zero]
  · exact congrArg Host.Outcome.next (makeStr_error hk hi hv)
  · exact congrArg Host.Outcome.next (makeStr_ok h0 h1)

end Sys2Proof.Machine
end

section
/-!
PROOFS of an obligation of 43_console.md, and their support: the decimal digits of a number, the formatter as the writer of
these digits and a NUL, and the numeral it sends (R182 to R185).
-/

namespace Sys2Proof.Machine

/-! ### Decimal digits -/

/-- The byte of the decimal digit `q` (R184). -/
def digitByte (q : Nat) : Byte := 0x30#8 + BitVec.ofNat 8 q

theorem digitByte_toNat {q : Nat} (h : q < 10) : (digitByte q).toNat = 0x30 + q := by
  simp only [digitByte, BitVec.toNat_add, BitVec.toNat_ofNat]
  omega

theorem digitByte_eq_zero_iff {q : Nat} (h : q < 10) : digitByte q = 0x30#8 ↔ q = 0 := by
  rw [← BitVec.toNat_inj, digitByte_toNat h]
  simp

/-- The last `k` decimal digits of `n`, most significant first, leading zeros kept. -/
def lastDigits : Nat → Nat → List Byte
  | 0, _ => []
  | k + 1, n => digitByte (n / 10 ^ k) :: lastDigits k (n % 10 ^ k)

@[simp] theorem length_lastDigits (k n : Nat) : (lastDigits k n).length = k := by
  induction k generalizing n with
  | zero => rfl
  | succ k ih => simp [lastDigits, ih]

theorem div_pow_lt_ten {k n : Nat} (h : n < 10 ^ (k + 1)) : n / 10 ^ k < 10 :=
  Nat.div_lt_of_lt_mul (Nat.pow_succ .. ▸ h)

theorem mod_pow_lt (k n : Nat) : n % 10 ^ k < 10 ^ k := Nat.mod_lt _ (by positivity)

theorem lastDigits_digits {k n : Nat} (h : n < 10 ^ k) : ∀ d ∈ lastDigits k n, 0x30 ≤ d.toNat ∧ d.toNat ≤ 0x39 := by
  induction k generalizing n with
  | zero => simp [lastDigits]
  | succ k ih =>
    have hq := div_pow_lt_ten h
    refine List.forall_mem_cons.2 ⟨?_, ih (mod_pow_lt k n)⟩
    rw [digitByte_toNat hq]
    exact ⟨Nat.le_add_right .., Nat.add_le_add_left (Nat.le_of_lt_succ hq) 0x30⟩

/-- Digits appended to those of `a` shift `a` by their number of places. -/
theorem foldl_lastDigits {k n : Nat} (h : n < 10 ^ k) (a : Nat) :
    (lastDigits k n).foldl (fun n d => 10 * n + (d.toNat - 0x30)) a = a * 10 ^ k + n := by
  induction k generalizing n a with
  | zero => simp_all [lastDigits]
  | succ k ih =>
    rw [lastDigits, List.foldl_cons, ih (mod_pow_lt k n), digitByte_toNat (div_pow_lt_ten h), Nat.add_sub_cancel_left]
    calc (10 * a + n / 10 ^ k) * 10 ^ k + n % 10 ^ k
        = a * 10 ^ (k + 1) + (10 ^ k * (n / 10 ^ k) + n % 10 ^ k) := by ring
      _ = a * 10 ^ (k + 1) + n := by rw [Nat.div_add_mod]

/-! ### The numeral -/

/-- The decimal numeral of `n`: as many digits as `n` has, and one for 0. -/
def numeral (n : Nat) : List Byte := lastDigits (Nat.log 10 n + 1) n

theorem lt_pow_numeral (n : Nat) : n < 10 ^ (Nat.log 10 n + 1) := Nat.lt_pow_succ_log_self (by decide) n

/-- The numeral of a number below `10 ^ (k + 1)` that reaches the place `10 ^ k`, or of a digit. -/
theorem numeral_eq_lastDigits {k n : Nat} (hlo : 10 ^ k ≤ n ∨ k = 0) (hhi : n < 10 ^ (k + 1)) :
    numeral n = lastDigits (k + 1) n := by
  have hlog : Nat.log 10 n = k := by
    obtain hle | rfl := hlo
    · exact Nat.log_eq_of_pow_le_of_lt_pow hle hhi
    · exact Nat.log_of_lt hhi
  rw [numeral, hlog]

theorem length_numeral (n : Nat) : (numeral n).length = Nat.log 10 n + 1 := length_lastDigits ..

theorem length_numeral_of {k n : Nat} (hlo : 10 ^ k ≤ n ∨ k = 0) (hhi : n < 10 ^ (k + 1)) :
    (numeral n).length = k + 1 := by
  rw [numeral_eq_lastDigits hlo hhi, length_lastDigits]

theorem numeral_digits (n : Nat) : ∀ d ∈ numeral n, 0x30 ≤ d.toNat ∧ d.toNat ≤ 0x39 :=
  lastDigits_digits (lt_pow_numeral n)

theorem decimalValue_numeral (n : Nat) : decimalValue (numeral n) = n :=
  (foldl_lastDigits (lt_pow_numeral n) 0).trans (by simp)

/-- Only 0 has a numeral that starts with the digit 0: the leading digit of any other number is not 0. -/
theorem head?_numeral_eq_zero_iff (n : Nat) : (numeral n).head? = some 0x30#8 ↔ n = 0 := by
  have hlead : n / 10 ^ Nat.log 10 n = 0 ↔ n = 0 := by
    refine ⟨fun h => by_contra fun hn => ?_, fun h => by simp [h]⟩
    exact (Nat.div_pos (Nat.pow_log_le_self 10 hn) (by positivity)).ne' h
  simp [numeral, lastDigits, digitByte_eq_zero_iff (div_pow_lt_ten (lt_pow_numeral n)), hlead]

theorem isDecimal_numeral (n : Nat) : isDecimal n (numeral n) := by
  refine ⟨List.ne_nil_of_length_pos ?_, numeral_digits n, decimalValue_numeral n, fun h => ?_⟩
  · rw [length_numeral]
    omega
  · rw [(head?_numeral_eq_zero_iff n).1 h]
    rfl

/-! ### What the formatter writes (R184) -/

/-- Write the bytes `ds` and a NUL from index `j` on. -/
def putText : List Byte → Nat → Vector Byte 6 → Vector Byte 6
  | [], j, buf => buf.setIfInBounds j 0x00#8
  | d :: ds, j, buf => putText ds (j + 1) (buf.setIfInBounds j d)

/-- A text that fits stands at its index, and the bytes around it are as before. -/
theorem toList_putText (ds : List Byte) (j : Nat) (buf : Vector Byte 6) (h : j + ds.length < 6) :
    (putText ds j buf).toList = buf.toList.take j ++ ds ++ 0x00#8 :: buf.toList.drop (j + ds.length + 1) := by
  induction ds generalizing j buf with
  | nil =>
    have hj : j < buf.toList.length := by simpa using h
    rw [putText, Vector.toList_setIfInBounds, List.set_eq_take_append_cons_drop, if_pos hj]
    simp
  | cons d ds ih =>
    rw [List.length_cons] at h
    have htake : (buf.setIfInBounds j d).toList.take (j + 1) = buf.toList.take j ++ [d] := by
      simp [List.take_add_one, List.take_set_of_le, show j < 6 by omega]
    have hdrop : (buf.setIfInBounds j d).toList.drop (j + 1 + ds.length + 1)
        = buf.toList.drop (j + (d :: ds).length + 1) := by
      rw [Vector.toList_setIfInBounds, List.drop_set_of_lt (by omega), List.length_cons, Nat.add_right_comm j 1,
        Nat.add_assoc j]
    rw [putText, ih (j + 1) _ (by omega), htake, hdrop, List.append_assoc _ [d], List.singleton_append]

/-- A text of bytes other than NUL is what is sent of it. -/
theorem sentBytes_putText {ds : List Byte} (hlen : ds.length < 6) (hds : ∀ d ∈ ds, d ≠ 0x00#8) (buf : Vector Byte 6) :
    sentBytes (putText ds 0 buf) = ds := by
  rw [sentBytes, toList_putText ds 0 buf (by omega), List.take_zero, List.nil_append,
    List.takeWhile_append_of_pos (by simpa using hds)]
  simp

/-- The digit places below `10 ^ k`, greatest first: those of R179 are the places below `10 ^ 3` and `10 ^ 5`. -/
def placesBelow : Nat → List Nat
  | 0 => []
  | k + 1 => 10 ^ k :: placesBelow k

theorem placesU8_eq : placesU8 = placesBelow 3 := rfl

theorem placesU16_eq : placesU16 = placesBelow 5 := rfl

/-- One place of the formatter: its digit is written if it is not 0, if a digit was written before, or at the last place. -/
theorem fmtPlaces_succ {k n : Nat} (h : n < 10 ^ (k + 1)) (j : Nat) (started : Bool) (buf : Vector Byte 6) :
    fmtPlaces (placesBelow (k + 1)) n j started buf =
      if 10 ^ k ≤ n ∨ started = true ∨ k = 0 then
        fmtPlaces (placesBelow k) (n % 10 ^ k) (j + 1) true (buf.setIfInBounds j (digitByte (n / 10 ^ k)))
      else fmtPlaces (placesBelow k) (n % 10 ^ k) j started buf := by
  have hsub : subtractPlace 9 n (10 ^ k) 0x30#8 = (n % 10 ^ k, digitByte (n / 10 ^ k)) :=
    subtractPlace_eq 9 n (10 ^ k) 0x30#8 (by positivity) (by rw [Nat.pow_succ] at h; omega)
  have hzero : digitByte (n / 10 ^ k) = 0x30#8 ↔ n < 10 ^ k := by
    rw [digitByte_eq_zero_iff (div_pow_lt_ten h), Nat.div_eq_zero_iff_lt (by positivity)]
  simp only [placesBelow, fmtPlaces, hsub]
  congr 1
  simp [hzero, or_assoc]

/-- After the first digit the formatter writes a digit at every place. -/
theorem fmtPlaces_started {k n : Nat} (h : n < 10 ^ k) (j : Nat) (buf : Vector Byte 6) :
    fmtPlaces (placesBelow k) n j true buf = putText (lastDigits k n) j buf := by
  induction k generalizing n j buf with
  | zero => rfl
  | succ k ih =>
    rw [fmtPlaces_succ h, if_pos (by simp), ih (mod_pow_lt k n)]
    rfl

/-- Before the first digit the formatter drops the leading zeros, so what it writes is the numeral. -/
theorem fmtPlaces_numeral {k n : Nat} (h : n < 10 ^ (k + 1)) (j : Nat) (buf : Vector Byte 6) :
    fmtPlaces (placesBelow (k + 1)) n j false buf = putText (numeral n) j buf := by
  induction k generalizing n with
  | zero =>
    rw [fmtPlaces_succ h, if_pos (by simp), fmtPlaces_started (mod_pow_lt 0 n), numeral_eq_lastDigits (.inr rfl) h]
    rfl
  | succ k ih =>
    rw [fmtPlaces_succ h]
    split
    case isTrue hp =>
      have hle : 10 ^ (k + 1) ≤ n := by simpa using hp
      rw [fmtPlaces_started (mod_pow_lt _ n), numeral_eq_lastDigits (.inl hle) h]
      rfl
    case isFalse hp =>
      have hlt : n < 10 ^ (k + 1) := by simpa using hp
      rw [Nat.mod_eq_of_lt hlt, ih hlt]

/-- What a number write sends is the numeral of its operand, where the operand has at most five digits. -/
theorem sentBytes_fmtPlaces {k n : Nat} (hk : k < 5) (h : n < 10 ^ (k + 1)) (buf : Vector Byte 6) :
    sentBytes (fmtPlaces (placesBelow (k + 1)) n 0 false buf) = numeral n := by
  rw [fmtPlaces_numeral h]
  refine sentBytes_putText ?_ (fun d hd h0 => ?_) buf
  · have := Nat.log_lt_of_lt_pow' (Nat.succ_ne_zero k) h
    rw [length_numeral]
    omega
  · have := (numeral_digits n d hd).1
    simp [h0] at this

/-! ### The obligation -/

/-- Settles O44: the bytes sent are `numeral n`, whose length is that of the interval of powers of ten that holds `n`. -/
theorem formatterPrintsDecimal : Obligations.FormatterPrintsDecimal := by
  refine fun n buf => ⟨fun h => ?_, fun h => ?_⟩
  · rw [placesU8_eq, sentBytes_fmtPlaces (by decide) (by omega)]
    refine ⟨isDecimal_numeral n, ?_, head?_numeral_eq_zero_iff n⟩
    split_ifs <;> exact length_numeral_of (by omega) (by omega)
  · rw [placesU16_eq, sentBytes_fmtPlaces (by decide) (by omega)]
    refine ⟨isDecimal_numeral n, ?_, head?_numeral_eq_zero_iff n⟩
    split_ifs <;> exact length_numeral_of (by omega) (by omega)

end Sys2Proof.Machine
end

section
/-!
PROOFS of an obligation of 60_exceptions.md, and their support: each agent's step leaves FAULT as it is or is a raise, and
a faulted block takes no step and is not final (R200).
-/

namespace Sys2Proof.Machine

/-! ### What each agent's step does to FAULT (R200) -/

/-- A step of a command leaves FAULT as it is, or is the raise of a fault with the running command. -/
theorem SeqMove.fault_cases {i : Instr} {s t : State} (h : SeqMove i s t) :
    t.fault = s.fault ∨ ∃ code, t = s.raise code s.cur := by
  cases h with
  | fault code => exact .inr ⟨code, rfl⟩
  | _ => exact .inl rfl

/-- A step of SEQ leaves FAULT as it is, or is the raise of a fault with the running command. -/
theorem seqStep_fault_cases {s t : State} (h : seqStep s = .next t) :
    t.fault = s.fault ∨ ∃ code, t = s.raise code s.cur := by
  obtain e | ⟨-, i, -, e⟩ := seqStep_cases s <;> rw [e] at h
  · cases h
    exact .inl rfl
  · exact (exec_move h).fault_cases

/-- A host write that raises nothing leaves FAULT as it is. -/
theorem hostWrite_keeps_fault {s t : State} {width : Nat} {off : BitVec 12} {v : Word}
    (h : hostWrite s width off v = .ok t) : t.fault = s.fault := by
  obtain ⟨-, ⟨_, -, rfl⟩ | ⟨_, rfl⟩ | ⟨_, _, _, rfl⟩ | ⟨_, -, rfl⟩⟩ := hostWrite_ok h <;> rfl

/-- A step of HOST leaves FAULT as it is, or is the raise of a fault with no command. -/
theorem hostStep_fault_cases (s : State) :
    (hostStep s).fault = s.fault ∨ ∃ code, hostStep s = s.raise code none := by
  obtain e | ⟨code, e⟩ | ⟨_, _, e⟩ | ⟨-, _, _, _, _, _, -, hw, e⟩ := hostStep_cases s <;> rw [e]
  · exact .inl rfl
  · exact .inr ⟨code, rfl⟩
  · exact .inl rfl
  · have kept := hostWrite_keeps_fault hw
    exact .inl kept

/-- A step of LINEENV leaves FAULT as it is. -/
theorem lineStep_fault (s : State) : (lineStep s).fault = s.fault := by
  obtain e | ⟨_, -, e⟩ := lineStep_cases s <;> rw [e]

/-! ### A faulted block (R8, R200) -/

/-- A faulted block is not final (R8). -/
theorem final_of_fault {s : State} (h : s.fault ≠ none) : s.final = false := by
  obtain ⟨r, hr⟩ := Option.ne_none_iff_exists'.mp h
  simp [State.final, hr]

/-- A faulted block takes no step (R200). -/
theorem step_ne_next_of_fault {s : State} (h : s.fault ≠ none) (t : State) : step s ≠ .next t := by
  intro hs
  obtain ⟨-, hf, -⟩ := step_next hs
  exact h hf

/-! ### The obligation -/

/-- Settles O9: a step leaves FAULT as it is or is a raise, by the agent, and a step with a next state starts from a block
that has not faulted. -/
theorem faultWritesOnlyTheRecord : Obligations.FaultWritesOnlyTheRecord := by
  refine ⟨fun a s t hf h => ?_, fun s t hf => step_ne_next_of_fault hf t, fun s hf => final_of_fault hf⟩
  cases a with
  | host =>
    cases h
    obtain e | ⟨code, e⟩ := hostStep_fault_cases s
    · exact .inl (e.trans hf)
    · exact .inr (.inr ⟨rfl, code, s.host, e⟩)
  | seq =>
    obtain e | ⟨code, rfl⟩ := seqStep_fault_cases h
    · exact .inl (e.trans hf)
    · exact .inr (.inl ⟨rfl, code, rfl⟩)
  | bus r =>
    cases h
    obtain ⟨kept, -⟩ := busStep_frame r s
    exact .inl (kept.trans hf)
  | line =>
    cases h
    exact .inl ((lineStep_fault s).trans hf)

end Sys2Proof.Machine
end

section
/-!
PROOFS of the obligations of 30_encoding.md about the words of the commands, and their support: the decoder of a format as
the layout of its operand field, and the decoder as the opcode and the operand field of a word (R81 to R92).
-/

namespace Sys2Proof.Machine

/-! ### The operand field as a number (R82) -/

section operand
variable {v : Word} {i : Instr}

/-- A field within the operand field is a part of the number that the operand field is. -/
theorem toNat_field {lo w : Nat} (v : Word) (h : lo + w ≤ 24) :
    (field v lo w).toNat = (field v 0 24).toNat / 2 ^ lo % 2 ^ w := by
  have hpart : field v lo w = (field v 0 24).extractLsb' lo w := by
    ext j hj
    simp [field, show lo + j < 24 by omega]
  rw [hpart, BitVec.extractLsb'_toNat, Nat.shiftRight_eq_div_pow]

/-- The format N: no operand. -/
theorem decodeN_eq_ok_iff {j : Instr} : decodeN j v = .ok i ↔ i = j ∧ (field v 0 24).toNat = 0 := by
  have hzero : (field v 0 24).toNat = 0 ↔ field v 0 24 = 0#24 := by simp [← BitVec.toNat_inj]
  rw [hzero, decodeN]
  split_ifs with h <;> simp [h, eq_comm]

/-- The format T: NB above SADD. -/
theorem decodeT_eq_ok_iff {mk : BitVec 7 → BitVec 2 → Instr} :
    decodeT mk v = .ok i ↔
      ∃ sadd nb, i = mk sadd nb ∧ okByteCount nb = true ∧ (field v 0 24).toNat = place 8 nb + place 0 sadd := by
  have hfield := (field v 0 24).isLt
  have hhigh := toNat_field (lo := 10) (w := 14) v (by decide)
  have hnb := toNat_field (lo := 8) (w := 2) v (by decide)
  have hbit := toNat_field (lo := 7) (w := 1) v (by decide)
  have hsadd := toNat_field (lo := 0) (w := 7) v (by decide)
  unfold decodeT
  constructor
  · intro h
    split_ifs at h with hr hn
    cases h
    refine ⟨_, _, rfl, hn, ?_⟩
    simp only [← BitVec.toNat_inj, BitVec.toNat_ofNat] at hr
    simp only [place]
    omega
  · rintro ⟨sadd, nb, rfl, hn, h⟩
    have := sadd.isLt
    have := nb.isLt
    simp only [place] at h
    have er : field v 10 14 = 0#14 ∧ field v 7 1 = 0#1 := by simp only [← BitVec.toNat_inj, BitVec.toNat_ofNat]; omega
    have en : field v 8 2 = nb := BitVec.eq_of_toNat_eq (by omega)
    have es : field v 0 7 = sadd := BitVec.eq_of_toNat_eq (by omega)
    rw [if_pos er, en, es, if_pos hn]

/-- The format RS: SC above REG. -/
theorem decodeRS_eq_ok_iff {mk : BitVec 6 → Bool → Instr} :
    decodeRS mk v = .ok i ↔
      ∃ reg sc, i = mk reg sc ∧ (field v 0 24).toNat = place 8 (BitVec.ofBool sc) + place 0 reg := by
  have hfield := (field v 0 24).isLt
  have hhigh := toNat_field (lo := 9) (w := 15) v (by decide)
  have hsc := toNat_field (lo := 8) (w := 1) v (by decide)
  have hmid := toNat_field (lo := 6) (w := 2) v (by decide)
  have hreg := toNat_field (lo := 0) (w := 6) v (by decide)
  have ofBit : ∀ b : BitVec 1, BitVec.ofBool (b == 1#1) = b := by decide
  have bit : ∀ c : Bool, (BitVec.ofBool c == 1#1) = c := by decide
  unfold decodeRS
  constructor
  · intro h
    split_ifs at h with hr
    cases h
    refine ⟨_, _, rfl, ?_⟩
    simp only [← BitVec.toNat_inj, BitVec.toNat_ofNat] at hr
    rw [ofBit]
    simp only [place]
    omega
  · rintro ⟨reg, sc, rfl, h⟩
    have := reg.isLt
    have := (BitVec.ofBool sc).isLt
    simp only [place] at h
    have er : field v 9 15 = 0#15 ∧ field v 6 2 = 0#2 := by simp only [← BitVec.toNat_inj, BitVec.toNat_ofNat]; omega
    have es : field v 8 1 = BitVec.ofBool sc := BitVec.eq_of_toNat_eq (by omega)
    have eg : field v 0 6 = reg := BitVec.eq_of_toNat_eq (by omega)
    rw [if_pos er, es, eg, bit]

/-- The format R: REG alone. -/
theorem decodeR_eq_ok_iff {mk : BitVec 6 → Instr} :
    decodeR mk v = .ok i ↔ ∃ reg, i = mk reg ∧ (field v 0 24).toNat = place 0 reg := by
  have hfield := (field v 0 24).isLt
  have hhigh := toNat_field (lo := 6) (w := 18) v (by decide)
  have hreg := toNat_field (lo := 0) (w := 6) v (by decide)
  unfold decodeR
  constructor
  · intro h
    split_ifs at h with hr
    cases h
    refine ⟨_, rfl, ?_⟩
    simp only [← BitVec.toNat_inj, BitVec.toNat_ofNat] at hr
    simp only [place]
    omega
  · rintro ⟨reg, rfl, h⟩
    have := reg.isLt
    simp only [place] at h
    have er : field v 6 18 = 0#18 := BitVec.eq_of_toNat_eq (by simp only [BitVec.toNat_ofNat]; omega)
    have eg : field v 0 6 = reg := BitVec.eq_of_toNat_eq (by omega)
    rw [if_pos er, eg]

/-- The format B: DIV alone, not 0. -/
theorem decodeB_eq_ok_iff {mk : BitVec 16 → Instr} :
    decodeB mk v = .ok i ↔ ∃ div, i = mk div ∧ okDivisor div = true ∧ (field v 0 24).toNat = place 0 div := by
  have hfield := (field v 0 24).isLt
  have hhigh := toNat_field (lo := 16) (w := 8) v (by decide)
  have hdiv := toNat_field (lo := 0) (w := 16) v (by decide)
  unfold decodeB
  constructor
  · intro h
    split_ifs at h with hr hd
    cases h
    refine ⟨_, rfl, hd, ?_⟩
    simp only [← BitVec.toNat_inj, BitVec.toNat_ofNat] at hr
    simp only [place]
    omega
  · rintro ⟨div, rfl, hd, h⟩
    have := div.isLt
    simp only [place] at h
    have er : field v 16 8 = 0#8 := BitVec.eq_of_toNat_eq (by simp only [BitVec.toNat_ofNat]; omega)
    have eg : field v 0 16 = div := BitVec.eq_of_toNat_eq (by omega)
    rw [if_pos er, eg, if_pos hd]

/-- The formats V8, V16 and X at once: an immediate of `w` bits, `gap` reserved bits above it, and the source bit. -/
theorem sourceField_iff {w gap : Nat} (hw : w = 8 ∧ gap = 15 ∨ w = 16 ∧ gap = 7) (v : Word) :
    (∀ f : BitVec w, (field v w gap = 0#gap ∧ field v 23 1 = 0#1 ∧ field v 0 w = f)
        ↔ (field v 0 24).toNat = place 0 f)
      ∧ ((field v w gap = 0#gap ∧ field v 23 1 ≠ 0#1 ∧ field v 0 w = 0#w) ↔ (field v 0 24).toNat = place 23 1#1) := by
  have hfield := (field v 0 24).isLt
  have hsrc := toNat_field (lo := 23) (w := 1) v (by decide)
  obtain ⟨rfl, rfl⟩ | ⟨rfl, rfl⟩ := hw
  · have hgap := toNat_field (lo := 8) (w := 15) v (by decide)
    have himm := toNat_field (lo := 0) (w := 8) v (by decide)
    constructor
    · intro f
      have := f.isLt
      simp only [place, ← BitVec.toNat_inj, BitVec.toNat_ofNat]
      omega
    · simp only [place, ne_eq, ← BitVec.toNat_inj, BitVec.toNat_ofNat]
      omega
  · have hgap := toNat_field (lo := 16) (w := 7) v (by decide)
    have himm := toNat_field (lo := 0) (w := 16) v (by decide)
    constructor
    · intro f
      have := f.isLt
      simp only [place, ← BitVec.toNat_inj, BitVec.toNat_ofNat]
      omega
    · simp only [place, ne_eq, ← BitVec.toNat_inj, BitVec.toNat_ofNat]
      omega

/-- The format V8: an immediate byte, or RES. -/
theorem decodeV8_eq_ok_iff {mk : NumSrc 8 → Instr} :
    decodeV8 mk v = .ok i ↔ ∃ src, i = mk src ∧ (field v 0 24).toNat = (Instr.writeU8 src).operandBits := by
  obtain ⟨himm, hres⟩ := sourceField_iff (.inl ⟨rfl, rfl⟩) v
  unfold decodeV8
  constructor
  · intro h
    split_ifs at h with hr hs hz <;> cases h
    · exact ⟨_, rfl, (himm _).1 ⟨hr, hs, rfl⟩⟩
    · exact ⟨_, rfl, hres.1 ⟨hr, hs, hz⟩⟩
  · rintro ⟨imm | _, rfl, h⟩
    · obtain ⟨hr, hs, rfl⟩ := (himm imm).2 h
      rw [if_pos hr, if_pos hs]
    · obtain ⟨hr, hs, hz⟩ := hres.2 h
      rw [if_pos hr, if_neg hs, if_pos hz]

/-- The format V16: an immediate of two bytes, or RES. -/
theorem decodeV16_eq_ok_iff {mk : NumSrc 16 → Instr} :
    decodeV16 mk v = .ok i ↔ ∃ src, i = mk src ∧ (field v 0 24).toNat = (Instr.writeU16 src).operandBits := by
  obtain ⟨himm, hres⟩ := sourceField_iff (.inr ⟨rfl, rfl⟩) v
  unfold decodeV16
  constructor
  · intro h
    split_ifs at h with hr hs hz <;> cases h
    · exact ⟨_, rfl, (himm _).1 ⟨hr, hs, rfl⟩⟩
    · exact ⟨_, rfl, hres.1 ⟨hr, hs, hz⟩⟩
  · rintro ⟨imm | _, rfl, h⟩
    · obtain ⟨hr, hs, rfl⟩ := (himm imm).2 h
      rw [if_pos hr, if_pos hs]
    · obtain ⟨hr, hs, hz⟩ := hres.2 h
      rw [if_pos hr, if_neg hs, if_pos hz]

/-- The format X: an address in TMEM, or STR. -/
theorem decodeX_eq_ok_iff {mk : TextSrc → Instr} :
    decodeX mk v = .ok i ↔ ∃ src, i = mk src ∧ (field v 0 24).toNat = (Instr.writeText src).operandBits := by
  obtain ⟨haddr, hstr⟩ := sourceField_iff (.inl ⟨rfl, rfl⟩) v
  unfold decodeX
  constructor
  · intro h
    split_ifs at h with hr hs hz <;> cases h
    · exact ⟨_, rfl, (haddr _).1 ⟨hr, hs, rfl⟩⟩
    · exact ⟨_, rfl, hstr.1 ⟨hr, hs, hz⟩⟩
  · rintro ⟨addr | _, rfl, h⟩
    · obtain ⟨hr, hs, rfl⟩ := (haddr addr).2 h
      rw [if_pos hr, if_pos hs]
    · obtain ⟨hr, hs, hz⟩ := hstr.2 h
      rw [if_pos hr, if_neg hs, if_pos hz]

end operand

/-! ### The opcode map, as what it decodes (R90) -/

section opcodes
variable {v : Word} {i : Instr}

/-- A word that decodes has the opcode of its command, whose operands lay out its operand field. -/
theorem opcode_operands_of_decode (h : decode v = .ok i) :
    opcodeOf v = i.opcode ∧ (field v 0 24).toNat = i.operandBits := by
  unfold decode at h
  split_ifs at h
  · unfold decodeBtd at h
    split_ifs at h with hop hop <;> obtain ⟨sadd, nb, rfl, -, hx⟩ := decodeT_eq_ok_iff.1 h <;> exact ⟨hop, hx⟩
  · unfold decodeCodec at h
    split_ifs at h with hop hop hop
    · obtain ⟨reg, sc, rfl, hx⟩ := decodeRS_eq_ok_iff.1 h
      exact ⟨hop, hx⟩
    · obtain ⟨reg, rfl, hx⟩ := decodeR_eq_ok_iff.1 h
      exact ⟨hop, hx⟩
    · obtain ⟨rfl, hx⟩ := decodeN_eq_ok_iff.1 h
      exact ⟨hop, hx⟩
  · unfold decodeSensor at h
    split_ifs at h with hop hop hop hop hop hop hop hop hop <;> obtain ⟨rfl, hx⟩ := decodeN_eq_ok_iff.1 h <;>
      exact ⟨hop, hx⟩
  · unfold decodeConsole at h
    split_ifs at h with hop hop hop hop hop hop
    · obtain ⟨div, rfl, -, hx⟩ := decodeB_eq_ok_iff.1 h
      exact ⟨hop, hx⟩
    · obtain ⟨rfl, hx⟩ := decodeN_eq_ok_iff.1 h
      exact ⟨hop, hx⟩
    · obtain ⟨rfl, hx⟩ := decodeN_eq_ok_iff.1 h
      exact ⟨hop, hx⟩
    · obtain ⟨src, rfl, hx⟩ := decodeX_eq_ok_iff.1 h
      exact ⟨hop, hx⟩
    · obtain ⟨src, rfl, hx⟩ := decodeV8_eq_ok_iff.1 h
      exact ⟨hop, hx⟩
    · obtain ⟨src, rfl, hx⟩ := decodeV16_eq_ok_iff.1 h
      exact ⟨hop, hx⟩

/-- The decoder of a word with the opcode of `i`: the decoder of the row of `i`. -/
def rowDecoder (i : Instr) : Word → Except IllegalReason Instr :=
  match i with
  | .i2cWrite _ _ => decodeT .i2cWrite
  | .i2cRead _ _ => decodeT .i2cRead
  | .decodeReg _ _ => decodeRS .decodeReg
  | .scale _ => decodeR .scale
  | .uartInit _ => decodeB .uartInit
  | .writeText _ => decodeX .writeText
  | .writeU8 _ => decodeV8 .writeU8
  | .writeU16 _ => decodeV16 .writeU16
  | i => decodeN i

theorem decode_eq_rowDecoder (h : opcodeOf v = i.opcode) : decode v = rowDecoder i v := by
  simp only [decode, unitField_eq, decodeBtd, decodeCodec, decodeSensor, decodeConsole, h]
  cases i <;> simp [Instr.opcode, rowDecoder]

/-- A word with the opcode of a legal command and the layout of its operands decodes to the command. -/
theorem decode_of_opcode_operands (hw : i.wf = true) (hop : opcodeOf v = i.opcode)
    (hx : (field v 0 24).toNat = i.operandBits) : decode v = .ok i := by
  rw [decode_eq_rowDecoder hop]
  cases i with
  | i2cWrite sadd nb => exact decodeT_eq_ok_iff.2 ⟨sadd, nb, rfl, hw, hx⟩
  | i2cRead sadd nb => exact decodeT_eq_ok_iff.2 ⟨sadd, nb, rfl, hw, hx⟩
  | decodeReg reg sc => exact decodeRS_eq_ok_iff.2 ⟨reg, sc, rfl, hx⟩
  | scale reg => exact decodeR_eq_ok_iff.2 ⟨reg, rfl, hx⟩
  | uartInit div => exact decodeB_eq_ok_iff.2 ⟨div, rfl, hw, hx⟩
  | writeText src => exact decodeX_eq_ok_iff.2 ⟨src, rfl, hx⟩
  | writeU8 src => exact decodeV8_eq_ok_iff.2 ⟨src, rfl, hx⟩
  | writeU16 src => exact decodeV16_eq_ok_iff.2 ⟨src, rfl, hx⟩
  | _ => exact decodeN_eq_ok_iff.2 ⟨rfl, hx⟩

/-- The word of every command has its opcode and its operands. -/
theorem commandWord (i : Instr) : Laws.CommandWord.Statement i := by
  cases i with
  | i2cWrite sadd nb => exact Laws.CommandWord.i2cWrite sadd nb
  | i2cRead sadd nb => exact Laws.CommandWord.i2cRead sadd nb
  | decodeReg reg sc => exact Laws.CommandWord.decodeReg reg sc
  | scale reg => exact Laws.CommandWord.scale reg
  | uartInit div => exact Laws.CommandWord.uartInit div
  | writeText src => exact Laws.CommandWord.writeText src
  | writeU8 src => exact Laws.CommandWord.writeU8 src
  | writeU16 src => exact Laws.CommandWord.writeU16 src
  | _ => exact Laws.CommandWord.of_operandBits_lt (by decide)

/-- A word is put together from its opcode and its operand field. -/
theorem word_eq_of_opcode_operands {v w : Word} (hop : opcodeOf v = opcodeOf w) (hx : field v 0 24 = field w 0 24) :
    v = w := by
  have hop' := congrArg BitVec.toNat hop
  have hx' := congrArg BitVec.toNat hx
  simp only [opcodeOf, field, BitVec.extractLsb'_toNat, Nat.shiftRight_eq_div_pow] at hop' hx'
  bv_omega

end opcodes

/-! ### The obligations -/

/-- Settles O1: the word of a command has its opcode and the layout of its operands, and such a word decodes to it. -/
theorem encodedCommandDecodes : Obligations.EncodedCommandDecodes := fun i hw =>
  decode_of_opcode_operands hw (commandWord i).1 (commandWord i).2

/-- Settles O2: a word that decodes and the word of its command have one opcode and one operand field. -/
theorem decodedWordIsWellFormedAndReencodes : Obligations.DecodedWordIsWellFormedAndReencodes := by
  intro v i h
  obtain ⟨hop, hx⟩ := opcode_operands_of_decode h
  obtain ⟨hop', hx'⟩ := commandWord i
  exact ⟨decode_wf h, word_eq_of_opcode_operands (hop'.trans hop.symm) (BitVec.eq_of_toNat_eq (hx'.trans hx.symm))⟩

/-- Settles O5: each word is run through the decoder. -/
theorem sampleWordsDecode : Obligations.SampleWordsDecode := by
  unfold Obligations.SampleWordsDecode
  decide

end Sys2Proof.Machine
end

section
/-!
PROOFS of the obligations about acceptance, the choice of the mover, the refusals and the steps of HOST, and their support:
the rule of each operation of HOST, and what refuses a machine or a launch (R7, R65, R80, R94, R132, R209).
-/

namespace Sys2Proof.Machine

/-! ### The choice of the mover (R7) -/

/-- A step without a schedule is a step of the free choice. -/
theorem step_unscheduled {s : State} (hw : s.config.wf = true) (hf : s.fault = none) (hs : s.sched = []) :
    step s = agentStep (Config.nextAgent s.tick) { s with tick := s.tick + 1 } := by
  simp [step, hw, runStep, hf, State.mover, State.scheduled, hs]

/-- While BUSY = 0 SEQ leaves the state as it is. -/
theorem seqStep_idle {s : State} (hb : s.busy = false) : seqStep s = .next s := by
  simp [seqStep, hb]

/-- While BUSY = 1 SEQ runs the current command (R23). -/
theorem seqStep_running {s : State} {i : Instr} (hb : s.busy = true) (hc : s.cur = some i) : seqStep s = exec i s := by
  simp [seqStep, hb, hc]

/-- SEQ, scheduled on a running block, runs the current command. -/
theorem step_seq {s : State} {i : Instr} {rest : List Agent} (hw : s.config.wf = true) (hf : s.fault = none)
    (hb : s.busy = true) (hc : s.cur = some i) (hs : s.sched = .seq :: rest) :
    step s = exec i { s with sched := rest } := by
  rw [step_scheduled hw hf hs]
  exact seqStep_running (s := { s with sched := rest }) hb hc

/-! ### The operations of HOST (R65, R80, R94) -/

section host
variable {s : State} {width : Nat} {off : BitVec 12} {v : Word} {ops : List HostOp} {f : FaultCode}

/-- A read that raises nothing appends its value. -/
theorem hostStep_read_ok (hh : s.host = .read width off :: ops) (hr : hostRead s width off = .ok v) :
    hostStep s = s.hostGot v ops := by
  simp [hostStep, hh, hr]

/-- A read that faults raises. -/
theorem hostStep_read_error (hh : s.host = .read width off :: ops) (hr : hostRead s width off = .error f) :
    hostStep s = s.raise f none := by
  simp [hostStep, hh, hr]

/-- A write that raises nothing has its effect. -/
theorem hostStep_write_ok {t : State} (hh : s.host = .write width off v :: ops) (hw : hostWrite s width off v = .ok t) :
    hostStep s = { t with host := ops } := by
  simp [hostStep, hh, hw]

/-- A write that faults raises. -/
theorem hostStep_write_error (hh : s.host = .write width off v :: ops) (hw : hostWrite s width off v = .error f) :
    hostStep s = s.raise f none := by
  simp [hostStep, hh, hw]

/-- WAITIDLE reads STATUS, and is done where it reads BUSY = 0 (R94). -/
theorem hostStep_waitIdle (hh : s.host = .waitIdle :: ops) :
    hostStep s = s.hostGot s.statusWord (if s.busy then .waitIdle :: ops else ops) := by
  simp only [hostStep, hh, hostRead_status, statusWord_busy]

/-- The CMD write of a word that decodes accepts the command (R80). -/
theorem hostStep_accept {i : Instr} (hb : s.busy = false) (hh : s.host = .write 32 0x000#12 v :: ops)
    (hd : decode v = .ok i) : hostStep s = { s.acceptInstr i with host := ops } := by
  refine hostStep_write_ok hh ?_
  rw [hostWrite_cmd s v hb, accept, hd]

/-- The CMD write of an illegal word raises IllegalCommand (R80). -/
theorem hostStep_illegal {r : IllegalReason} (hb : s.busy = false) (hh : s.host = .write 32 0x000#12 v :: ops)
    (hd : decode v = .error r) : hostStep s = s.raise (.illegalCommand v) none := by
  refine hostStep_write_error hh ?_
  rw [hostWrite_cmd s v hb, accept, hd]

/-- While BUSY = 1 HOST has no operation left, or raises a fault, or reads STATUS. -/
theorem hostStep_busy_cases (hb : s.busy = true) :
    hostStep s = s ∨ (∃ code, hostStep s = s.raise code none) ∨ ∃ ops, hostStep s = s.hostGot s.statusWord ops := by
  rcases hh : s.host with _ | ⟨⟨width, off⟩ | ⟨width, off, v⟩ | _, ops⟩
  · exact .inl (by simp [hostStep, hh])
  · cases hr : hostRead s width off with
    | error f => exact .inr (.inl ⟨f, hostStep_read_error hh hr⟩)
    | ok v =>
      obtain rfl := hostRead_ok_busy hb hr
      exact .inr (.inr ⟨ops, hostStep_read_ok hh hr⟩)
  · cases hw : hostWrite s width off v with
    | error f => exact .inr (.inl ⟨f, hostStep_write_error hh hw⟩)
    | ok t => simp [(hostWrite_ok hw).1] at hb
  · exact .inr (.inr ⟨_, hostStep_waitIdle hh⟩)

end host

/-! ### What refuses a machine or a launch (R132, R209) -/

/-- A well-formed entry of the table: a 16-bit register is unsigned, and the scale is in its bounds. -/
theorem Descriptor.wf_iff (d : Descriptor) :
    d.wf = true ↔ (d.width = .w16 → d.signed = false) ∧ 1 ≤ d.M ∧ d.M < 2 ^ 32 ∧ d.S ≤ 31 := by
  cases hw : d.width <;> simp [Descriptor.wf, hw, and_assoc]

/-- A well-formed configuration has a table of well-formed entries with distinct addresses. -/
theorem Config.wf_iff (c : Config) :
    c.wf = true ↔ (c.desc.map Descriptor.addr).Nodup
      ∧ ∀ d ∈ c.desc, (d.width = .w16 → d.signed = false) ∧ 1 ≤ d.M ∧ d.M < 2 ^ 32 ∧ d.S ≤ 31 := by
  rw [Config.wf, Bool.and_eq_true, List.all_eq_true, distinct_iff_nodup, and_comm]
  simp only [Descriptor.wf_iff]

/-- No agent refuses to move. -/
theorem agentStep_next (a : Agent) (s : State) : ∃ t, agentStep a s = .next t := by
  cases a with
  | seq =>
    obtain h | ⟨-, i, -, h⟩ := seqStep_cases s
    · exact ⟨s, h⟩
    · rw [agentStep, h]
      exact exec_next i s
  | _ => exact ⟨_, rfl⟩

/-- A machine is refused only for its configuration. -/
theorem step_eq_refused_iff (s : State) : step s = .refused .illFormedConfig ↔ s.config.wf = false := by
  unfold step runStep
  cases s.config.wf
  · simp
  · cases s.fault
    · obtain ⟨t, h⟩ := agentStep_next s.mover s.scheduled
      simp [h]
    · simp

/-- The commands of a program are the words it writes to CMD that decode. -/
theorem mem_hostCommands_iff (ops : List HostOp) (i : Instr) :
    i ∈ hostCommands ops ↔ ∃ v, HostOp.write 32 0x000#12 v ∈ ops ∧ decode v = .ok i := by
  have decoded : ∀ v, i ∈ (decode v).toOption.toList ↔ decode v = .ok i := fun v => by
    cases decode v <;> simp [Except.toOption, eq_comm]
  induction ops with
  | nil => simp [hostCommands]
  | cons op ops ih =>
    cases op with
    | read width off => simp [hostCommands, ih]
    | waitIdle => simp [hostCommands, ih]
    | write width off v =>
      simp only [hostCommands, List.mem_append, ih]
      by_cases hcmd : width = 32 ∧ off = 0x000#12
      · obtain ⟨rfl, rfl⟩ := hcmd
        simp [decoded, or_and_right, exists_or]
      · have hne : ∀ x, HostOp.write 32 0x000#12 x ≠ .write width off v := by
          rintro x ⟨⟩
          exact hcmd ⟨rfl, rfl⟩
        simp [hcmd, hne]

/-- The three commands that need what only the launch can supply (R209, D15, D17). -/
theorem commandRefusal_eq_none_iff (c : Config) (i : Instr) :
    commandRefusal c i = none ↔
      (i = .sensorInit → c.init.isSome = true)
      ∧ (i = .readEnergy → c.mode = .dedicated → ∃ d ∈ c.desc, d.addr = c.regs.energy)
      ∧ (i = .readCharge → c.mode = .dedicated → ∃ d ∈ c.desc, d.addr = c.regs.charge) := by
  cases i with
  | sensorInit => simp [commandRefusal, Option.isSome_iff_ne_none]
  | readEnergy => simp [commandRefusal, dedicatedRefusal_none]
  | readCharge => simp [commandRefusal, dedicatedRefusal_none]
  | _ => simp [commandRefusal]

/-- A launch with a well-formed configuration is refused for a command of its program, or not at all. -/
theorem launchRefusal_eq_none_iff {c : Config} (hw : c.wf = true) (ops : List HostOp) :
    launchRefusal c ops = none ↔
      (.sensorInit ∈ hostCommands ops → c.init.isSome = true)
      ∧ (.readEnergy ∈ hostCommands ops → c.mode = .dedicated → ∃ d ∈ c.desc, d.addr = c.regs.energy)
      ∧ (.readCharge ∈ hostCommands ops → c.mode = .dedicated → ∃ d ∈ c.desc, d.addr = c.regs.charge) := by
  simp only [launchRefusal, hw, if_true, List.findSome?_eq_none_iff, commandRefusal_eq_none_iff]
  constructor
  · intro h
    exact ⟨fun hi => (h _ hi).1 rfl, fun hi => (h _ hi).2.1 rfl, fun hi => (h _ hi).2.2 rfl⟩
  · rintro ⟨hinit, henergy, hcharge⟩ i hi
    exact ⟨fun e => hinit (e ▸ hi), fun e => henergy (e ▸ hi), fun e => hcharge (e ▸ hi)⟩

/-! ### The obligations -/

/-- Settles O6: the mover is the head of the schedule, else the free choice, and SEQ runs the current command. -/
theorem stepMovesTheChosenAgent : Obligations.StepMovesTheChosenAgent :=
  ⟨fun _ hw hf => ⟨fun _ _ hs => step_scheduled hw hf hs, step_unscheduled hw hf⟩,
    fun _ hb => seqStep_idle hb, fun _ _ hb hc => seqStep_running hb hc⟩

/-- Settles O7: HOST's step accepts the word, and SEQ's step is that of the command accepted. -/
theorem acceptedWordIsTheCommandThatRuns : Obligations.AcceptedWordIsTheCommandThatRuns := by
  intro s v i ops rest hw hf hb hs hh hd
  have haccept : step s = .next (hostStep { s with sched := .seq :: rest }) := step_scheduled hw hf hs
  rw [hostStep_accept (s := { s with sched := .seq :: rest }) hb hh hd] at haccept
  exact ⟨_, haccept, rfl, step_seq hw hf rfl rfl rfl⟩

/-- Settles O8: acceptance and its refusal are HOST's step, and a raise of SEQ writes nothing but the record. -/
theorem commandAcceptance : Obligations.CommandAcceptance := by
  refine ⟨fun s v i ops hb hh hd => hostStep_accept hb hh hd,
    fun s v r ops hb hh hd => ⟨s.host, hostStep_illegal hb hh hd⟩,
    fun s => ⟨seqStep_idle, fun i hb hc => seqStep_running hb hc⟩, fun _ _ => ⟨rfl, rfl⟩, by decide, ?_, fun _ => rfl, ?_,
    fun s t h hb hf ht => ?_, ?_⟩
  · intro i hi
    cases i <;> simp_all [onePhase, firstPhase]
  · intro i hi
    cases i <;> simp_all [numberWrite, firstPhase]
  · obtain e | ⟨code, rfl⟩ := seqStep_fault_cases h
    · exact absurd (e.trans hf) ht
    · exact hb
  · rw [hostStep_illegal (r := .unknownOpcode) rfl rfl (by decide)]
    rfl

/-- Settles O10: the check of the table by entries and addresses, and a step refuses nothing else. -/
theorem illFormedTableIsRefused : Obligations.IllFormedTableIsRefused := ⟨Config.wf_iff, step_eq_refused_iff⟩

/-- Settles O16: one rule per operation of HOST. -/
theorem hostStepRunsItsNextOperation : Obligations.HostStepRunsItsNextOperation := fun s ops =>
  ⟨fun hh => by simp [hostStep, hh],
    fun _ _ hh => ⟨fun _ hr => hostStep_read_ok hh hr, fun _ hr => hostStep_read_error hh hr⟩,
    fun _ _ _ hh => ⟨fun _ hw => hostStep_write_ok hh hw, fun _ hw => hostStep_write_error hh hw⟩,
    fun hh => ⟨s.statusWord, hostRead_status s, statusWord_busy s, hostStep_waitIdle hh⟩⟩

/-- Settles O17: while BUSY = 1 no write of HOST goes through, and the only read that does is that of STATUS. -/
theorem hostCannotDisturbARunningCommand : Obligations.HostCannotDisturbARunningCommand := by
  intro s t hb hf h ht
  cases h
  obtain e | ⟨code, e⟩ | ⟨ops, e⟩ := hostStep_busy_cases hb <;> rw [e] at ht ⊢
  · exact .inl rfl
  · simp at ht
  · exact .inr ⟨s.statusWord, hostRead_status s, rfl⟩

/-- Settles O60: a launch answers its refusal or its first state, and what refuses it is read off command by command. -/
theorem launchIsRefusedExactlyWhereR209Says : Obligations.LaunchIsRefusedExactlyWhereR209Says := by
  refine ⟨mem_hostCommands_iff, fun c ops sched draws => ⟨fun hw => ?_, fun hw => ?_, fun s h => ?_, fun f h => ?_⟩⟩
  · simp [launch, launchRefusal, hw]
  · rw [← launchRefusal_eq_none_iff hw]
    obtain ⟨r, hr, h⟩ | ⟨hr, h⟩ := launch_cases c ops sched draws <;> simp [hr, h]
  · obtain ⟨r, hr, h'⟩ | ⟨hr, h'⟩ := launch_cases c ops sched draws <;> cases h'.symm.trans h
    rfl
  · obtain ⟨r, hr, h'⟩ | ⟨hr, h'⟩ := launch_cases c ops sched draws <;> cases h'.symm.trans h

end Sys2Proof.Machine
end

section
/-!
PROOFS of the obligations of 40_i2c_master.md about the phases of a transaction, and their support: each phase of BTD_WRITE
and BTD_READ with its condition, and each rule of BUSENV where it is enabled (R100 to R105, R110 to R114).
-/

namespace Sys2Proof.Machine

/-! ### BTD_WRITE and BTD_READ, phase by phase (R102 to R105) -/

section phases
variable {load fin : State → State} {sadd : BitVec 7} {n : Nat} {s : State}

/-- W0 with PE = 0 raises BusNotEnabled. -/
theorem btdWrite_busNotEnabled (hp : s.ph = .w0) (he : s.pe = false) :
    btdWrite load sadd n fin s = s.raise .busNotEnabled s.cur := by
  simp [btdWrite, hp, seqW0, he]

/-- W0 raises UninitRead of the first invalid byte. -/
theorem btdWrite_uninitRead {k : Nat} (hp : s.ph = .w0) (he : s.pe = true) (hv : (load s).pbuf.firstInvalid n = some k) :
    btdWrite load sadd n fin s = s.raise (.uninitRead (.pbuf k)) s.cur := by
  simp [btdWrite, hp, seqW0, he, hv]

/-- W0 sets up the transaction. -/
theorem btdWrite_setUp (hp : s.ph = .w0) (he : s.pe = true) (hv : (load s).pbuf.firstInvalid n = none) :
    btdWrite load sadd n fin s = { (load s).xferSetup sadd .write n with ph := .w1 } := by
  simp [btdWrite, hp, seqW0, he, hv]

/-- W1 sends a byte when I2C_TXRDY is up. -/
theorem btdWrite_sends {b : Byte} (hp : s.ph = .w1) (hn : s.idx < n) (hr : s.txrdy = true)
    (hb : s.pbuf.get s.idx = some b) :
    btdWrite load sadd n fin s
      = { s with txd := some b, txrdy := false, idx := s.idx + 1, ph := if s.idx + 1 < n then .w1 else .w2 } := by
  rw [← seqW1_ready hn hr hb, btdWrite, hp]

/-- W1 waits while I2C_TXRDY = 0. -/
theorem btdWrite_waits_txrdy (hp : s.ph = .w1) (hn : s.idx < n) (hr : s.txrdy = false) :
    btdWrite load sadd n fin s = s := by
  rw [btdWrite, hp]
  exact seqW1_holds hn hr

/-- W2 requests the stop when I2C_TC is up. -/
theorem btdWrite_requestsStop (hp : s.ph = .w2) (ht : s.tc = true) :
    btdWrite load sadd n fin s = { s with stop := true, ph := .w3 } := by
  simp [btdWrite, hp, seqStop, ht]

/-- W2 waits while I2C_TC = 0. -/
theorem btdWrite_waits_tc (hp : s.ph = .w2) (ht : s.tc = false) : btdWrite load sadd n fin s = s := by
  simp [btdWrite, hp, seqStop, ht]

/-- W3 goes on when the stop is on the bus. -/
theorem btdWrite_goesOn (hp : s.ph = .w3) (hs : s.stop = false) : btdWrite load sadd n fin s = fin s := by
  simp [btdWrite, hp, seqStopped, hs]

/-- W3 waits while I2C_STOP = 1. -/
theorem btdWrite_waits_stop (hp : s.ph = .w3) (hs : s.stop = true) : btdWrite load sadd n fin s = s := by
  simp [btdWrite, hp, seqStopped, hs]

/-- RD0 with PE = 0 raises BusNotEnabled. -/
theorem btdRead_busNotEnabled (hp : s.ph = .rd0) (he : s.pe = false) :
    btdRead sadd n fin s = s.raise .busNotEnabled s.cur := by
  simp [btdRead, hp, seqRD0, he]

/-- RD0 sets up the transaction. -/
theorem btdRead_setUp (hp : s.ph = .rd0) (he : s.pe = true) :
    btdRead sadd n fin s = { s.xferSetup sadd .read n with ph := .rd1 } := by
  simp [btdRead, hp, seqRD0, he]

/-- RD1 takes a byte when I2C_RXRDY is up. -/
theorem btdRead_takes (hp : s.ph = .rd1) (hn : s.idx < n) (hr : s.rxrdy = true) :
    btdRead sadd n fin s
      = { s with pbuf := s.pbuf.set s.idx s.rxd, rxrdy := false, idx := s.idx + 1,
                 ph := if s.idx + 1 < n then .rd1 else .rd2 } := by
  rw [← seqRD1_ready hn hr, btdRead, hp]

/-- RD1 waits while I2C_RXRDY = 0. -/
theorem btdRead_waits_rxrdy (hp : s.ph = .rd1) (hn : s.idx < n) (hr : s.rxrdy = false) : btdRead sadd n fin s = s := by
  rw [btdRead, hp]
  exact seqRD1_holds hn hr

/-- RD2 requests the stop when I2C_TC is up. -/
theorem btdRead_requestsStop (hp : s.ph = .rd2) (ht : s.tc = true) :
    btdRead sadd n fin s = { s with stop := true, ph := .rd3 } := by
  simp [btdRead, hp, seqStop, ht]

/-- RD2 waits while I2C_TC = 0. -/
theorem btdRead_waits_tc (hp : s.ph = .rd2) (ht : s.tc = false) : btdRead sadd n fin s = s := by
  simp [btdRead, hp, seqStop, ht]

/-- RD3 goes on when the stop is on the bus. -/
theorem btdRead_goesOn (hp : s.ph = .rd3) (hs : s.stop = false) : btdRead sadd n fin s = fin s := by
  simp [btdRead, hp, seqStopped, hs]

/-- RD3 waits while I2C_STOP = 1. -/
theorem btdRead_waits_stop (hp : s.ph = .rd3) (hs : s.stop = true) : btdRead sadd n fin s = s := by
  simp [btdRead, hp, seqStopped, hs]

/-- A byte taken into PBUF[I] leaves the other bytes as they are. -/
theorem btdRead_takes_at {i : Nat} {p : Pbuf} {b : Byte} (hi : i < 3) :
    (p.set i b).get i = some b ∧ ∀ k, k ≠ i → (p.set i b).get k = p.get k := by
  constructor
  · rw [Pbuf.get_set hi, if_pos rfl]
  · intro k hk
    rw [Pbuf.get_set hi, if_neg hk]

/-- The set-up of a transaction whose byte count is the operand NB. -/
theorem xferSetup_operand (s : State) (sadd : BitVec 7) (dir : Dir) (nb : BitVec 2) :
    s.xferSetup sadd dir nb.toNat = { s with sadd := sadd, dir := dir, nbytes := nb, start := true, idx := 0 } := by
  simp [State.xferSetup]

end phases

/-- A transaction of a command has at most 3 bytes (R100). -/
theorem plan_bytes_le {c : Config} {i : Instr} {k : Nat} {st : KStep} (h : plan c i k = some st) : st.bytes ≤ 3 := by
  obtain ⟨_, nb, -, -, rfl⟩ | ⟨_, nb, -, -, rfl⟩ | ⟨-, -, rfl⟩ | ⟨-, e⟩ | ⟨-, -, d, -, -, e⟩ := plan_cases h
  · exact Nat.le_of_lt_succ nb.isLt
  · exact Nat.le_of_lt_succ nb.isLt
  · exact Nat.le_refl 3
  · obtain ⟨-, rfl⟩ | ⟨-, rfl⟩ | ⟨-, rfl⟩ := e <;> simp [KStep.bytes]
  · have width := descBytes_range d
    obtain ⟨-, rfl⟩ | ⟨-, rfl⟩ | ⟨-, rfl⟩ := e <;> simp only [KStep.bytes] <;> omega

/-! ### The words of the two commands (R84) -/

/-- The operand field of format T. -/
theorem ofNat_transferOperands (sadd : BitVec 7) (nb : BitVec 2) :
    BitVec.ofNat 32 (place 8 nb + place 0 sadd) = nb.setWidth 32 <<< 8 ||| sadd.setWidth 32 := by
  have hsadd : place 0 sadd < 2 ^ 8 := by
    have := sadd.isLt
    rw [place]
    omega
  rw [ofNat_place_add _ hsadd, ofNat_place_zero]

theorem encode_i2cWrite (sadd : BitVec 7) (nb : BitVec 2) :
    encode (.i2cWrite sadd nb) = 0x01000000#32 ||| nb.setWidth 32 <<< 8 ||| sadd.setWidth 32 := by
  have hop : (Instr.i2cWrite sadd nb).opcode.setWidth 32 <<< 24 = 0x01000000#32 := by simp [Instr.opcode]
  rw [encode_eq_or (commandWord _), hop, Instr.operandBits, ofNat_transferOperands, BitVec.or_assoc]

theorem encode_i2cRead (sadd : BitVec 7) (nb : BitVec 2) :
    encode (.i2cRead sadd nb) = 0x02000000#32 ||| nb.setWidth 32 <<< 8 ||| sadd.setWidth 32 := by
  have hop : (Instr.i2cRead sadd nb).opcode.setWidth 32 <<< 24 = 0x02000000#32 := by simp [Instr.opcode]
  rw [encode_eq_or (commandWord _), hop, Instr.operandBits, ofNat_transferOperands, BitVec.or_assoc]

/-! ### The rules of BUSENV, where they are enabled (R110 to R114) -/

section rules
variable {s : State}

theorem eStart_enabled (hstart : s.start = true) (hstop : s.stop = false) (hact : s.busact = false) :
    eStart s = { s with busTrace := s.busTrace ++ [.start, .addr s.sadd s.dir], busact := true, start := false,
                        cnt := 0#2, txrdy := if s.dir = .write then true else s.txrdy } := by
  cases hd : s.dir <;> simp [eStart, hstart, hstop, hact, hd, State.emitBus]

theorem eTx_next {b : Byte} (hact : s.busact = true) (hd : s.dir = .write) (hb : s.txd = some b)
    (hn : s.cnt + 1#2 < s.nbytes) :
    eTx s = { s with busTrace := s.busTrace ++ [.wr b], txd := none, cnt := s.cnt + 1#2, txrdy := true } := by
  simp [eTx, hact, hd, hb, hn, State.emitBus]

theorem eTx_last {b : Byte} (hact : s.busact = true) (hd : s.dir = .write) (hb : s.txd = some b)
    (hn : ¬s.cnt + 1#2 < s.nbytes) :
    eTx s = { s with busTrace := s.busTrace ++ [.wr b], txd := none, cnt := s.cnt + 1#2, tc := true } := by
  simp [eTx, hact, hd, hb, hn, State.emitBus]

theorem eRx_enabled (hact : s.busact = true) (hd : s.dir = .read) (hr : s.rxrdy = false) (hn : s.cnt < s.nbytes) :
    eRx s = { s.drawn.emitBus [.rd s.drawByte] with
      rxd := s.drawByte, rxrdy := true, cnt := s.cnt + 1#2, tc := if s.cnt + 1#2 = s.nbytes then true else s.tc } := by
  simp [eRx, hact, hd, hr, hn]

/-- E_RX takes the next byte given. -/
theorem eRx_draws {b : Byte} {rest : List Byte} (hact : s.busact = true) (hd : s.dir = .read) (hr : s.rxrdy = false)
    (hn : s.cnt < s.nbytes) (hdraws : s.draws = b :: rest) :
    eRx s = { s with draws := rest, busTrace := s.busTrace ++ [.rd b], rxd := b, rxrdy := true, cnt := s.cnt + 1#2,
                     tc := if s.cnt + 1#2 = s.nbytes then true else s.tc } := by
  simp [eRx_enabled hact hd hr hn, State.drawn, State.drawByte, hdraws, State.emitBus]

/-- E_RX takes a free byte where none is given. -/
theorem eRx_free (hact : s.busact = true) (hd : s.dir = .read) (hr : s.rxrdy = false)
    (hn : s.cnt < s.nbytes) (hdraws : s.draws = []) :
    eRx s = { s with drawCount := s.drawCount + 1, rxd := Config.sensorByte s.drawCount, rxrdy := true,
                     busTrace := s.busTrace ++ [.rd (Config.sensorByte s.drawCount)], cnt := s.cnt + 1#2,
                     tc := if s.cnt + 1#2 = s.nbytes then true else s.tc } := by
  simp [eRx_enabled hact hd hr hn, State.drawn, State.drawByte, hdraws, State.emitBus]

theorem eStop_enabled (hstop : s.stop = true) :
    eStop s = { s with busTrace := s.busTrace ++ [.stop], stop := false, tc := false, busact := false,
                       txrdy := false, cnt := 0#2 } := by
  simp [eStop, hstop, State.emitBus]

/-- Only in W2 and RD2, and only with I2C_TC up, does a command set I2C_STOP. -/
theorem SeqMove.stop_cases {i : Instr} {t : State} (h : SeqMove i s t) :
    t.stop = s.stop ∨ s.tc = true ∧ (s.ph = .w2 ∨ s.ph = .rd2) := by
  cases h with
  | requestStop ph hb hp ht => exact .inr ⟨ht, hp⟩
  | _ => exact .inl rfl

end rules

/-! ### The obligations -/

/-- Settles O19: I2C_WRITE is BTD_WRITE of its operands, which loads nothing and then is done. -/
theorem i2cWritePhases : Obligations.I2cWritePhases := by
  refine fun sadd nb s => ⟨encode_i2cWrite sadd nb, fun hp he => congrArg _ (btdWrite_busNotEnabled hp he),
    fun k hp he hk hv hi => congrArg _ (btdWrite_uninitRead hp he (Pbuf.firstInvalid_some hk hi hv)),
    fun hp he hv => ?_, fun b hp hn hr hb => congrArg _ (btdWrite_sends hp hn hr hb),
    fun hp hn hr => congrArg _ (btdWrite_waits_txrdy hp hn hr), fun hp ht => congrArg _ (btdWrite_requestsStop hp ht),
    fun hp ht => congrArg _ (btdWrite_waits_tc hp ht), fun hp hs => congrArg _ (btdWrite_goesOn hp hs),
    fun hp hs => congrArg _ (btdWrite_waits_stop hp hs)⟩
  refine congrArg _ ((btdWrite_setUp hp he (Pbuf.firstInvalid_none.2 hv)).trans ?_)
  rw [id, xferSetup_operand]

/-- Settles O20: I2C_READ is BTD_READ of its operands, and then is done. -/
theorem i2cReadPhases : Obligations.I2cReadPhases := by
  refine fun sadd nb s => ⟨encode_i2cRead sadd nb, fun hp he => congrArg _ (btdRead_busNotEnabled hp he),
    fun hp he => ?_, fun hp hn hr => ?_,
    fun hp hn hr => congrArg _ (btdRead_waits_rxrdy hp hn hr), fun hp ht => congrArg _ (btdRead_requestsStop hp ht),
    fun hp ht => congrArg _ (btdRead_waits_tc hp ht), fun hp hs => congrArg _ (btdRead_goesOn hp hs),
    fun hp hs => congrArg _ (btdRead_waits_stop hp hs)⟩
  · refine congrArg _ ((btdRead_setUp hp he).trans ?_)
    rw [xferSetup_operand]
  · exact ⟨_, congrArg _ (btdRead_takes hp hn hr), btdRead_takes_at (hn.trans_le (Nat.le_of_lt_succ nb.isLt))⟩

/-- Settles O21: a K step with a transaction is BTD_WRITE or BTD_READ, whatever the command. -/
theorem transactionPhasesAreShared : Obligations.TransactionPhasesAreShared := by
  refine fun i s n => ⟨fun hplan => ?_, fun hplan => ?_⟩
  · obtain ⟨load, sadd, fin, he, -, -⟩ := exec_of_plan_write hplan
    rw [he]
    exact ⟨fun b hp hn hr hb => congrArg _ (btdWrite_sends hp hn hr hb),
      fun hp hn hr => congrArg _ (btdWrite_waits_txrdy hp hn hr),
      fun hp ht => congrArg _ (btdWrite_requestsStop hp ht), fun hp ht => congrArg _ (btdWrite_waits_tc hp ht),
      fun hp hs => congrArg _ (btdWrite_waits_stop hp hs)⟩
  · obtain ⟨sadd, fin, he, -⟩ := exec_of_plan_read hplan
    rw [he]
    exact ⟨fun hp hn hr =>
        ⟨_, congrArg _ (btdRead_takes hp hn hr), btdRead_takes_at (hn.trans_le (plan_bytes_le hplan))⟩,
      fun hp hn hr => congrArg _ (btdRead_waits_rxrdy hp hn hr),
      fun hp ht => congrArg _ (btdRead_requestsStop hp ht), fun hp ht => congrArg _ (btdRead_waits_tc hp ht),
      fun hp hs => congrArg _ (btdRead_waits_stop hp hs)⟩

end Sys2Proof.Machine
end

section
/-!
PROOFS of the obligations of 42_sensor_sequences.md about the steps of the composite commands, and their support: the
pointer write, the K steps of each command, and the set-up of each K step's transaction (R151 to R162).
-/

namespace Sys2Proof.Machine

/-! ### The two writes of R151 -/

section writes
variable {s : State} {reg : BitVec 6} {w : BitVec 16} {fin : State → State}

/-- The bytes of `wr16` are all there. -/
theorem loadWrite_valid : (s.loadWrite reg w).pbuf.firstInvalid 3 = none :=
  Pbuf.firstInvalid_none.2 fun k hk => by
    have hc : k = 0 ∨ k = 1 ∨ k = 2 := by omega
    rcases hc with rfl | rfl | rfl <;> rfl

/-- The byte of `point` is there. -/
theorem loadPointer_valid : (s.loadPointer reg).pbuf.firstInvalid 1 = none :=
  Pbuf.firstInvalid_none.2 fun k hk => by
    obtain rfl : k = 0 := by omega
    rfl

/-- `wr16` loads PBUF with the register and the word, high byte first, and sets up a write of 3 bytes. -/
theorem wr16Step_setUp (hp : s.ph = .w0) (he : s.pe = true) :
    wr16Step reg w fin s
      = { s with pbuf := ⟨some (reg.setWidth 8), some (w.extractLsb' 8 8), some (w.extractLsb' 0 8)⟩, sadd := 0x40#7,
                 dir := .write, nbytes := 3#2, start := true, idx := 0, ph := .w1 } :=
  btdWrite_setUp hp he loadWrite_valid

/-- `point` loads PBUF[0] with the register and sets up a write of 1 byte. -/
theorem pointStep_setUp (hp : s.ph = .w0) (he : s.pe = true) :
    pointStep reg s
      = { s with pbuf := { s.pbuf with b0 := some (reg.setWidth 8) }, sadd := 0x40#7, dir := .write, nbytes := 1#2,
                 start := true, idx := 0, ph := .w1 } :=
  btdWrite_setUp hp he loadPointer_valid

end writes

/-! ### The K steps of the commands (R151, R152, R154) -/

section steps
variable {s : State} {i : Instr} {reg : BitVec 6} {sc : Bool} {d : Descriptor}

/-- The registers and words that SENSOR_INIT writes, in its order (R152). -/
def initWrites (c : Config) : List (BitVec 6 × BitVec 16) :=
  [(c.regs.config, c.initWords.rst), (c.initWords.rangeReg, c.initWords.range), (c.regs.adcConfig, c.initWords.adc),
    (c.regs.shuntCal, c.initWords.shuntCal)]

/-- What follows the K step `k` of SENSOR_INIT. -/
def initNext (k : Nat) (s : State) : State := if k < 3 then s.nextK .w0 else s.done

/-- SENSOR_INIT writes the register and the word of its K step, and then goes on to the next or is done. -/
theorem exec_sensorInit {w : BitVec 16} (h : (initWrites s.config)[s.kIdx]? = some (reg, w)) :
    exec .sensorInit s = .next (wr16Step reg w (initNext s.kIdx) s) := by
  obtain ⟨hlt, -⟩ := List.getElem?_eq_some_iff.1 h
  have hk : s.kIdx = 0 ∨ s.kIdx = 1 ∨ s.kIdx = 2 ∨ s.kIdx = 3 := by
    simp only [initWrites, List.length_cons, List.length_nil] at hlt
    omega
  obtain hk | hk | hk | hk := hk <;> rw [hk] at h ⊢ <;> cases h <;> simp only [exec, execSensorInit, hk] <;> rfl

theorem exec_readMfrId_point (hk : s.kIdx = 0) : exec .readMfrId s = .next (pointStep s.config.regs.mfrId s) := by
  simp [exec, execReadMfrId, hk]

theorem exec_readMfrId_read (hk : s.kIdx = 1) :
    exec .readMfrId s = .next (btdRead Config.sensorSadd 2 (fun t => t.nextK .k2) s) := by
  simp [exec, execReadMfrId, hk]

theorem exec_readMfrId_finish (hk : s.kIdx = 2) : exec .readMfrId s = .next (makeStr s) := by
  simp [exec, execReadMfrId, hk]

theorem exec_measures_point (hm : measures s.config i = some (reg, sc)) (hd : s.desc reg = some d) (hk : s.kIdx = 0) :
    exec i s = .next (pointStep reg s) := by
  rw [exec_measures hm, sensorRead, hk]
  exact congrArg _ (sensorReadK0_of_desc hd)

theorem exec_measures_read (hm : measures s.config i = some (reg, sc)) (hd : s.desc reg = some d) (hk : s.kIdx = 1) :
    exec i s = .next (btdRead Config.sensorSadd (descBytes d) (fun t => t.nextK .k2) s) := by
  simp [exec_measures hm, sensorRead, hk, hd, sensorReadK1]

theorem exec_measures_finish (hm : measures s.config i = some (reg, sc)) (hd : s.desc reg = some d)
    (hk : s.kIdx = 2) : exec i s = .next (decodeToRes d sc s) := by
  simp [exec_measures hm, sensorRead, hk, hd]

/-- The byte count of a descriptor's register. -/
theorem ofNat_descBytes (d : Descriptor) : BitVec.ofNat 2 (descBytes d) = if d.width = .w16 then 2#2 else 3#2 := by
  unfold descBytes
  cases d.width <;> rfl

/-- Up to its last step a numeric read does not ask whether it scales (R151). -/
theorem sensorRead_congr_scale (hk : s.kIdx < 2) (sc sc' : Bool) : sensorRead reg sc s = sensorRead reg sc' s := by
  have hc : s.kIdx = 0 ∨ s.kIdx = 1 := by omega
  obtain hk | hk := hc <;> simp [sensorRead, hk]

end steps

/-! ### The obligations -/

/-- Settles O33: each K step is `wr16` of its register and word. -/
theorem sensorInitSteps : Obligations.SensorInitSteps := by
  refine ⟨by decide, fun s k reg w hk h => ?_⟩
  subst hk
  rw [exec_sensorInit h]
  refine ⟨fun hp he => congrArg _ (btdWrite_busNotEnabled hp he), fun hp he => congrArg _ (wr16Step_setUp hp he),
    fun hp hs hlt => congrArg _ ((btdWrite_goesOn hp hs).trans (if_pos hlt)),
    fun hp hs hlast => congrArg _ ((btdWrite_goesOn hp hs).trans (if_neg (by omega))), fun x hx => ?_⟩
  rw [Config.initWords, hx, Option.getD_some]

/-- Settles O34: the three K steps of READ_MFR_ID. -/
theorem readMfrIdSteps : Obligations.ReadMfrIdSteps := by
  refine ⟨by decide, fun s => ⟨fun hk hp he => ?_, fun hk hp he => ?_, fun hk hp hs => ?_, fun hk hp he => ?_,
    fun hk hp hs => ?_, fun b0 b1 hk hp h0 h1 => ?_⟩⟩
  · exact (exec_readMfrId_point hk).trans (congrArg _ (btdWrite_busNotEnabled hp he))
  · exact (exec_readMfrId_point hk).trans (congrArg _ (pointStep_setUp hp he))
  · rw [exec_readMfrId_point hk, pointStep, btdWrite_goesOn hp hs, State.nextK, hk]
  · exact (exec_readMfrId_read hk).trans (congrArg _ (btdRead_setUp hp he))
  · rw [exec_readMfrId_read hk, btdRead_goesOn hp hs, State.nextK, hk]
  · exact (exec_readMfrId_finish hk).trans (congrArg _ (makeStr_ok h0 h1))

/-- Settles O35: READ_ENERGY and READ_CHARGE are `sensor_read` of the register that the mode gives them. -/
theorem numericReadsNameTheirRegister : Obligations.NumericReadsNameTheirRegister := by
  refine ⟨fun c => ⟨rfl, rfl, rfl, rfl, rfl, fun hm => ?_, fun hm => ?_⟩, by decide, by decide, by decide, by decide,
    by decide, by decide, by decide, fun s => ⟨fun hm => ?_, fun hm hk hp => ?_⟩⟩
  · simp [measures, hm]
  · simp [measures, hm]
  · have energy : measures s.config .readEnergy = some (s.config.regs.current, false) := by simp [measures, hm]
    have charge : measures s.config .readCharge = some (s.config.regs.current, false) := by simp [measures, hm]
    refine ⟨(exec_measures charge).trans (exec_measures energy).symm, fun hk => ?_⟩
    rw [exec_measures energy, exec_measures rfl, sensorRead_congr_scale hk]
  · have energy : measures s.config .readEnergy = some (s.config.regs.energy, false) := by simp [measures, hm]
    have charge : measures s.config .readCharge = some (s.config.regs.charge, false) := by simp [measures, hm]
    exact ⟨fun hd => exec_of_no_desc energy hd hp, fun hd => exec_of_no_desc charge hd hp⟩

/-- Settles O36: the three K steps of `sensor_read`, and the fault without a descriptor. -/
theorem sensorReadSteps : Obligations.SensorReadSteps := by
  refine fun i reg sc s hm => ⟨fun hd _ hp => exec_of_no_desc hm hd hp, fun d hd => ⟨fun hk hp he => ?_,
    fun hk hp he => ?_, fun hk hp hs => ?_, fun hk hp he => ?_, fun hk hp hs => ?_, fun b0 b1 hk hp hw h0 h1 => ?_,
    fun b0 b1 b2 hk hp hw h0 h1 h2 => ?_⟩⟩
  · exact (exec_measures_point hm hd hk).trans (congrArg _ (btdWrite_busNotEnabled hp he))
  · exact (exec_measures_point hm hd hk).trans (congrArg _ (pointStep_setUp hp he))
  · rw [exec_measures_point hm hd hk, pointStep, btdWrite_goesOn hp hs, State.nextK, hk]
  · rw [exec_measures_read hm hd hk, btdRead_setUp hp he, State.xferSetup, ofNat_descBytes]
    rfl
  · rw [exec_measures_read hm hd hk, btdRead_goesOn hp hs, State.nextK, hk]
  · rw [exec_measures_finish hm hd hk, decodeToRes_ok (State.decodePayload_w16 hw h0 h1)]
    rfl
  · rw [exec_measures_finish hm hd hk, decodeToRes_ok (State.decodePayload_w24 hw h0 h1 h2)]
    rfl

end Sys2Proof.Machine
end

section
/-!
PROOFS of the obligations of 43_console.md about the steps of the console commands, and their support: each phase of
WRITE_TEXT and of the number writes with its condition, the words of these commands, and the bytes that the formatter
leaves in DBUF (R171 to R184, R186).
-/

namespace Sys2Proof.Machine

/-! ### The words of the commands (R87 to R89) -/

theorem encode_uartInit (div : BitVec 16) : encode (.uartInit div) = 0x30000000#32 ||| div.setWidth 32 := by
  have hop : (Instr.uartInit div).opcode.setWidth 32 <<< 24 = 0x30000000#32 := by simp [Instr.opcode]
  rw [encode_eq_or (commandWord _), hop, Instr.operandBits, ofNat_place_zero]

theorem encode_writeText_tmem (a : BitVec 8) : encode (.writeText (.tmem a)) = 0x33000000#32 ||| a.setWidth 32 := by
  have hop : (Instr.writeText (.tmem a)).opcode.setWidth 32 <<< 24 = 0x33000000#32 := by simp [Instr.opcode]
  rw [encode_eq_or (commandWord _), hop, Instr.operandBits, ofNat_place_zero]

theorem encode_writeU8_imm (v : BitVec 8) : encode (.writeU8 (.imm v)) = 0x34000000#32 ||| v.setWidth 32 := by
  have hop : (Instr.writeU8 (.imm v)).opcode.setWidth 32 <<< 24 = 0x34000000#32 := by simp [Instr.opcode]
  rw [encode_eq_or (commandWord _), hop, Instr.operandBits, ofNat_place_zero]

theorem encode_writeU16_imm (v : BitVec 16) : encode (.writeU16 (.imm v)) = 0x35000000#32 ||| v.setWidth 32 := by
  have hop : (Instr.writeU16 (.imm v)).opcode.setWidth 32 <<< 24 = 0x35000000#32 := by simp [Instr.opcode]
  rw [encode_eq_or (commandWord _), hop, Instr.operandBits, ofNat_place_zero]

/-! ### Fetching and sending a character (R174 to R176, R180) -/

section characters
variable {s : State} {c : Byte} {send : Byte → Phase} {fin : State → State}

/-- A NUL ends the command. -/
theorem takeChar_nul : takeChar 0x00#8 send s = s.done := if_pos rfl

/-- Any other character goes to the sending phase. -/
theorem takeChar_char (h : c ≠ 0x00#8) : takeChar c send s = { s with ph := send c } := if_neg h

/-- TXBYTE fills the stage when U_TXRDY is up. -/
theorem seqTxByte_ready (h : s.uTxrdy = true) : seqTxByte c fin s = fin (s.fillStage c) := if_pos h

/-- TXBYTE waits while U_TXRDY = 0. -/
theorem seqTxByte_waits (h : s.uTxrdy = false) : seqTxByte c fin s = s := by
  simp [seqTxByte, h]

/-- The characters of STR by index. -/
theorem StrReg.get_eq (t : StrReg) (k : Nat) : t.get k = [t.b0, t.b1, t.b2][k]? := by
  rcases k with _ | _ | _ | k <;> rfl

/-- The characters of STR (R175). -/
theorem State.textChar_str {t : StrReg} (h : s.str = some t) (k : Nat) :
    s.textChar .str k = .ok [t.b0, t.b1, t.b2][k]? := by
  simp [State.textChar, h, StrReg.get_eq]

/-- A text in TMEM does not go past its end (R60, R175). -/
theorem State.textChar_pastEnd {a : BitVec 8} {k : Nat} (h : 256 ≤ a.toNat + k) :
    s.textChar (.tmem a) k = .error (.textUnterminated (a.toNat + k)) := by
  rw [State.textChar, State.memRead, if_pos (show Config.tmemSize ≤ _ from h)]

/-- The characters of a text in TMEM (R60, R175). -/
theorem State.textChar_tmem {a : BitVec 8} {k : Nat} (h : a.toNat + k < 256) (hc : s.tmem.read (a.toNat + k) = some c) :
    s.textChar (.tmem a) k = .ok (some c) := by
  rw [State.textChar, State.memRead_below_end h, hc]
  rfl

/-- A byte of TMEM without a value is no character (R12, R60). -/
theorem State.textChar_invalid {a : BitVec 8} {k : Nat} (h : a.toNat + k < 256)
    (hc : s.tmem.read (a.toNat + k) = none) :
    s.textChar (.tmem a) k = .error (.uninitRead (.tmem (a.toNat + k))) := by
  rw [State.textChar, State.memRead_below_end h, hc]
  rfl

end characters

/-! ### WRITE_TEXT, phase by phase (R176) -/

section text
variable {s : State} {src : TextSrc} {c : Byte}

theorem exec_writeText_t0 (hp : s.ph = .t0) : exec (.writeText src) s = .next (seqT0 src s) := by
  simp [exec, execWriteText, hp]

theorem exec_writeText_t1 (hp : s.ph = .t1) : exec (.writeText src) s = .next (seqT1 src s) := by
  simp [exec, execWriteText, hp]

theorem exec_writeText_t2 (hp : s.ph = .t2 c) :
    exec (.writeText src) s = .next (seqTxByte c State.nextChar s) := by
  simp [exec, execWriteText, hp]

/-- T0 on a disabled console. -/
theorem seqT0_notEnabled (he : s.uEn = false) : seqT0 src s = s.raise .uartNotEnabled s.cur := by
  simp [seqT0, he]

/-- T0 with an invalid STR as the source. -/
theorem seqT0_uninitRead (he : s.uEn = true) (hs : s.str = none) :
    seqT0 .str s = s.raise (.uninitRead .str) s.cur := by
  simp [seqT0, he, hs]

/-- T0 starts the text. -/
theorem seqT0_starts (he : s.uEn = true) (hs : src = .str → s.str.isSome = true) :
    seqT0 src s = { s with textPos := 0, ph := .t1 } := by
  cases src with
  | tmem a => simp [seqT0, he]
  | str =>
    obtain ⟨t, ht⟩ := Option.isSome_iff_exists.1 (hs rfl)
    simp [seqT0, he, ht]

/-- T1 without a character to fetch. -/
theorem seqT1_error {f : FaultCode} (h : s.textChar src s.textPos = .error f) : seqT1 src s = s.raise f s.cur := by
  simp [seqT1, h]

/-- T1 fetches a character. -/
theorem seqT1_ok (h : s.textChar src s.textPos = .ok (some c)) : seqT1 src s = takeChar c Phase.t2 s := by
  simp [seqT1, h]

end text

/-! ### The number writes, phase by phase (R180, R181) -/

section number
variable {w : Nat} {s : State} {i : Instr} {places : List Nat} {src : NumSrc w} {c : Byte}

/-- A number write is `writeNumber` of its places, at most five, and its source. -/
theorem exec_numberWrite (h : numberWrite i = true) (s : State) :
    ∃ w places, ∃ src : NumSrc w, places.length ≤ 5 ∧ exec i s = .next (writeNumber places src s) := by
  cases i with
  | writeU8 src => exact ⟨8, placesU8, src, by decide, rfl⟩
  | writeU16 src => exact ⟨16, placesU16, src, by decide, rfl⟩
  | _ => simp [numberWrite] at h

theorem writeNumber_n0 (hp : s.ph = .n0) : writeNumber places src s = seqN0 places src s := by
  simp [writeNumber, hp]

theorem writeNumber_n1 (hp : s.ph = .n1) : writeNumber places src s = seqN1 s := by
  simp [writeNumber, hp]

theorem writeNumber_n2 (hp : s.ph = .n2 c) : writeNumber places src s = seqTxByte c State.nextDigit s := by
  simp [writeNumber, hp]

/-- N0 on a disabled console. -/
theorem seqN0_notEnabled (he : s.uEn = false) : seqN0 places src s = s.raise .uartNotEnabled s.cur := by
  simp [seqN0, he]

/-- N0 without an operand. -/
theorem seqN0_error {f : FaultCode} (he : s.uEn = true) (h : s.numOperand src = .error f) :
    seqN0 places src s = s.raise f s.cur := by
  simp [seqN0, he, h]

/-- N0 formats the operand. -/
theorem seqN0_formats {n : Nat} (he : s.uEn = true) (h : s.numOperand src = .ok n) :
    seqN0 places src s = { s with dbuf := fmtPlaces places n 0 false s.dbuf, idx := 0, ph := .n1 } := by
  simp [seqN0, he, h]

/-- N1 fetches a character. -/
theorem seqN1_fetches (h : s.dbuf[s.idx]? = some c) : seqN1 s = takeChar c Phase.n2 s := by
  simp [seqN1, h]

/-- The operand from RES is its low bits (R178). -/
theorem State.numOperand_res {r : Word} (h : s.res = some r) :
    s.numOperand (NumSrc.res (w := w)) = .ok (r.toNat % 2 ^ w) := by
  simp [State.numOperand, h]

/-- An invalid RES is no operand (R178). -/
theorem State.numOperand_invalid (h : s.res = none) :
    s.numOperand (NumSrc.res (w := w)) = .error (.uninitRead .res) := by
  simp [State.numOperand, h]

end number

/-! ### What the formatter leaves in DBUF (R184) -/

/-- A text put from index 0 on is there, and the NUL after it. -/
theorem getElem?_putText {ds : List Byte} (h : ds.length < 6) (buf : Vector Byte 6) :
    (putText ds 0 buf)[ds.length]? = some 0x00#8 ∧ ∀ k, k < ds.length → (putText ds 0 buf)[k]? = ds[k]? := by
  have hlist := toList_putText ds 0 buf (by omega)
  rw [List.take_zero, List.nil_append] at hlist
  constructor
  · rw [← Vector.getElem?_toList, hlist]
    simp
  · intro k hk
    rw [← Vector.getElem?_toList, hlist, List.getElem?_append_left hk]

/-- A number below `10 ^ (k + 1)` has at most `k + 1` digits. -/
theorem length_numeral_le {k n : Nat} (h : n < 10 ^ (k + 1)) : (numeral n).length ≤ k + 1 := by
  have := Nat.log_lt_of_lt_pow' (Nat.succ_ne_zero k) h
  rw [length_numeral]
  omega

/-! ### The obligations -/

/-- Settles O40: each lifecycle command is one phase; on a disabled console the stage is empty, so U_TC is up (R189). -/
theorem consoleLifecycleCommands : Obligations.ConsoleLifecycleCommands := by
  refine ⟨fun div s => ⟨encode_uartInit div, fun he => ?_, fun he => ?_, fun hb => ?_⟩,
    fun s => ⟨by decide, fun hd => ?_, fun d hd => ?_, by decide, fun ht => ?_, fun ht => ?_⟩, fun s hinv he => ?_⟩
  · simp [exec, execUartInit, he, State.raise]
  · simp [exec, execUartInit, he]
  · have illegal : decode 0x30000000#32 = .error .zeroDivisor := by decide
    rw [hostWrite_cmd s _ hb, accept, illegal]
  · simp [exec, execUartStart, hd, State.raise]
  · simp [exec, execUartStart, hd]
  · simp [exec, execUartStop, ht]
  · simp [exec, execUartStop, ht]
  · obtain ⟨hrdy, htc, hen⟩ := hinv.console
    have ht : s.uTc = true := by rw [htc, hrdy, hen he, Option.isNone_none]
    simp [exec, execUartStop, ht, ← he]

/-- Settles O41: the phases of WRITE_TEXT, with the characters of each source. -/
theorem writeTextPhases : Obligations.WriteTextPhases := by
  refine ⟨encode_writeText_tmem, by decide, fun src s => ⟨fun hp he => ?_, fun hp he hsrc hs => ?_, fun hp he hs => ?_,
    fun a hp hsrc => ?_, fun t hp hsrc ht => ?_, fun c hp => ?_⟩⟩
  · exact (exec_writeText_t0 hp).trans (congrArg _ (seqT0_notEnabled he))
  · subst hsrc
    exact (exec_writeText_t0 hp).trans (congrArg _ (seqT0_uninitRead he hs))
  · exact (exec_writeText_t0 hp).trans (congrArg _ (seqT0_starts he hs))
  · subst hsrc
    rw [exec_writeText_t1 hp]
    refine ⟨fun h => ?_, fun h hc => ?_, fun h hc => ?_, fun c h hc hne => ?_⟩
    · exact congrArg _ (seqT1_error (State.textChar_pastEnd h))
    · exact congrArg _ (seqT1_error (State.textChar_invalid h hc))
    · exact congrArg _ ((seqT1_ok (State.textChar_tmem h hc)).trans takeChar_nul)
    · exact congrArg _ ((seqT1_ok (State.textChar_tmem h hc)).trans (takeChar_char hne))
  · subst hsrc
    rw [exec_writeText_t1 hp]
    have char : ∀ c, [t.b0, t.b1, t.b2][s.textPos]? = some c → seqT1 .str s = takeChar c Phase.t2 s := fun c hc =>
      seqT1_ok ((State.textChar_str ht s.textPos).trans (congrArg _ hc))
    exact ⟨fun hc => congrArg _ ((char _ hc).trans takeChar_nul),
      fun c hc hne => congrArg _ ((char c hc).trans (takeChar_char hne))⟩
  · rw [exec_writeText_t2 hp]
    exact ⟨fun hr => congrArg _ (seqTxByte_ready hr), fun hr => congrArg _ (seqTxByte_waits hr)⟩

/-- Settles O42: the phases of a number write, with the operand of each source. -/
theorem numberWritePhases : Obligations.NumberWritePhases := by
  refine ⟨encode_writeU8_imm, by decide, encode_writeU16_imm, by decide, fun s hp he => ?_, fun i s hn => ?_⟩
  · have formats : ∀ {w n} (places : List Nat) (src : NumSrc w), s.numOperand src = .ok n →
        writeNumber places src s = { s with dbuf := fmtPlaces places n 0 false s.dbuf, idx := 0, ph := .n1 } :=
      fun _ _ h => (writeNumber_n0 hp).trans (seqN0_formats he h)
    have raises : ∀ {w} (places : List Nat), s.res = none →
        writeNumber places (NumSrc.res (w := w)) s = s.raise (.uninitRead .res) s.cur :=
      fun _ h => (writeNumber_n0 hp).trans (seqN0_error he (State.numOperand_invalid h))
    exact ⟨fun v => congrArg _ (formats placesU8 (.imm v) rfl), fun v => congrArg _ (formats placesU16 (.imm v) rfl),
      fun r hr => ⟨congrArg _ (formats placesU8 .res (State.numOperand_res hr)),
        congrArg _ (formats placesU16 .res (State.numOperand_res hr))⟩,
      fun hr => ⟨congrArg _ (raises placesU8 hr), congrArg _ (raises placesU16 hr)⟩⟩
  · obtain ⟨w, places, src, -, h⟩ := exec_numberWrite hn s
    rw [h]
    refine ⟨fun hp he => ?_, fun hp hc => ?_, fun c hp hc hne => ?_, fun c hp => ?_⟩
    · exact congrArg _ ((writeNumber_n0 hp).trans (seqN0_notEnabled he))
    · exact congrArg _ ((writeNumber_n1 hp).trans ((seqN1_fetches hc).trans takeChar_nul))
    · exact congrArg _ ((writeNumber_n1 hp).trans ((seqN1_fetches hc).trans (takeChar_char hne)))
    · rw [writeNumber_n2 hp]
      exact ⟨fun hr => congrArg _ (seqTxByte_ready hr), fun hr => congrArg _ (seqTxByte_waits hr)⟩

/-- Settles O43: E_LINE is `lineStep`; a disabled console has an empty stage (R189). -/
theorem lineStepSendsTheStagedByte : Obligations.LineStepSendsTheStagedByte := by
  refine ⟨fun s => ⟨fun b hb => ?_, fun hb => ?_⟩, fun s hinv hst => ?_⟩
  · simp [agentStep, lineStep, hb]
  · simp [agentStep, lineStep, hb]
  · obtain ⟨-, -, hen⟩ := hinv.console
    by_contra he
    simp [hen (by simpa using he)] at hst

/-- Settles O45: the formatter writes the numeral and a NUL from index 0 on, whatever DBUF held. -/
theorem formatterOverwritesWhatIsSent : Obligations.FormatterOverwritesWhatIsSent := by
  intro places hplaces n hn
  obtain ⟨k, hk, rfl⟩ : ∃ k, k < 5 ∧ places = placesBelow (k + 1) := by
    obtain rfl | rfl := hplaces
    · exact ⟨2, by decide, rfl⟩
    · exact ⟨4, by decide, rfl⟩
  have hlt : n < 10 ^ (k + 1) := by
    rw [Nat.pow_succ, Nat.mul_comm]
    exact hn
  have hlen := length_numeral_le hlt
  simp only [fmtPlaces_numeral hlt]
  refine ⟨(numeral n).length, by omega, fun buf old => ?_⟩
  obtain ⟨hnul, hbuf⟩ := getElem?_putText (ds := numeral n) (by omega) buf
  obtain ⟨-, hold⟩ := getElem?_putText (ds := numeral n) (by omega) old
  refine ⟨hnul, fun k hk => ⟨(numeral n)[k], ?_, ?_, numeral_digits n _ (List.getElem_mem hk)⟩⟩
  · rw [hbuf k hk, List.getElem?_eq_getElem hk]
  · rw [hold k hk, List.getElem?_eq_getElem hk]

end Sys2Proof.Machine
end

section
/-!
PROOFS of the obligations about what a step leaves unchanged, and their support: for each element, the commands whose step
may write it, and that a hold lasts (R41, R102 to R181, R108, R208).
-/

namespace Sys2Proof.Machine

/-! ### Which commands write which element (R102, R104, R137 to R139, R151 to R161, R171 to R176, R180, R181) -/

/-- The commands that print (R176, R180, R181). -/
def prints (i : Instr) : Bool :=
  match i with
  | .writeText _ | .writeU8 _ | .writeU16 _ => true
  | _ => false

section frames
variable {i : Instr} {s t : State}

/-- What no command writes. -/
theorem SeqMove.frame (h : SeqMove i s t) :
    t.cur = s.cur ∧ t.pe = s.pe ∧ t.rxd = s.rxd ∧ t.busact = s.busact ∧ t.cnt = s.cnt ∧ t.tc = s.tc
      ∧ t.busTrace = s.busTrace ∧ t.lineTrace = s.lineTrace ∧ t.host = s.host ∧ t.hostReads = s.hostReads
      ∧ t.config = s.config ∧ t.sched = s.sched ∧ t.tick = s.tick ∧ t.draws = s.draws ∧ t.drawCount = s.drawCount := by
  cases h <;> simp

/-- The transaction registers are written by the bus commands alone. -/
theorem SeqMove.transfer_eq (h : SeqMove i s t) (hi : busCommand i = false) :
    t.sadd = s.sadd ∧ t.dir = s.dir ∧ t.nbytes = s.nbytes ∧ t.start = s.start ∧ t.stop = s.stop ∧ t.txrdy = s.txrdy
      ∧ t.rxrdy = s.rxrdy ∧ t.txd = s.txd ∧ t.pbuf = s.pbuf ∧ t.kIdx = s.kIdx := by
  cases h <;> simp_all

/-- A command with no write transaction leaves the send register as it is. -/
theorem SeqMove.send_eq (h : SeqMove i s t) (hi : ∃ a n, i = .i2cRead a n) : t.txrdy = s.txrdy ∧ t.txd = s.txd := by
  obtain ⟨a, n, rfl⟩ := hi
  cases h <;> simp_all

/-- A command with no read transaction leaves I2C_RXRDY as it is. -/
theorem SeqMove.rxrdy_eq (h : SeqMove i s t) (hi : (∃ a n, i = .i2cWrite a n) ∨ i = .sensorInit) :
    t.rxrdy = s.rxrdy := by
  obtain ⟨a, n, rfl⟩ | rfl := hi <;> cases h <;> simp_all

/-- The two primitive bus commands have one K step. -/
theorem SeqMove.kIdx_eq (h : SeqMove i s t) (hi : (∃ a n, i = .i2cWrite a n) ∨ ∃ a n, i = .i2cRead a n) :
    t.kIdx = s.kIdx := by
  obtain ⟨a, n, rfl⟩ | ⟨a, n, rfl⟩ := hi <;> cases h <;> simp_all

/-- I2C_WRITE only reads PBUF. -/
theorem SeqMove.pbuf_eq (h : SeqMove i s t) (hi : ∃ a n, i = .i2cWrite a n) : t.pbuf = s.pbuf := by
  obtain ⟨a, n, rfl⟩ := hi
  cases h <;> simp_all

/-- A byte set leaves the others as they are. -/
theorem Pbuf.get_set_ne {p : Pbuf} {k j : Nat} {b : Byte} (h : k ≠ j) : (p.set j b).get k = p.get k := by
  by_cases hj : j < 3
  · rw [Pbuf.get_set hj, if_neg h]
  · rcases j with _ | _ | _ | j
    · omega
    · omega
    · omega
    · rfl

/-- I2C_READ writes no byte of PBUF but the one at I. -/
theorem SeqMove.pbuf_get_eq (h : SeqMove i s t) (hi : ∃ a n, i = .i2cRead a n) {k : Nat} (hk : k ≠ s.idx) :
    t.pbuf.get k = s.pbuf.get k := by
  obtain ⟨a, n, rfl⟩ := hi
  cases h with
  | setUpWrite p sadd n hb hr => exact absurd rfl (hr a _)
  | take => exact Pbuf.get_set_ne hk
  | _ => rfl

/-- RES is written by the commands of `writesRes` alone. -/
theorem SeqMove.res_eq (h : SeqMove i s t) (hi : writesRes i = false) : t.res = s.res := by
  cases h <;> simp_all

/-- STR is written by MKSTR and READ_MFR_ID alone. -/
theorem SeqMove.str_eq (h : SeqMove i s t) (hi : i ≠ .mkstr) (hi' : i ≠ .readMfrId) : t.str = s.str := by
  cases h <;> simp_all

/-- BRR is written by UART_INIT alone. -/
theorem SeqMove.brr_eq (h : SeqMove i s t) (hi : ∀ d, i ≠ .uartInit d) : t.brr = s.brr := by
  cases h <;> simp_all

/-- U_EN is written by UART_START and UART_STOP alone. -/
theorem SeqMove.uEn_eq (h : SeqMove i s t) (hi : i ≠ .uartStart) (hi' : i ≠ .uartStop) : t.uEn = s.uEn := by
  cases h <;> simp_all

/-- DBUF is written by the number writes alone. -/
theorem SeqMove.dbuf_eq (h : SeqMove i s t) (hi : numberWrite i = false) : t.dbuf = s.dbuf := by
  cases h <;> simp_all

/-- The stage is filled by the printing commands alone. -/
theorem SeqMove.stage_eq (h : SeqMove i s t) (hi : prints i = false) :
    t.uTxrdy = s.uTxrdy ∧ t.uTc = s.uTc ∧ t.uStage = s.uStage := by
  have hn : numberWrite i = false := by cases i <;> simp_all [prints, numberWrite]
  cases h <;> simp_all [prints]

/-- The count of characters is WRITE_TEXT's. -/
theorem SeqMove.textPos_eq (h : SeqMove i s t) (hi : ∀ src, i ≠ .writeText src) : t.textPos = s.textPos := by
  cases h <;> simp_all

/-- The index of a byte is not WRITE_TEXT's, nor a one-phase command's. -/
theorem SeqMove.idx_eq (h : SeqMove i s t) (hb : busCommand i = false) (hn : numberWrite i = false) :
    t.idx = s.idx := by
  cases h <;> simp_all

/-- A command of one phase stays in it. -/
theorem SeqMove.ph_eq (h : SeqMove i s t) (hb : busCommand i = false) (hi : prints i = false) : t.ph = s.ph := by
  have hn : numberWrite i = false := by cases i <;> simp_all [prints, numberWrite]
  cases h <;> simp_all [prints]

end frames

/-! ### A hold lasts (R108) -/

/-- Where the running command waits, its step leaves the state as it is. -/
theorem exec_of_holds {s : State} {i : Instr} (h : s.holds i) : exec i s = .next s := by
  unfold State.holds at h
  split at h
  next hp =>
    obtain ⟨hr, n, hplan, hn⟩ := h
    obtain ⟨load, sadd, fin, he, -⟩ := exec_of_plan_write hplan
    rw [he, btdWrite_waits_txrdy hp hn hr]
  next hp =>
    obtain ⟨ht, n, hplan⟩ := h
    obtain ⟨load, sadd, fin, he, -⟩ := exec_of_plan_write hplan
    rw [he, btdWrite_waits_tc hp ht]
  next hp =>
    obtain ⟨hs, n, hplan⟩ := h
    obtain ⟨load, sadd, fin, he, -⟩ := exec_of_plan_write hplan
    rw [he, btdWrite_waits_stop hp hs]
  next hp =>
    obtain ⟨hr, n, hplan, hn⟩ := h
    obtain ⟨sadd, fin, he, -⟩ := exec_of_plan_read hplan
    rw [he, btdRead_waits_rxrdy hp hn hr]
  next hp =>
    obtain ⟨ht, n, hplan⟩ := h
    obtain ⟨sadd, fin, he, -⟩ := exec_of_plan_read hplan
    rw [he, btdRead_waits_tc hp ht]
  next hp =>
    obtain ⟨hs, n, hplan⟩ := h
    obtain ⟨sadd, fin, he, -⟩ := exec_of_plan_read hplan
    rw [he, btdRead_waits_stop hp hs]
  next hp =>
    obtain ⟨hr, src, rfl⟩ := h
    rw [exec_writeText_t2 hp, seqTxByte_waits hr]
  next hp =>
    obtain ⟨hr, hn⟩ := h
    obtain ⟨w, places, src, -, he⟩ := exec_numberWrite hn s
    rw [he, writeNumber_n2 hp, seqTxByte_waits hr]
  next hp =>
    obtain ⟨ht, rfl⟩ := h
    simp [exec, execUartStop, ht]
  next => exact h.elim

/-! ### The obligations -/

/-- Settles O54: what each agent's step can do, element by element. -/
theorem agentsWriteOnlyTheirState : Obligations.AgentsWriteOnlyTheirState := by
  intro a s t h
  cases a with
  | host =>
    cases h
    obtain h | ⟨_, h⟩ | ⟨_, _, h⟩ | ⟨_, _, _, _, t, _, _, hw, h⟩ := hostStep_cases s <;> rw [h]
    · simp
    · simp
    · simp
    · obtain ⟨_, ⟨_, _, rfl⟩ | ⟨_, rfl⟩ | ⟨_, _, _, rfl⟩ | ⟨_, _, rfl⟩⟩ := hostWrite_ok hw <;> simp
  | seq =>
    obtain h' | ⟨_, i, hcur, h'⟩ := seqStep_cases s <;> simp only [agentStep, h'] at h
    · cases h
      simp
    · have hm := exec_move h
      obtain ⟨hcur, hpe, hrxd, hact, hcnt, htc, htrace, hline, hhost, hreads, hconfig, hsched, htick, hdraws, hcount⟩ :=
        hm.frame
      simp [*, hm.tmem_eq]
  | bus r =>
    cases h
    cases r with
    | eStart => obtain h | ⟨_, _, _, h⟩ := eStart_cases s <;> simp [busStep, h]
    | eTx => obtain h | ⟨_, _, _, _, ⟨_, h⟩ | ⟨_, h⟩⟩ := eTx_cases s <;> simp [busStep, h]
    | eRx => obtain h | ⟨_, _, _, _, h⟩ := eRx_cases s <;> simp [busStep, h]
    | eStop => obtain h | ⟨_, h⟩ := eStop_cases s <;> simp [busStep, h]
  | line =>
    cases h
    obtain h | ⟨_, _, h⟩ := lineStep_cases s <;> simp [h]

/-- Settles O55: the frame of a command is read off element by element. -/
theorem commandFrames : Obligations.CommandFrames := by
  intro i s t h
  have m := exec_move h
  obtain ⟨hcur, hpe, hframe⟩ := m.frame
  refine ⟨⟨hcur, hpe, fun a => by rw [m.tmem_eq], hframe⟩, ?_, m.textPos_eq, ?_, ?_, ?_⟩
  · cases i with
    | i2cWrite a n =>
      exact ⟨m.pbuf_eq ⟨a, n, rfl⟩, m.res_eq rfl, m.str_eq nofun nofun, m.rxrdy_eq (.inl ⟨a, n, rfl⟩),
        m.kIdx_eq (.inl ⟨a, n, rfl⟩)⟩
    | i2cRead a n =>
      obtain ⟨htx, htxd⟩ := m.send_eq ⟨a, n, rfl⟩
      exact ⟨fun k hk => m.pbuf_get_eq ⟨a, n, rfl⟩ hk, m.res_eq rfl, m.str_eq nofun nofun, htx, htxd,
        m.kIdx_eq (.inr ⟨a, n, rfl⟩)⟩
    | decodeReg | scale =>
      obtain ⟨-, -, -, -, -, -, -, -, hpbuf, hk⟩ := m.transfer_eq rfl
      exact ⟨hpbuf, m.str_eq nofun nofun, m.ph_eq rfl rfl, m.idx_eq rfl rfl, hk⟩
    | mkstr | uartInit | uartStart | uartStop =>
      obtain ⟨-, -, -, -, -, -, -, -, hpbuf, hk⟩ := m.transfer_eq rfl
      exact ⟨hpbuf, m.res_eq rfl, m.ph_eq rfl rfl, m.idx_eq rfl rfl, hk⟩
    | sensorInit => exact ⟨m.res_eq rfl, m.str_eq nofun nofun, m.rxrdy_eq (.inr rfl)⟩
    | readMfrId => exact m.res_eq rfl
    | readDeviceId | readCurrent | readVoltage | readTemperature | readPower | readEnergy | readCharge =>
      exact m.str_eq nofun nofun
    | writeText | writeU8 | writeU16 =>
      obtain ⟨-, -, -, -, -, -, -, -, hpbuf, hk⟩ := m.transfer_eq rfl
      exact ⟨hpbuf, m.res_eq rfl, m.str_eq nofun nofun, hk⟩
  · cases i with
    | uartInit d => exact ⟨m.uEn_eq nofun nofun, m.str_eq nofun nofun⟩
    | uartStart | uartStop => exact ⟨m.brr_eq nofun, m.str_eq nofun nofun⟩
    | _ => exact ⟨m.uEn_eq nofun nofun, m.brr_eq nofun⟩
  · cases i with
    | writeText src => exact ⟨m.dbuf_eq rfl, m.idx_eq rfl rfl⟩
    | writeU8 | writeU16 => trivial
    | _ => exact ⟨m.dbuf_eq rfl, m.stage_eq rfl⟩
  · cases i with
    | i2cWrite | i2cRead | sensorInit | readMfrId | readDeviceId | readCurrent | readVoltage | readTemperature
    | readPower | readEnergy | readCharge => trivial
    | _ =>
      obtain ⟨hsadd, hdir, hnbytes, hstart, hstop, htx, hrx, htxd, -, -⟩ := m.transfer_eq rfl
      exact ⟨hsadd, hdir, hnbytes, hstart, hstop, htx, hrx, htxd⟩

/-- Settles O58, by induction on the number of steps: each leaves the state, and so the hold, as it is. -/
theorem holdsHaveNoTimeout : Obligations.HoldsHaveNoTimeout := by
  intro n
  induction n with
  | zero =>
    intro s i rest _ _ _ _ _ hs
    obtain rfl : s.sched = rest := hs
    rfl
  | succ n ih =>
    intro s i rest hw hf hb hc hh hs
    have hstep : step s = .next { s with sched := List.replicate n .seq ++ rest } := by
      rw [step_seq hw hf hb hc hs]
      exact exec_of_holds (s := { s with sched := List.replicate n .seq ++ rest }) hh
    rw [runSteps_next hstep]
    exact ih _ i rest hw hf hb hc hh rfl

end Sys2Proof.Machine
end

section
/-!
SUPPORT for the obligations about reachable states: everything that a step of a running command can do in a state of the
invariant, with what the later steps rely on (R102, R104, R151, R176, R180, R202, R208).
-/

namespace Sys2Proof.Machine

/-! ### The steps of a running command -/

/-- Where a command may fault (R202, R203): in its first phase on an idle bus, in its one phase, or in T1 of WRITE_TEXT. -/
def State.early (s : State) (i : Instr) : Prop :=
  s.kIdx = 0 ∧ s.ph = firstPhase i ∧ s.busIdle ∨ onePhase i = true ∨ (∃ src, i = .writeText src) ∧ s.ph = .t1

/-- Everything one step of the running command `i` can do in a state of the invariant. -/
inductive Advance (i : Instr) (s : State) : State → Prop where
  | hold (h : s.holds i) : Advance i s s
  | fault (code : FaultCode) (hm : mayRaise s.config i code) (he : s.early i) : Advance i s (s.raise code s.cur)
  | setUpWrite (p : Pbuf) (sadd : BitVec 7) (n : BitVec 2) (hp : s.ph = .w0) (he : s.pe = true) :
      Advance i s { s with pbuf := p, sadd := sadd, dir := .write, nbytes := n, start := true, idx := 0, ph := .w1 }
  | send (b : Byte) (ph : Phase) (hph : ph = .w1 ∨ ph = .w2) (hp : s.ph = .w1) (he : s.pe = true) (hi : s.idx < 3)
      (ht : s.txrdy = true) :
      Advance i s { s with txd := some b, txrdy := false, idx := s.idx + 1, ph := ph }
  | stopWrite (hp : s.ph = .w2) (he : s.pe = true) (hd : s.dir = .write) (hs : s.stop = false) :
      Advance i s { s with stop := true, ph := .w3 }
  | setUpRead (sadd : BitVec 7) (n : BitVec 2) (hp : s.ph = .rd0) (he : s.pe = true) :
      Advance i s { s with sadd := sadd, dir := .read, nbytes := n, start := true, idx := 0, ph := .rd1 }
  | take (ph : Phase) (hph : ph = .rd1 ∨ ph = .rd2) (hp : s.ph = .rd1) (he : s.pe = true) (hi : s.idx < 3)
      (hr : s.rxrdy = true) :
      Advance i s { s with pbuf := s.pbuf.set s.idx s.rxd, rxrdy := false, idx := s.idx + 1, ph := ph }
  | stopRead (hp : s.ph = .rd2) (he : s.pe = true) (hd : s.dir = .read) (hs : s.stop = false)
      (hv : ∃ n, plan s.config i s.kIdx = some (.read n) ∧ s.pbuf.firstInvalid n = none) :
      Advance i s { s with stop := true, ph := .rd3 }
  | nextK (st : KStep) (hplan : plan s.config i (s.kIdx + 1) = some st) (hp : s.ph = .w3 ∨ s.ph = .rd3)
      (he : s.pe = true) (hv : ∀ n, st = .finish n → s.pbuf.firstInvalid n = none) : Advance i s (s.nextK st.entry)
  | ended (t : State) (hb : t.busy = false) (hf : t.fault = s.fault) (hidx : t.idx = s.idx)
      (hpos : t.textPos = s.textPos) : Advance i s t
  | startText (src : TextSrc) (hi : i = .writeText src) (hp : s.ph = .t0) (he : s.uEn = true)
      (hs : src = .str → s.str.isSome = true) : Advance i s { s with textPos := 0, ph := .t1 }
  | fetchText (c : Byte) (hp : s.ph = .t1) (hc : c ≠ 0x00#8) (hs : i = .writeText .str → s.textPos ≤ 1)
      (ha : ∀ a, i = .writeText (.tmem a) → a.toNat + s.textPos < Config.tmemSize) : Advance i s { s with ph := .t2 c }
  | sendChar (c : Byte) (hp : s.ph = .t2 c) (ht : s.uTxrdy = true) :
      Advance i s { s with uStage := some c, uTxrdy := false, uTc := false, textPos := s.textPos + 1, ph := .t1 }
  | format (buf : Vector Byte 6) (hn : numberWrite i = true) (hp : s.ph = .n0) (he : s.uEn = true)
      (hd : ∃ m : Nat, buf[m]? = some 0x00#8) : Advance i s { s with dbuf := buf, idx := 0, ph := .n1 }
  | fetchDigit (c : Byte) (hp : s.ph = .n1) (hc : c ≠ 0x00#8) (hd : s.dbufEnds (s.idx + 1)) :
      Advance i s { s with ph := .n2 c }
  | sendDigit (c : Byte) (hp : s.ph = .n2 c) (ht : s.uTxrdy = true) :
      Advance i s { s with uStage := some c, uTxrdy := false, uTc := false, idx := s.idx + 1, ph := .n1 }

/-! ### Write transactions (R102, R103) -/

section write
variable {i : Instr} {s t : State} {n : Nat} {reg : BitVec 6} {sc : Bool}

/-- A numeric read begins with its pointer write. -/
theorem firstPhase_of_measures {c : Config} (h : measures c i = some (reg, sc)) : firstPhase i = .w0 := by
  cases i <;> simp [measures] at h <;> rfl

/-- A numeric read may find the bus not enabled, or its descriptor missing. -/
theorem mayRaise_of_measures {c : Config} {f : FaultCode} (h : measures c i = some (reg, sc))
    (hf : f = .busNotEnabled ∨ f = .noDescriptor reg) : mayRaise c i f := by
  have listed : f = .busNotEnabled ∨ ∃ reg sc, measures c i = some (reg, sc) ∧ f = .noDescriptor reg :=
    hf.imp_right fun e => ⟨reg, sc, h, e⟩
  cases i with
  | readDeviceId | readCurrent | readVoltage | readTemperature | readPower | readEnergy | readCharge => exact listed
  | _ => simp [measures] at h

/-- Every command that uses the bus may find it not enabled (R202). -/
theorem mayRaise_busNotEnabled {c : Config} {k : Nat} {st : KStep} (h : plan c i k = some st) :
    mayRaise c i .busNotEnabled := by
  obtain ⟨_, _, rfl, -⟩ | ⟨_, _, rfl, -⟩ | ⟨rfl, -⟩ | ⟨rfl, -⟩ | ⟨reg, sc, d, hm, -⟩ := plan_cases h
  · exact .inl rfl
  · rfl
  · rfl
  · rfl
  · exact mayRaise_of_measures hm (.inl rfl)

/-- A command whose K0 writes begins in W0. -/
theorem firstPhase_of_plan_write {c : Config} (h : plan c i 0 = some (.write n)) : firstPhase i = .w0 := by
  obtain ⟨_, _, rfl, -⟩ | ⟨_, _, -, -, e⟩ | ⟨rfl, -⟩ | ⟨rfl, -⟩ | ⟨reg, sc, d, hm, -⟩ := plan_cases h
  · rfl
  · cases e
  · rfl
  · rfl
  · exact firstPhase_of_measures hm

/-- A command whose K0 reads begins in RD0. -/
theorem firstPhase_of_plan_read {c : Config} (h : plan c i 0 = some (.read n)) : firstPhase i = .rd0 := by
  obtain ⟨_, _, -, -, e⟩ | ⟨_, _, rfl, -⟩ | ⟨-, -, e⟩ | ⟨-, ⟨-, e⟩ | ⟨hk, -⟩ | ⟨hk, -⟩⟩
    | ⟨reg, sc, d, -, -, ⟨-, e⟩ | ⟨hk, -⟩ | ⟨hk, -⟩⟩ := plan_cases h
  · cases e
  · rfl
  · cases e
  · cases e
  · cases hk
  · cases hk
  · cases e
  · cases hk
  · cases hk

/-- The first invalid byte is one of those asked for. -/
theorem Pbuf.firstInvalid_lt {p : Pbuf} {k : Nat} (h : p.firstInvalid n = some k) : k < n := by
  rw [Pbuf.firstInvalid, List.find?_range_eq_some] at h
  simpa using h.2.1

/-- What W0 of a K step loads: I2C_WRITE sends PBUF as it is, and the composite commands load all they send. -/
theorem exec_loads (h : plan s.config i s.kIdx = some (.write n)) :
    ∃ load sadd fin p, exec i s = .next (btdWrite load sadd n fin s) ∧ load s = { s with pbuf := p }
      ∧ (p.firstInvalid n = none ∨ ∃ a nb, i = .i2cWrite a nb ∧ n = nb.toNat) := by
  obtain ⟨a, nb, rfl, -, e⟩ | ⟨_, _, -, -, e⟩ | ⟨rfl, hk, e⟩ | ⟨rfl, ⟨hk, e⟩ | ⟨-, e⟩ | ⟨-, e⟩⟩
    | ⟨reg, sc, d, hm, hd, ⟨hk, e⟩ | ⟨-, e⟩ | ⟨-, e⟩⟩ := plan_cases h <;> cases e
  · exact ⟨id, a, State.done, s.pbuf, rfl, rfl, .inr ⟨a, nb, rfl, rfl⟩⟩
  · exact ⟨_, _, _, _, exec_sensorInit (List.getElem?_eq_getElem (l := initWrites s.config) hk), rfl, .inl loadWrite_valid⟩
  · exact ⟨_, _, _, _, exec_readMfrId_point hk, rfl, .inl loadPointer_valid⟩
  · exact ⟨_, _, _, _, exec_measures_point hm hd hk, rfl, .inl loadPointer_valid⟩

/-- What follows a K step that writes is no end of a composite read. -/
theorem plan_succ_ne_finish (h : plan s.config i s.kIdx = some (.write n)) (m : Nat) :
    plan s.config i (s.kIdx + 1) ≠ some (.finish m) := by
  obtain ⟨a, nb, rfl, hk, -⟩ | ⟨_, _, -, -, e⟩ | ⟨rfl, hk, e⟩ | ⟨rfl, ⟨hk, e⟩ | ⟨-, e⟩ | ⟨-, e⟩⟩
    | ⟨reg, sc, d, hm, hd, ⟨hk, e⟩ | ⟨-, e⟩ | ⟨-, e⟩⟩ := plan_cases h
  · simp [plan]
  · cases e
  · simp [plan]
  · simp [plan, hk]
  · cases e
  · cases e
  · simp [measures_plan hm, sensorPlan, hd, hk]
  · cases e
  · cases e

/-- The end of a composite read needs the bytes that the K step before it has read. -/
theorem plan_succ_finish (h : plan s.config i s.kIdx = some (.read n)) {m : Nat}
    (hm : plan s.config i (s.kIdx + 1) = some (.finish m)) : m = n := by
  obtain ⟨_, _, -, -, e⟩ | ⟨a, nb, rfl, hk, e⟩ | ⟨-, -, e⟩ | ⟨rfl, ⟨-, e⟩ | ⟨hk, e⟩ | ⟨-, e⟩⟩
    | ⟨reg, sc, d, hmeas, hd, ⟨-, e⟩ | ⟨hk, e⟩ | ⟨-, e⟩⟩ := plan_cases h <;> cases e
  · simp [plan] at hm
  · simp only [plan, hk] at hm
    cases hm
    rfl
  · simp only [measures_plan hmeas, sensorPlan, hd, hk] at hm
    cases hm
    rfl

/-- W0: a fault, or the set-up of the transaction. -/
theorem advance_w0 (hp : s.ph = .w0) (hi : s.busIdle) (hk : s.kIdx ≠ 0 → s.pe = true)
    (hplan : plan s.config i s.kIdx = some (.write n)) (h : exec i s = .next t) : Advance i s t := by
  obtain ⟨load, sadd, fin, p, he, hload, hvalid⟩ := exec_loads hplan
  cases he.symm.trans h
  have early : s.kIdx = 0 → s.early i := fun hk0 =>
    .inl ⟨hk0, hp.trans (firstPhase_of_plan_write (hk0 ▸ hplan)).symm, hi⟩
  cases hpe : s.pe with
  | false =>
    rw [btdWrite_busNotEnabled hp hpe]
    exact .fault _ (mayRaise_busNotEnabled hplan) (early (by_contra fun hk0 => by simp [hk hk0] at hpe))
  | true =>
    cases hv : (load s).pbuf.firstInvalid n with
    | none =>
      rw [btdWrite_setUp hp hpe hv, hload]
      exact .setUpWrite p sadd _ hp hpe
    | some k =>
      rw [btdWrite_uninitRead hp hpe hv]
      obtain hvalid | ⟨a, nb, rfl, rfl⟩ := hvalid
      · simp [hload, hvalid] at hv
      · have hk0 : s.kIdx = 0 := by_contra fun hk0 => by simp [plan, hk0] at hplan
        exact .fault _ (.inr ⟨k, Pbuf.firstInvalid_lt hv, rfl⟩) (early hk0)

/-- W1: a byte is sent, or the phase holds. -/
theorem advance_w1 (hp : s.ph = .w1) (hpe : s.pe = true) (hplan : plan s.config i s.kIdx = some (.write n))
    (hn : n ≤ 3) (hbus : s.inW1 n) (h : exec i s = .next t) : Advance i s t := by
  obtain ⟨-, -, -, -, -, hlt, hv, -⟩ := hbus
  obtain ⟨load, sadd, fin, he, -⟩ := exec_of_plan_write hplan
  cases he.symm.trans h
  cases hr : s.txrdy with
  | false =>
    rw [btdWrite_waits_txrdy hp hlt hr]
    exact .hold (by simp only [State.holds, hp]; exact ⟨hr, n, hplan, hlt⟩)
  | true =>
    obtain ⟨b, hb⟩ := Option.isSome_iff_exists.1 (Pbuf.firstInvalid_none.1 hv _ hlt)
    rw [btdWrite_sends hp hlt hr hb]
    exact .send b _ (by split_ifs <;> simp) hp hpe (by omega) hr

/-- W2: the stop is requested, or the phase holds. -/
theorem advance_w2 (hp : s.ph = .w2) (hpe : s.pe = true) (hplan : plan s.config i s.kIdx = some (.write n))
    (hbus : s.inW2 n) (h : exec i s = .next t) : Advance i s t := by
  obtain ⟨hd, -, -, hs, -⟩ := hbus
  obtain ⟨load, sadd, fin, he, -⟩ := exec_of_plan_write hplan
  cases he.symm.trans h
  cases ht : s.tc with
  | false =>
    rw [btdWrite_waits_tc hp ht]
    exact .hold (by simp only [State.holds, hp]; exact ⟨ht, n, hplan⟩)
  | true =>
    rw [btdWrite_requestsStop hp ht]
    exact .stopWrite hp hpe hd hs

/-- What follows a transaction: the end of the command, or the next K step. -/
theorem advance_of_goesOn (hp : s.ph = .w3 ∨ s.ph = .rd3) (hpe : s.pe = true)
    (hv : ∀ m, plan s.config i (s.kIdx + 1) = some (.finish m) → s.pbuf.firstInvalid m = none) (h : s.goesOn i t) :
    Advance i s t := by
  obtain rfl | ⟨st, hplan, rfl⟩ := h
  · exact .ended _ rfl rfl rfl rfl
  · exact .nextK st hplan hp hpe fun m hst => hv m (hst ▸ hplan)

/-- W3: the command goes on, or the phase holds. -/
theorem advance_w3 (hp : s.ph = .w3) (hpe : s.pe = true) (hplan : plan s.config i s.kIdx = some (.write n))
    (h : exec i s = .next t) : Advance i s t := by
  obtain ⟨load, sadd, fin, he, -, hgo⟩ := exec_of_plan_write hplan
  cases he.symm.trans h
  cases hs : s.stop with
  | true =>
    rw [btdWrite_waits_stop hp hs]
    exact .hold (by simp only [State.holds, hp]; exact ⟨hs, n, hplan⟩)
  | false =>
    rw [btdWrite_goesOn hp hs]
    exact advance_of_goesOn (.inl hp) hpe (fun m hm => absurd hm (plan_succ_ne_finish hplan m)) hgo

end write

/-! ### Read transactions and the end of a composite read (R104, R105, R151, R154) -/

section read
variable {i : Instr} {s t : State} {n : Nat}

/-- RD0: a fault, or the set-up of the transaction. -/
theorem advance_rd0 (hp : s.ph = .rd0) (hi : s.busIdle) (hk : s.kIdx ≠ 0 → s.pe = true)
    (hplan : plan s.config i s.kIdx = some (.read n)) (h : exec i s = .next t) : Advance i s t := by
  obtain ⟨sadd, fin, he, -⟩ := exec_of_plan_read hplan
  cases he.symm.trans h
  cases hpe : s.pe with
  | false =>
    have hk0 : s.kIdx = 0 := by_contra fun hk0 => by simp [hk hk0] at hpe
    rw [btdRead_busNotEnabled hp hpe]
    exact .fault _ (mayRaise_busNotEnabled hplan)
      (.inl ⟨hk0, hp.trans (firstPhase_of_plan_read (hk0 ▸ hplan)).symm, hi⟩)
  | true =>
    rw [btdRead_setUp hp hpe]
    exact .setUpRead sadd _ hp hpe

/-- RD1: a byte is taken, or the phase holds. -/
theorem advance_rd1 (hp : s.ph = .rd1) (hpe : s.pe = true) (hplan : plan s.config i s.kIdx = some (.read n))
    (hn : n ≤ 3) (hbus : s.inRD1 n) (h : exec i s = .next t) : Advance i s t := by
  obtain ⟨-, -, -, -, -, hlt, -⟩ := hbus
  obtain ⟨sadd, fin, he, -⟩ := exec_of_plan_read hplan
  cases he.symm.trans h
  cases hr : s.rxrdy with
  | false =>
    rw [btdRead_waits_rxrdy hp hlt hr]
    exact .hold (by simp only [State.holds, hp]; exact ⟨hr, n, hplan, hlt⟩)
  | true =>
    rw [btdRead_takes hp hlt hr]
    exact .take _ (by split_ifs <;> simp) hp hpe (by omega) hr

/-- RD2: the stop is requested. -/
theorem advance_rd2 (hp : s.ph = .rd2) (hpe : s.pe = true) (hplan : plan s.config i s.kIdx = some (.read n))
    (hbus : s.inRD2 n) (h : exec i s = .next t) : Advance i s t := by
  obtain ⟨hd, -, -, hs, -, -, -, -, ht, -, -, hv⟩ := hbus
  obtain ⟨sadd, fin, he, -⟩ := exec_of_plan_read hplan
  cases he.symm.trans h
  rw [btdRead_requestsStop hp ht]
  exact .stopRead hp hpe hd hs ⟨n, hplan, hv⟩

/-- RD3: the command goes on, or the phase holds. -/
theorem advance_rd3 (hp : s.ph = .rd3) (hpe : s.pe = true) (hplan : plan s.config i s.kIdx = some (.read n))
    (hv : s.pbuf.firstInvalid n = none) (h : exec i s = .next t) : Advance i s t := by
  obtain ⟨sadd, fin, he, hgo⟩ := exec_of_plan_read hplan
  cases he.symm.trans h
  cases hs : s.stop with
  | true =>
    rw [btdRead_waits_stop hp hs]
    exact .hold (by simp only [State.holds, hp]; exact ⟨hs, n, hplan⟩)
  | false =>
    rw [btdRead_goesOn hp hs]
    exact advance_of_goesOn (.inr hp) hpe (fun m hm => plan_succ_finish hplan hm ▸ hv) hgo

/-- The bytes of a register that are there decode to a value. -/
theorem State.decodePayload_of_valid {d : Descriptor} (hv : s.pbuf.firstInvalid (descBytes d) = none) :
    ∃ v, s.decodePayload d = .ok v := by
  rw [Pbuf.firstInvalid_none] at hv
  obtain ⟨b0, h0⟩ := Option.isSome_iff_exists.1 (hv 0 (by have := descBytes_range d; omega))
  obtain ⟨b1, h1⟩ := Option.isSome_iff_exists.1 (hv 1 (by have := descBytes_range d; omega))
  cases hw : d.width with
  | w16 => exact ⟨_, State.decodePayload_w16 hw h0 h1⟩
  | w24 =>
    obtain ⟨b2, h2⟩ := Option.isSome_iff_exists.1 (hv 2 (by simp [descBytes, hw]))
    exact ⟨_, State.decodePayload_w24 hw h0 h1 h2⟩

/-- The last K step of a composite read, with its bytes there, ends the command. -/
theorem advance_finish (hplan : plan s.config i s.kIdx = some (.finish n)) (hv : s.pbuf.firstInvalid n = none)
    (h : exec i s = .next t) : Advance i s t := by
  obtain ⟨_, _, -, -, e⟩ | ⟨_, _, -, -, e⟩ | ⟨-, -, e⟩ | ⟨rfl, ⟨-, e⟩ | ⟨-, e⟩ | ⟨hk, e⟩⟩
    | ⟨reg, sc, d, hm, hd, ⟨-, e⟩ | ⟨-, e⟩ | ⟨hk, e⟩⟩ := plan_cases hplan <;> cases e
  · rw [Pbuf.firstInvalid_none] at hv
    obtain ⟨b0, h0⟩ := Option.isSome_iff_exists.1 (hv 0 (by decide))
    obtain ⟨b1, h1⟩ := Option.isSome_iff_exists.1 (hv 1 (by decide))
    cases (exec_readMfrId_finish hk).symm.trans h
    rw [makeStr_ok h0 h1]
    exact .ended _ rfl rfl rfl rfl
  · obtain ⟨v, hval⟩ := State.decodePayload_of_valid hv
    cases (exec_measures_finish hm hd hk).symm.trans h
    rw [decodeToRes_ok hval]
    exact .ended _ rfl rfl rfl rfl

end read

/-! ### The commands that use no bus (R137 to R139, R171 to R181) -/

section other
variable {i : Instr} {s t : State}

/-- A command of one phase ends, faults, or waits for U_TC. -/
theorem advance_only (hp : s.ph = .only) (hi : onePhase i = true) (h : exec i s = .next t) : Advance i s t := by
  have raise : ∀ {code : FaultCode}, mayRaise s.config i code → Advance i s (s.raise code s.cur) := fun hm =>
    .fault _ hm (.inr (.inl hi))
  cases i with
  | decodeReg reg sc =>
    cases hd : s.desc reg with
    | none =>
      cases (exec_decodeReg_noDescriptor hd).symm.trans h
      exact raise (.inl rfl)
    | some d =>
      cases (exec_decodeReg_of_desc hd).symm.trans h
      cases hv : s.decodePayload d with
      | error f =>
        obtain ⟨k, hk, rfl⟩ := State.decodePayload_fault hv
        rw [decodeToRes_error hv]
        exact raise (.inr ⟨k, hk.trans_le (descBytes_range d).2, rfl⟩)
      | ok v =>
        rw [decodeToRes_ok hv]
        exact .ended _ rfl rfl rfl rfl
  | scale reg =>
    cases hd : s.desc reg with
    | none =>
      cases (exec_scale_noDescriptor hd).symm.trans h
      exact raise (.inl rfl)
    | some d =>
      cases hr : s.res with
      | none =>
        cases (exec_scale_uninitRead hd hr).symm.trans h
        exact raise (.inr rfl)
      | some v =>
        cases (exec_scale_of_desc hd hr).symm.trans h
        exact .ended _ rfl rfl rfl rfl
  | mkstr =>
    cases h
    cases h0 : s.pbuf.get 0 with
    | none =>
      rw [makeStr_error (by decide) h0 (by omega)]
      exact raise ⟨0, by decide, rfl⟩
    | some b0 =>
      cases h1 : s.pbuf.get 1 with
      | none =>
        rw [makeStr_error (by decide) h1 fun j hj => by simp [Nat.lt_one_iff.1 hj, h0]]
        exact raise ⟨1, by decide, rfl⟩
      | some b1 =>
        rw [makeStr_ok h0 h1]
        exact .ended _ rfl rfl rfl rfl
  | uartInit div =>
    simp only [exec, execUartInit] at h
    split_ifs at h <;> cases h
    · exact raise rfl
    · exact .ended _ rfl rfl rfl rfl
  | uartStart =>
    simp only [exec, execUartStart] at h
    split at h <;> cases h
    · exact raise rfl
    · exact .ended _ rfl rfl rfl rfl
  | uartStop =>
    simp only [exec, execUartStop] at h
    split_ifs at h with ht <;> cases h
    · exact .ended _ rfl rfl rfl rfl
    · exact .hold (by simpa [State.holds, hp] using ht)
  | _ => simp [onePhase] at hi

/-- TXBYTE: the stage is filled, or the phase holds. -/
theorem advance_t2 {src : TextSrc} {c : Byte} (hp : s.ph = .t2 c) (h : exec (.writeText src) s = .next t) :
    Advance (.writeText src) s t := by
  cases (exec_writeText_t2 hp).symm.trans h
  cases hr : s.uTxrdy with
  | false =>
    rw [seqTxByte_waits hr]
    exact .hold (by simp only [State.holds, hp]; exact ⟨hr, src, rfl⟩)
  | true =>
    rw [seqTxByte_ready hr]
    exact .sendChar c hp hr

/-- T0: a fault, or the start of the text. -/
theorem advance_t0 {src : TextSrc} (hp : s.ph = .t0) (hi : s.busIdle) (hk : s.kIdx = 0)
    (h : exec (.writeText src) s = .next t) : Advance (.writeText src) s t := by
  cases (exec_writeText_t0 hp).symm.trans h
  have early : s.early (.writeText src) := .inl ⟨hk, hp, hi⟩
  cases he : s.uEn with
  | false =>
    rw [seqT0_notEnabled he]
    exact .fault _ (by cases src <;> exact .inl rfl) early
  | true =>
    by_cases hs : src = .str ∧ s.str = none
    · obtain ⟨rfl, hs⟩ := hs
      rw [seqT0_uninitRead he hs]
      exact .fault _ (.inr rfl) early
    · have hs' : src = .str → s.str.isSome = true := fun e =>
        Option.isSome_iff_ne_none.2 fun hn => hs ⟨e, hn⟩
      rw [seqT0_starts he hs']
      exact .startText src rfl hp he hs'

/-- A character fetched ends the text, or is sent next. -/
theorem advance_takeChar {src : TextSrc} {c : Byte} (hp : s.ph = .t1)
    (hs : c ≠ 0x00#8 → Instr.writeText src = .writeText .str → s.textPos ≤ 1)
    (ha : ∀ a, Instr.writeText src = .writeText (.tmem a) → a.toNat + s.textPos < Config.tmemSize) :
    Advance (.writeText src) s (takeChar c Phase.t2 s) := by
  by_cases hc : c = 0x00#8
  · subst hc
    rw [takeChar_nul]
    exact .ended _ rfl rfl rfl rfl
  · rw [takeChar_char hc]
    exact .fetchText c hp hc (hs hc) ha

/-- T1: a fault at the end of TMEM or at an invalid byte, or the next character. -/
theorem advance_t1 {src : TextSrc} (hp : s.ph = .t1) (hready : s.textReady (.writeText src))
    (hnul : ∀ r, s.str = some r → r.b2 = 0x00#8) (h : exec (.writeText src) s = .next t) :
    Advance (.writeText src) s t := by
  cases (exec_writeText_t1 hp).symm.trans h
  obtain ⟨-, src', hsrc, hstr, htmem⟩ := hready
  cases hsrc
  have early : s.early (.writeText src) := .inr (.inr ⟨⟨src, rfl⟩, hp⟩)
  cases src with
  | tmem a =>
    have hle : a.toNat + s.textPos ≤ 256 := htmem a rfl
    by_cases hend : a.toNat + s.textPos = 256
    · rw [seqT1_error (State.textChar_pastEnd hend.ge)]
      exact .fault _ (.inr (.inl (congrArg _ hend))) early
    · have hlt : a.toNat + s.textPos < 256 := by omega
      cases hc : s.tmem.read (a.toNat + s.textPos) with
      | none =>
        rw [seqT1_error (State.textChar_invalid hlt hc)]
        exact .fault _ (.inr (.inr ⟨_, Nat.le_add_right _ _, hlt, rfl⟩)) early
      | some c =>
        rw [seqT1_ok (State.textChar_tmem hlt hc)]
        refine advance_takeChar hp (fun _ e => by cases e) fun b e => ?_
        cases e
        exact hlt
  | str =>
    obtain ⟨hsome, hpos⟩ := hstr rfl
    obtain ⟨r, hr⟩ := Option.isSome_iff_exists.1 hsome
    have hget : s.textPos < [r.b0, r.b1, r.b2].length := Nat.lt_succ_of_le hpos
    have hchar := State.textChar_str hr s.textPos
    rw [List.getElem?_eq_getElem hget] at hchar
    rw [seqT1_ok hchar]
    refine advance_takeChar hp (fun hc _ => ?_) fun a e => by cases e
    by_contra hlast
    have hpos2 : s.textPos = 2 := by omega
    exact hc (by simp [hpos2, hnul r hr])

/-- The formatter ends DBUF with a NUL (R184). -/
theorem fmtPlaces_ends (places : List Nat) (n j : Nat) (started : Bool) (buf : Vector Byte 6)
    (h : j + places.length < 6) : ∃ m : Nat, (fmtPlaces places n j started buf)[m]? = some 0x00#8 := by
  induction places generalizing n j started buf with
  | nil => exact ⟨j, by simp only [List.length_nil] at h; simp [fmtPlaces, show j < 6 by omega]⟩
  | cons p rest ih =>
    rw [List.length_cons] at h
    unfold fmtPlaces
    split_ifs
    · exact ih _ _ _ _ (by omega)
    · exact ih _ _ _ _ (by omega)

/-- N0: a fault, or the formatted operand. -/
theorem advance_n0 (hp : s.ph = .n0) (hi : s.busIdle) (hk : s.kIdx = 0) (hn : numberWrite i = true)
    (h : exec i s = .next t) : Advance i s t := by
  obtain ⟨w, places, src, hlen, he⟩ := exec_numberWrite hn s
  cases he.symm.trans h
  rw [writeNumber_n0 hp]
  have early : s.early i := .inl ⟨hk, by cases i <;> simp [numberWrite] at hn <;> exact hp, hi⟩
  have listed : ∀ f, f = .uartNotEnabled ∨ f = .uninitRead .res → mayRaise s.config i f := fun f hf => by
    cases i with
    | writeU8 | writeU16 => exact hf
    | _ => simp [numberWrite] at hn
  cases hen : s.uEn with
  | false =>
    rw [seqN0_notEnabled hen]
    exact .fault _ (listed _ (.inl rfl)) early
  | true =>
    have formats : ∀ n, s.numOperand src = .ok n → Advance i s (seqN0 places src s) := fun n hop => by
      rw [seqN0_formats hen hop]
      exact .format _ hn hp hen (fmtPlaces_ends places n 0 false s.dbuf (by omega))
    cases src with
    | imm v => exact formats _ rfl
    | res =>
      cases hr : s.res with
      | none =>
        rw [seqN0_error hen (State.numOperand_invalid hr)]
        exact .fault _ (listed _ (.inr rfl)) early
      | some r => exact formats _ (State.numOperand_res hr)

/-- N1: the end at the NUL, or the next digit. -/
theorem advance_n1 (hp : s.ph = .n1) (hn : numberWrite i = true) (hd : s.dbufEnds s.idx) (h : exec i s = .next t) :
    Advance i s t := by
  obtain ⟨w, places, src, -, he⟩ := exec_numberWrite hn s
  cases he.symm.trans h
  rw [writeNumber_n1 hp]
  obtain ⟨m, hle, hm⟩ := hd
  have hlt : s.idx < 6 := hle.trans_lt (Vector.getElem?_eq_some_iff.1 hm).1
  have hc : s.dbuf[s.idx]? = some s.dbuf[s.idx] := Vector.getElem?_eq_getElem hlt
  rw [seqN1_fetches hc]
  by_cases hnul : s.dbuf[s.idx] = 0x00#8
  · rw [hnul, takeChar_nul]
    exact .ended _ rfl rfl rfl rfl
  · rw [takeChar_char hnul]
    refine .fetchDigit _ hp hnul ⟨m, Nat.lt_of_le_of_ne hle fun e => hnul ?_, hm⟩
    subst e
    exact Option.some.inj (hc.symm.trans hm)

/-- N2: the stage is filled, or the phase holds. -/
theorem advance_n2 {c : Byte} (hp : s.ph = .n2 c) (hn : numberWrite i = true) (h : exec i s = .next t) :
    Advance i s t := by
  obtain ⟨w, places, src, -, he⟩ := exec_numberWrite hn s
  cases he.symm.trans h
  rw [writeNumber_n2 hp]
  cases hr : s.uTxrdy with
  | false =>
    rw [seqTxByte_waits hr]
    exact .hold (by simp only [State.holds, hp]; exact ⟨hr, hn⟩)
  | true =>
    rw [seqTxByte_ready hr]
    exact .sendDigit c hp hr

/-- Everything a step of a running command can do, whatever its phase. -/
theorem exec_advance (hphase : s.phaseOk i) (hnul : ∀ r, s.str = some r → r.b2 = 0x00#8) (h : exec i s = .next t) :
    Advance i s t := by
  unfold State.phaseOk at hphase
  split at hphase
  next => exact hphase.elim
  next hp =>
    obtain ⟨hi, hk, ⟨n, hplan, -⟩ | ⟨hk0, reg, sc, hm, hd⟩⟩ := hphase
    · exact advance_w0 hp hi hk hplan h
    · cases (exec_of_no_desc hm hd hp).symm.trans h
      exact .fault _ (mayRaise_of_measures hm (.inr rfl)) (.inl ⟨hk0, hp.trans (firstPhase_of_measures hm).symm, hi⟩)
  next hp =>
    obtain ⟨hpe, n, hplan, hn, hbus⟩ := hphase
    exact advance_w1 hp hpe hplan hn hbus h
  next hp =>
    obtain ⟨hpe, n, hplan, -, hbus⟩ := hphase
    exact advance_w2 hp hpe hplan hbus h
  next hp =>
    obtain ⟨hpe, ⟨n, hplan⟩, -⟩ := hphase
    exact advance_w3 hp hpe hplan h
  next hp =>
    obtain ⟨hi, hk, n, hplan, -⟩ := hphase
    exact advance_rd0 hp hi hk hplan h
  next hp =>
    obtain ⟨hpe, n, hplan, hn, hbus⟩ := hphase
    exact advance_rd1 hp hpe hplan hn hbus h
  next hp =>
    obtain ⟨hpe, n, hplan, -, hbus⟩ := hphase
    exact advance_rd2 hp hpe hplan hbus h
  next hp =>
    obtain ⟨hpe, ⟨n, hplan, hv⟩, -⟩ := hphase
    exact advance_rd3 hp hpe hplan hv h
  next =>
    obtain ⟨-, n, hplan, hv⟩ := hphase
    exact advance_finish hplan hv h
  next hp => exact advance_only hp hphase.2 h
  next hp =>
    obtain ⟨hi, hk, src, rfl⟩ := hphase
    exact advance_t0 hp hi hk h
  next hp =>
    obtain ⟨-, hready⟩ := hphase
    obtain ⟨-, src, rfl, -⟩ := id hready
    exact advance_t1 hp hready hnul h
  next hp =>
    obtain ⟨-, ⟨-, src, rfl, -⟩, -⟩ := hphase
    exact advance_t2 hp h
  next hp =>
    obtain ⟨hi, hk, hn⟩ := hphase
    exact advance_n0 hp hi hk hn h
  next hp =>
    obtain ⟨-, hn, -, hd⟩ := hphase
    exact advance_n1 hp hn hd h
  next hp =>
    obtain ⟨-, hn, -⟩ := hphase
    exact advance_n2 hp hn h

end other

end Sys2Proof.Machine
end

section
/-!
PROOFS of the obligations about the invariant of reachable states, and their support: the phase of a running command split
into what it says about the bus and what it says about the command, the bus trace under each rule of BUSENV, and the
invariant kept by each agent (R72, R107, R110 to R114, R119, R189, R202, R220).
-/

namespace Sys2Proof.Machine

/-! ### The phase of a running command, apart from the bus -/

/-- What the phase PH of the command `i` says about the command: the part of `State.phaseOk` that `State.busPhase` leaves. -/
def State.cmdPhase (s : State) (i : Instr) : Prop :=
  match s.ph with
  | .idle => False
  | .w0 => (s.kIdx ≠ 0 → s.pe = true) ∧ (s.kIdx = 0 ∨ ∃ n, plan s.config i s.kIdx = some (.write n))
  | .w1 | .w2 | .rd1 | .rd2 => s.pe = true
  | .w3 => s.pe = true ∧ (s.stop = true → s.dir = .write)
  | .rd0 => s.kIdx ≠ 0 → s.pe = true
  | .rd3 =>
    s.pe = true ∧ (∃ n, plan s.config i s.kIdx = some (.read n) ∧ s.pbuf.firstInvalid n = none)
      ∧ (s.stop = true → s.dir = .read)
  | .k2 => ∃ n, plan s.config i s.kIdx = some (.finish n) ∧ s.pbuf.firstInvalid n = none
  | .only => onePhase i = true
  | .t0 => s.kIdx = 0 ∧ ∃ src, i = .writeText src
  | .t1 => s.textReady i
  | .t2 c =>
    s.textReady i ∧ c ≠ 0x00#8 ∧ (i = .writeText .str → s.textPos ≤ 1)
      ∧ (∀ a, i = .writeText (.tmem a) → a.toNat + s.textPos < Config.tmemSize)
  | .n0 => s.kIdx = 0 ∧ numberWrite i = true
  | .n1 => numberWrite i = true ∧ s.uEn = true ∧ s.dbufEnds s.idx
  | .n2 c => numberWrite i = true ∧ s.uEn = true ∧ c ≠ 0x00#8 ∧ s.dbufEnds (s.idx + 1)

section phase
variable {s t : State} {i : Instr}

/-- The two parts are the whole: what `State.phaseOk` says beyond them, the bounds of the byte counts, holds of every legal
command. -/
theorem phaseOk_iff (hw : i.wf = true) : s.phaseOk i ↔ s.busPhase i ∧ s.cmdPhase i := by
  have range : ∀ {st}, plan s.config i s.kIdx = some st → 1 ≤ st.bytes ∧ st.bytes ≤ 3 := fun h =>
    plan_bytes_range hw h
  unfold State.phaseOk State.busPhase State.cmdPhase
  cases s.ph with
  | idle => simp
  | w0 =>
    constructor
    · rintro ⟨hi, hk, ⟨n, hplan, -⟩ | ⟨hk0, reg, sc, hm, hd⟩⟩
      · exact ⟨⟨hi, .inl ⟨n, hplan⟩⟩, hk, .inr ⟨n, hplan⟩⟩
      · exact ⟨⟨hi, .inr ⟨reg, sc, hm, hd⟩⟩, hk, .inl hk0⟩
    · rintro ⟨⟨hi, hbus⟩, hk, hcmd⟩
      refine ⟨hi, hk, ?_⟩
      by_cases hplan : ∃ n, plan s.config i s.kIdx = some (.write n)
      · obtain ⟨n, hplan⟩ := hplan
        exact .inl ⟨n, hplan, range hplan⟩
      · exact .inr ⟨hcmd.resolve_right hplan, hbus.resolve_left hplan⟩
  | w1 | w2 | rd1 | rd2 =>
    constructor
    · rintro ⟨hpe, n, hplan, -, hbus⟩
      exact ⟨⟨n, hplan, hbus⟩, hpe⟩
    · rintro ⟨⟨n, hplan, hbus⟩, hpe⟩
      exact ⟨hpe, n, hplan, (range hplan).2, hbus⟩
  | w3 => exact ⟨fun ⟨hpe, hplan, hbus, hd⟩ => ⟨⟨hplan, hbus⟩, hpe, hd⟩,
      fun ⟨⟨hplan, hbus⟩, hpe, hd⟩ => ⟨hpe, hplan, hbus, hd⟩⟩
  | rd0 =>
    constructor
    · rintro ⟨hi, hk, n, hplan, -⟩
      exact ⟨⟨hi, n, hplan⟩, hk⟩
    · rintro ⟨⟨hi, n, hplan⟩, hk⟩
      exact ⟨hi, hk, n, hplan, range hplan⟩
  | rd3 => exact ⟨fun ⟨hpe, ⟨n, hplan, hv⟩, hbus, hd⟩ => ⟨⟨⟨n, hplan⟩, hbus⟩, hpe, ⟨n, hplan, hv⟩, hd⟩,
      fun ⟨⟨_, hbus⟩, hpe, hplan, hd⟩ => ⟨hpe, hplan, hbus, hd⟩⟩
  | _ => exact Iff.rfl

/-- The phase of a command speaks of these elements alone, and of I2C_STOP only where it is 1. -/
theorem cmdPhase_congr (hph : t.ph = s.ph) (hk : t.kIdx = s.kIdx) (hc : t.config = s.config) (hpe : t.pe = s.pe)
    (hd : t.dir = s.dir) (hstop : t.stop = true → s.stop = true) (hpbuf : t.pbuf = s.pbuf) (hen : t.uEn = s.uEn)
    (hstr : t.str = s.str) (hpos : t.textPos = s.textPos) (hdbuf : t.dbuf = s.dbuf) (hidx : t.idx = s.idx)
    (h : s.cmdPhase i) : t.cmdPhase i := by
  unfold State.cmdPhase State.textReady State.dbufEnds at *
  rw [hph, hk, hc, hpe, hd, hpbuf, hen, hstr, hpos, hdbuf, hidx]
  generalize s.ph = ph at h ⊢
  cases ph with
  | w3 => exact ⟨h.1, fun hs => h.2 (hstop hs)⟩
  | rd3 => exact ⟨h.1, h.2.1, fun hs => h.2.2 (hstop hs)⟩
  | _ => exact h

/-- A command accepted is in its first phase (R80). -/
theorem cmdPhase_acceptInstr (s : State) (i : Instr) : (s.acceptInstr i).cmdPhase i := by
  have bus : firstPhase i = .w0 ∨ firstPhase i = .rd0 → (s.acceptInstr i).cmdPhase i := by
    have hp : (s.acceptInstr i).ph = firstPhase i := rfl
    rintro (h | h) <;> simp only [State.cmdPhase, hp, h]
    · exact ⟨fun hk => absurd rfl hk, .inl rfl⟩
    · exact fun hk => absurd rfl hk
  cases i with
  | decodeReg | scale | mkstr | uartInit | uartStart | uartStop => rfl
  | writeText src => exact ⟨rfl, src, rfl⟩
  | writeU8 | writeU16 => exact ⟨rfl, rfl⟩
  | i2cRead => exact bus (.inr rfl)
  | _ => exact bus (.inl rfl)

/-- A step of a running command leaves it in a phase of its own. -/
theorem Advance.cmdPhase (h : Advance i s t) (hs : s.cmdPhase i) (hf : t.fault = none) (hb : t.busy = true) :
    t.cmdPhase i := by
  cases h with
  | hold => exact hs
  | fault => simp at hf
  | ended _ hb' => simp [hb] at hb'
  | setUpWrite p sadd n hp he => exact he
  | setUpRead sadd n hp he => exact he
  | send b ph hph hp he =>
    obtain rfl | rfl := hph
    · exact he
    · exact he
  | take ph hph hp he =>
    obtain rfl | rfl := hph
    · exact he
    · exact he
  | stopWrite hp he hd => exact ⟨he, fun _ => hd⟩
  | stopRead hp he hd _ hv => exact ⟨he, hv, fun _ => hd⟩
  | nextK st hplan hp he hv =>
    cases st with
    | write n => exact ⟨fun _ => he, .inr ⟨n, hplan⟩⟩
    | read n => exact fun _ => he
    | finish n => exact ⟨n, hplan, hv n rfl⟩
  | startText src hi hp he hstr => exact ⟨he, src, hi, fun e => ⟨hstr e, Nat.zero_le 2⟩, fun a _ => a.isLt.le⟩
  | fetchText c hp hc hpos ha =>
    simp only [State.cmdPhase, hp] at hs
    exact ⟨hs, hc, hpos, ha⟩
  | sendChar c hp =>
    simp only [State.cmdPhase, hp] at hs
    obtain ⟨⟨he, src, rfl, hstr, -⟩, -, hpos, ha⟩ := hs
    refine ⟨he, src, rfl, fun e => ⟨(hstr e).1, Nat.succ_le_succ (hpos (by rw [e]))⟩, fun a e => ha a (by rw [e])⟩
  | format buf hn hp he hd =>
    obtain ⟨m, hm⟩ := hd
    exact ⟨hn, he, m, Nat.zero_le m, hm⟩
  | fetchDigit c hp hc hd =>
    simp only [State.cmdPhase, hp] at hs
    obtain ⟨hn, he, -⟩ := hs
    exact ⟨hn, he, hc, hd⟩
  | sendDigit c hp =>
    simp only [State.cmdPhase, hp] at hs
    obtain ⟨hn, he, -, hd⟩ := hs
    exact ⟨hn, he, hd⟩

/-- The indices of a running command stay in their ranges (R23, R176). -/
theorem Advance.index (h : Advance i s t) (hs : s.cmdPhase i) (hi : s.idx ≤ 5 ∧ s.textPos ≤ Config.tmemSize) :
    t.idx ≤ 5 ∧ t.textPos ≤ Config.tmemSize := by
  obtain ⟨hidx, hpos⟩ := hi
  cases h with
  | ended _ _ _ hidx' hpos' => rw [hidx', hpos']; exact ⟨hidx, hpos⟩
  | setUpWrite | setUpRead | format => exact ⟨Nat.zero_le 5, hpos⟩
  | startText => exact ⟨hidx, Nat.zero_le _⟩
  | send b ph hph hp he hlt => exact ⟨Nat.le_trans hlt (by decide), hpos⟩
  | take ph hph hp he hlt => exact ⟨Nat.le_trans hlt (by decide), hpos⟩
  | sendChar c hp =>
    simp only [State.cmdPhase, hp] at hs
    obtain ⟨⟨he, src, rfl, -⟩, -, hstr, ha⟩ := hs
    refine ⟨hidx, ?_⟩
    cases src with
    | tmem a => exact Nat.lt_of_le_of_lt (Nat.le_add_left _ a.toNat) (ha a rfl)
    | str => exact (Nat.succ_le_succ (hstr rfl)).trans (by decide)
  | sendDigit c hp =>
    simp only [State.cmdPhase, hp] at hs
    obtain ⟨-, -, -, m, hle, hm⟩ := hs
    exact ⟨Nat.le_of_lt_succ (hle.trans_lt (Vector.getElem?_eq_some_iff.1 hm).1), hpos⟩
  | _ => exact ⟨hidx, hpos⟩

end phase

/-! ### The invariant, put together from its parts -/

section invariant
variable {s t : State} {i : Instr}

theorem StateInv.busInv (h : StateInv s) : BusInv s where
  idle := h.idle
  running := fun hf hb => by
    obtain ⟨i, hc, hw, hphase⟩ := h.running hf hb
    exact ⟨i, hc, hw, ((phaseOk_iff hw).1 hphase).1⟩

theorem StateInv.cmdPhase (h : StateInv s) (hf : s.fault = none) (hb : s.busy = true) (hc : s.cur = some i) :
    s.cmdPhase i := by
  obtain ⟨j, hj, hw, hphase⟩ := h.running hf hb
  obtain rfl : i = j := Option.some.inj (hc.symm.trans hj)
  exact ((phaseOk_iff hw).1 hphase).2

/-- A write under way has found the console enabled. -/
theorem cmdPhase_enabled (h : s.cmdPhase i) (hp : s.ph.sending = true) : s.uEn = true := by
  unfold State.cmdPhase at h
  generalize s.ph = ph at h hp
  cases ph with
  | t1 =>
    obtain ⟨he, -⟩ := h
    exact he
  | t2 c =>
    obtain ⟨⟨he, -⟩, -⟩ := h
    exact he
  | n1 =>
    obtain ⟨-, he, -⟩ := h
    exact he
  | n2 c =>
    obtain ⟨-, he, -⟩ := h
    exact he
  | _ => cases hp

theorem StateInv.consoleInv (h : StateInv s) (hf : s.fault = none) : ConsoleInv s where
  ok := h.console
  enabled := fun hb _ hp => by
    obtain ⟨i, hc, -⟩ := h.running hf hb
    exact cmdPhase_enabled (h.cmdPhase hf hb hc) hp

theorem StateInv.of_parts (config : s.config.wf = true) (memory : s.tmem.wf = true) (console : ConsoleInv s)
    (strNul : ∀ r, s.str = some r → r.b2 = 0x00#8) (brrNonzero : ∀ d, s.brr = some d → d ≠ 0#16)
    (index : s.idx ≤ 5 ∧ s.textPos ≤ Config.tmemSize)
    (trace : busScan .idle s.busTrace = some (if s.busact then .data s.dir s.cnt.toNat else .idle)) (bus : BusInv s)
    (cmd : s.fault = none → s.busy = true → ∀ i, s.cur = some i → s.cmdPhase i) : StateInv s where
  config := config
  memory := memory
  console := console.ok
  strNul := strNul
  brrNonzero := brrNonzero
  index := index
  trace := trace
  idle := bus.idle
  running := fun hf hb => by
    obtain ⟨i, hc, hw, hphase⟩ := bus.running hf hb
    exact ⟨i, hc, hw, (phaseOk_iff hw).2 ⟨hphase, cmd hf hb i hc⟩⟩

/-- The invariant says nothing of HOST's program, the values read, the schedule and the counters. -/
theorem StateInv.scheduled (h : StateInv s) : StateInv s.scheduled := by
  unfold State.scheduled
  split <;> exact ⟨h.config, h.memory, h.console, h.strNul, h.brrNonzero, h.index, h.trace, h.idle, h.running⟩

/-! ### HOST keeps the invariant (R65 to R67, R80) -/

theorem StateInv.hostStep (h : StateInv s) (hf : s.fault = none) : StateInv (hostStep s) := by
  have bus := h.busInv.hostStep hf
  have console := (h.consoleInv hf).hostStep
  obtain e | ⟨_, e⟩ | ⟨v, ops, e⟩ | ⟨hb, _, _, _, t, ops, _, hw, e⟩ := hostStep_cases s <;> rw [e] at bus console ⊢
  · exact h
  · exact .of_parts h.config h.memory console h.strNul h.brrNonzero h.index h.trace bus (by simp)
  · exact .of_parts h.config h.memory console h.strNul h.brrNonzero h.index h.trace bus
      fun hf hb _ hc => h.cmdPhase (s := s) hf hb hc
  · obtain ⟨-, ⟨i, hd, rfl⟩ | ⟨_, rfl⟩ | ⟨_, _, _, rfl⟩ | ⟨a, ha, rfl⟩⟩ := hostWrite_ok hw
    · refine .of_parts h.config h.memory console h.strNul h.brrNonzero ⟨Nat.zero_le 5, Nat.zero_le _⟩ h.trace bus
        fun _ _ j hj => ?_
      cases hj
      exact cmdPhase_acceptInstr s i
    · exact .of_parts h.config h.memory console h.strNul h.brrNonzero h.index h.trace bus (by simp [hb])
    · exact .of_parts h.config h.memory console h.strNul h.brrNonzero h.index h.trace bus (by simp [hb])
    · exact .of_parts h.config (Memory.wf_writeWord _ _ _ ha h.memory) console h.strNul h.brrNonzero h.index h.trace bus
        (by simp [hb])

/-! ### SEQ keeps the invariant -/

/-- A command that makes STR ends it with a NUL (R139, R154). -/
theorem exec_str (h : exec i s = .next t) : t.str = s.str ∨ ∃ b0 b1, t.str = some ⟨b0, b1, 0x00#8⟩ := by
  have made : (makeStr s).str = s.str ∨ ∃ b0 b1, (makeStr s).str = some ⟨b0, b1, 0x00#8⟩ := by
    unfold makeStr
    split
    · exact .inl rfl
    · split
      · exact .inl rfl
      · exact .inr ⟨_, _, rfl⟩
  have m := exec_move h
  by_cases hi : i = .mkstr
  · subst hi
    cases h
    exact made
  by_cases hi' : i = .readMfrId
  · subst hi'
    simp only [exec, execReadMfrId] at h
    split at h
    · cases h
      exact .inl (SeqMove.str_eq (i := .sensorInit) (btdWrite_move rfl nofun rfl nofun
        fun hp hs => .nextK _ rfl nofun nofun (.inl hp) hs) nofun nofun)
    · cases h
      exact .inl (SeqMove.str_eq (i := .readCurrent) (btdRead_move rfl nofun nofun
        fun hp hs => .nextK _ rfl nofun nofun (.inr hp) hs) nofun nofun)
    · cases h
      exact made
    · cases h
      exact .inl rfl
  · exact .inl (m.str_eq hi hi')

/-- UART_INIT writes its divisor, and no other command writes BRR (R171). -/
theorem SeqMove.brr_cases (h : SeqMove i s t) : t.brr = s.brr ∨ ∃ d, i = .uartInit d ∧ t.brr = some d := by
  cases h with
  | divisor d hi => exact .inr ⟨d, hi, rfl⟩
  | _ => exact .inl rfl

/-- A command turns the direction only when it sets up a transaction (R101). -/
theorem SeqMove.dir_cases (h : SeqMove i s t) : t.dir = s.dir ∨ s.ph = .w0 ∨ s.ph = .rd0 := by
  cases h with
  | setUpWrite p sadd n hb hr hw hp => exact .inr (.inl hp)
  | setUpRead sadd n hb hr hi hp => exact .inr (.inr hp)
  | _ => exact .inl rfl

/-- A transaction is set up on an idle bus. -/
theorem busPhase_setUp (h : s.busPhase i) (hp : s.ph = .w0 ∨ s.ph = .rd0) : s.busIdle := by
  unfold State.busPhase at h
  obtain hp | hp := hp <;> rw [hp] at h <;> exact h.1

theorem StateInv.seqStep (h : StateInv s) (hf : s.fault = none) (hs : seqStep s = .next t) : StateInv t := by
  have bus := h.busInv.seqStep hf hs
  have console := (h.consoleInv hf).agentStep (a := .seq) hs
  obtain e | ⟨hb, i, hc, e⟩ := seqStep_cases s <;> rw [e] at hs
  · cases hs
    exact h
  have m := exec_move hs
  obtain ⟨hcur, hpe, hrxd, hact, hcnt, htc, htrace, hline, hhost, hreads, hconfig, -⟩ := m.frame
  obtain ⟨j, hj, hw, hphase⟩ := h.running hf hb
  obtain rfl : i = j := Option.some.inj (hc.symm.trans hj)
  have adv := exec_advance hphase h.strNul hs
  obtain ⟨hbus, hcmd⟩ := (phaseOk_iff hw).1 hphase
  refine .of_parts (hconfig ▸ h.config) (m.tmem_eq ▸ h.memory) console (fun r hr => ?_) (fun d hd => ?_)
    (adv.index hcmd h.index) ?_ bus (fun hf hb j hj => ?_)
  · obtain e | ⟨b0, b1, e⟩ := exec_str hs <;> rw [e] at hr
    · exact h.strNul r hr
    · cases hr
      rfl
  · obtain hbrr | ⟨d', rfl, hbrr⟩ := m.brr_cases <;> rw [hbrr] at hd
    · exact h.brrNonzero d hd
    · cases hd
      simpa [Instr.wf, okDivisor] using hw
  · rw [htrace, hact, hcnt, h.trace]
    obtain e | hp := m.dir_cases
    · rw [e]
    · obtain ⟨-, -, hidle, -⟩ := busPhase_setUp hbus hp
      simp [hidle]
  · obtain rfl : i = j := Option.some.inj (hc.symm.trans (hcur.symm.trans hj))
    exact adv.cmdPhase hcmd hf hb

/-! ### BUSENV keeps the invariant (R107, R110 to R114) -/

/-- A stop is requested only of an open transaction whose bytes are all transferred. -/
theorem busPhase_stop (h : s.busPhase i) (hs : s.stop = true) :
    s.busact = true ∧ 1 ≤ s.cnt.toNat ∧ s.cnt = s.nbytes := by
  have idle : ¬s.busIdle := fun ⟨_, hs', _⟩ => by simp [hs] at hs'
  have stopping : s.inStop → s.busact = true ∧ 1 ≤ s.cnt.toNat ∧ s.cnt = s.nbytes := fun h => by
    obtain ⟨-, -, hact, -, -, -, h1, hc⟩ := h.resolve_right idle
    exact ⟨hact, h1, hc⟩
  unfold State.busPhase at h
  generalize s.ph = ph at h
  cases ph with
  | w0 | rd0 => exact absurd h.1 idle
  | w1 | rd1 =>
    obtain ⟨n, -, -, -, hs', -⟩ := h
    simp [hs] at hs'
  | w2 | rd2 =>
    obtain ⟨n, -, -, -, -, hs', -⟩ := h
    simp [hs] at hs'
  | w3 | rd3 => exact stopping h.2
  | _ => exact absurd h idle

/-- A byte in I2C_TXD is one of those that the transaction still has to move. -/
theorem busPhase_txd (h : s.busPhase i) (hb : s.txd.isSome = true) : s.cnt.toNat + 1 ≤ s.nbytes.toNat := by
  have idle : ¬s.busIdle := fun ⟨_, _, _, _, _, _, htxd, _⟩ => by simp [htxd] at hb
  have stopping : ¬s.inStop := by
    rintro (⟨-, -, -, -, -, htxd, -⟩ | h)
    · simp [htxd] at hb
    · exact idle h
  unfold State.busPhase at h
  generalize s.ph = ph at h
  cases ph with
  | w0 | rd0 => exact absurd h.1 idle
  | w1 =>
    obtain ⟨n, -, -, hn, -, -, -, hlt, -, ⟨-, -, -, htxd, -⟩ | ⟨-, -, -, htxd, -⟩ | ⟨-, -, -, -, hc⟩⟩ := h
    · simp [htxd] at hb
    · simp [htxd] at hb
    · omega
  | w2 =>
    obtain ⟨n, -, -, hn, -, -, -, -, -, -, ⟨-, -, hc⟩ | ⟨-, htxd, -⟩⟩ := h
    · omega
    · simp [htxd] at hb
  | rd1 =>
    obtain ⟨n, -, -, -, -, -, htxd, -⟩ := h
    simp [htxd] at hb
  | rd2 =>
    obtain ⟨n, -, -, -, -, -, -, -, -, htxd, -⟩ := h
    simp [htxd] at hb
  | w3 | rd3 => exact absurd h.2 stopping
  | _ => exact absurd h idle

/-- The bus of a block that has not faulted is idle, or as the phase of the running command says. -/
theorem BusInv.cases (h : BusInv s) (hf : s.fault = none) : s.busIdle ∨ ∃ i, s.cur = some i ∧ s.busPhase i := by
  cases hb : s.busy with
  | false => exact .inl (h.idle hf hb)
  | true =>
    obtain ⟨i, hc, -, hphase⟩ := h.running hf hb
    exact .inr ⟨i, hc, hphase⟩

theorem BusInv.stop_open (h : BusInv s) (hf : s.fault = none) (hs : s.stop = true) :
    s.busact = true ∧ 1 ≤ s.cnt.toNat ∧ s.cnt = s.nbytes := by
  obtain ⟨-, hs', -⟩ | ⟨i, -, hphase⟩ := h.cases hf
  · simp [hs] at hs'
  · exact busPhase_stop hphase hs

theorem BusInv.txd_left (h : BusInv s) (hf : s.fault = none) (hb : s.txd.isSome = true) :
    s.cnt.toNat + 1 ≤ s.nbytes.toNat := by
  obtain ⟨-, -, -, -, -, -, htxd, -⟩ | ⟨i, -, hphase⟩ := h.cases hf
  · simp [htxd] at hb
  · exact busPhase_txd hphase hb

/-- Each rule of BUSENV moves the bus trace on by its grammar, and I2C_BUSACT, I2C_DIR and I2C_CNT say where it stands. -/
theorem busStep_trace (r : BusRule) (h : BusInv s) (hf : s.fault = none)
    (htrace : busScan .idle s.busTrace = some (if s.busact then .data s.dir s.cnt.toNat else .idle)) :
    busScan .idle (busStep r s).busTrace
      = some (if (busStep r s).busact then .data (busStep r s).dir (busStep r s).cnt.toNat else .idle) := by
  cases r with
  | eStart =>
    obtain e | ⟨-, -, hact, e⟩ := eStart_cases s <;> rw [busStep, e]
    · exact htrace
    · simp [busScan_append, htrace, hact, busScan, busNext]
  | eTx =>
    obtain e | ⟨hact, hd, b, hb, e⟩ := eTx_cases s
    · rw [busStep, e]
      exact htrace
    · have hleft := h.txd_left hf (by simp [hb])
      have hcnt : (s.cnt + 1#2).toNat = s.cnt.toNat + 1 := by bv_omega
      obtain ⟨-, e⟩ | ⟨-, e⟩ := e <;> rw [busStep, e] <;> simp [busScan_append, htrace, hact, hd, busScan, busNext, hcnt]
  | eRx =>
    obtain e | ⟨hact, hd, -, hlt, e⟩ := eRx_cases s <;> rw [busStep, e]
    · exact htrace
    · simp [busScan_append, htrace, hact, hd, busScan, busNext, toNat_add_one_of_lt hlt]
  | eStop =>
    obtain e | ⟨hs, e⟩ := eStop_cases s <;> rw [busStep, e]
    · exact htrace
    · obtain ⟨hact, h1, -⟩ := h.stop_open hf hs
      have h3 : s.cnt.toNat ≤ 3 := Nat.le_of_lt_succ s.cnt.isLt
      simp [busScan_append, htrace, hact, busScan, busNext, h1, h3]

/-- BUSENV writes no memory, and only clears I2C_STOP. -/
theorem busStep_tmem_stop (r : BusRule) (s : State) :
    (busStep r s).tmem = s.tmem ∧ ((busStep r s).stop = true → s.stop = true) := by
  cases r with
  | eStart => obtain h | ⟨_, _, _, h⟩ := eStart_cases s <;> simp [busStep, h]
  | eTx => obtain h | ⟨_, _, _, _, ⟨_, h⟩ | ⟨_, h⟩⟩ := eTx_cases s <;> simp [busStep, h]
  | eRx => obtain h | ⟨_, _, _, _, h⟩ := eRx_cases s <;> simp [busStep, h]
  | eStop => obtain h | ⟨_, h⟩ := eStop_cases s <;> simp [busStep, h]

theorem StateInv.busStep (r : BusRule) (h : StateInv s) (hf : s.fault = none) : StateInv (busStep r s) := by
  obtain ⟨hc, -, -, hhost, hseq, hboth, -⟩ := agentsWriteOnlyTheirState (.bus r) s _ rfl
  obtain ⟨hpe, -, -, -, hcur⟩ := hhost nofun
  obtain ⟨-, hd, -, -, hstr, hen, hbrr, hdbuf⟩ := hseq nofun
  obtain ⟨hb, hph, hidx, hpos, hk, hfault, hpbuf⟩ := hboth nofun nofun
  obtain ⟨htmem, hstop⟩ := busStep_tmem_stop r s
  refine .of_parts (hc ▸ h.config) (htmem ▸ h.memory) ((h.consoleInv hf).busStep r) (hstr ▸ h.strNul)
    (hbrr ▸ h.brrNonzero) (hidx ▸ hpos ▸ h.index) (busStep_trace r h.busInv hf h.trace) (h.busInv.busStep r)
    fun _ hb' i hi => ?_
  exact cmdPhase_congr hph hk hc hpe hd hstop hpbuf hen hstr hpos hdbuf hidx
    (h.cmdPhase hf (hb.symm.trans hb') (hcur.symm.trans hi))

/-! ### Every step keeps the invariant -/

theorem StateInv.lineStep (h : StateInv s) (hf : s.fault = none) : StateInv (lineStep s) := by
  have console := (h.consoleInv hf).lineStep
  have bus := h.busInv.lineStep
  obtain e | ⟨_, -, e⟩ := lineStep_cases s <;> rw [e] at console bus ⊢
  · exact h
  · exact .of_parts h.config h.memory console h.strNul h.brrNonzero h.index h.trace bus
      fun hf hb _ hc => h.cmdPhase (s := s) hf hb hc

theorem StateInv.agentStep {a : Agent} (h : StateInv s) (hf : s.fault = none) (ha : agentStep a s = .next t) :
    StateInv t := by
  cases a with
  | host => cases ha; exact h.hostStep hf
  | seq => exact h.seqStep hf ha
  | bus r => cases ha; exact h.busStep r hf
  | line => cases ha; exact h.lineStep hf

/-- A launch starts in the invariant (R220). -/
theorem stateInv_launchState (c : Config) (ops : List HostOp) (sched : List Agent) (draws : List Byte)
    (hw : c.wf = true) : StateInv (launchState c ops sched draws) :=
  .of_parts hw reset_tmem_wf (consoleInv_launchState c ops sched draws) nofun nofun ⟨Nat.zero_le 5, Nat.zero_le _⟩ rfl
    (busInv_launchState c ops sched draws) nofun

end invariant

/-! ### The obligations -/

/-- Settles O22: the rules where they are enabled and where not; the stop of a reachable state closes an open transaction. -/
theorem startAndStopSteps : Obligations.StartAndStopSteps := by
  refine ⟨fun s => ⟨fun hstart hstop hact => congrArg _ (eStart_enabled hstart hstop hact), fun h => ?_,
    fun hstop => congrArg _ (eStop_enabled hstop), fun hstop => ?_, fun t h hs ht => ?_⟩, fun s h hf hs => ?_⟩
  · refine congrArg _ (busStep_of_not_enabled .eStart ?_)
    obtain h | h | h := h <;> simp [busEnabled, h]
  · exact congrArg _ (busStep_of_not_enabled .eStop hstop)
  · obtain e | ⟨-, i, -, e⟩ := seqStep_cases s <;> rw [agentStep, e] at h
    · cases h
      simp [hs] at ht
    · obtain e | h := (exec_move h).stop_cases
      · simp [e, hs] at ht
      · exact h
  · obtain ⟨hact, h1, hc⟩ := h.busInv.stop_open hf hs
    refine ⟨hact, hc, fun h0 => ?_⟩
    simp [hc, h0] at h1

/-- Settles O23: the rules where they are enabled and where not; in RD2 all bytes are taken. -/
theorem byteSteps : Obligations.ByteSteps := by
  refine ⟨fun s => ⟨fun b hact hd hb => ⟨fun hn => congrArg _ (eTx_next hact hd hb hn),
      fun hn => congrArg _ (eTx_last hact hd hb hn)⟩, fun h => ?_,
    fun hact hd hr hn => ⟨fun b rest hdraws => congrArg _ (eRx_draws hact hd hr hn hdraws),
      fun hdraws => congrArg _ (eRx_free hact hd hr hn hdraws)⟩, fun h => ?_⟩, fun s h hf hb hp => ?_⟩
  · refine congrArg _ (busStep_of_not_enabled .eTx ?_)
    obtain h | h | h := h <;> simp [busEnabled, h]
  · refine congrArg _ (busStep_of_not_enabled .eRx ?_)
    obtain h | h | h | h := h <;> simp [busEnabled, h]
  · obtain ⟨i, -, -, hphase⟩ := h.busInv.running hf hb
    simp only [State.busPhase, hp] at hphase
    obtain ⟨n, -, -, -, -, -, -, -, -, -, ht, -⟩ := hphase
    exact ht

/-- Settles O48: each element, and each read through the map. -/
theorem resetStateIsR220 : Obligations.ResetStateIsR220 := by
  refine ⟨rfl, rfl, rfl, rfl, rfl, rfl, rfl, rfl, rfl, rfl, rfl, rfl, rfl, rfl, rfl, rfl, rfl, rfl, rfl, rfl, rfl, rfl,
    rfl, fun _ => rfl, rfl, rfl, rfl, rfl, rfl, rfl, ?_⟩
  decide

/-- Settles O49: reset is the launch of the default configuration with no program. -/
theorem launchMeetsTheInvariant : Obligations.LaunchMeetsTheInvariant :=
  ⟨stateInv_launchState Config.default [] [] [] (by decide), stateInv_launchState⟩

/-- Settles O50: a step is a step of one agent, on a block that has not faulted, and each agent keeps the invariant. -/
theorem stepKeepsTheInvariant : Obligations.StepKeepsTheInvariant := by
  intro s t h hs
  obtain ⟨-, hf, ha⟩ := step_next hs
  exact h.scheduled.agentStep ((State.scheduled_fault s).trans hf) ha

/-- Settles O52: the invariant says where the bus trace of a reachable state stands. -/
theorem reachableBusTraceIsWholeTransactions : Obligations.ReachableBusTraceIsWholeTransactions := by
  intro c ops sched draws n t hw h
  have inv : StateInv t := runSteps_invariant (P := StateInv) StateInv.scheduled StateInv.agentStep
    (stateInv_launchState c ops sched draws hw) h
  refine ⟨⟨_, inv.trace⟩, fun hb hf => ?_⟩
  obtain ⟨-, -, hact, -⟩ := inv.idle hf hb
  simpa [hact] using inv.trace

/-- Settles O56: among the steps of a running command only the raise of a listed fault, in its place, records one. -/
theorem commandFaultsAreListedAndEarly : Obligations.CommandFaultsAreListedAndEarly := by
  intro s t i r h hf hb hc hs ht
  obtain ⟨j, hj, -, hphase⟩ := h.running hf hb
  obtain rfl : i = j := Option.some.inj (hc.symm.trans hj)
  cases exec_advance hphase h.strNul hs with
  | fault code hm he =>
    cases ht
    exact ⟨hm, hc, he⟩
  | ended _ _ hf' => simp [hf', hf] at ht
  | _ => simp [hf] at ht

end Sys2Proof.Machine
end

section
/-!
PROOFS of the obligations about holds and liveness, and their support: a rank of the work that a running command has left,
which every step of it and every enabled step of the environment lowers (R108, R113, R187, R208, R234).
-/

namespace Sys2Proof.Machine

/-! ### The rank of a running command -/

/-- The work left to SEQ in its K step: at least as much as any step that leads here from there, less one. A transaction
needs a send (take) and a request for each byte, and a text or a number a fetch and a send for each character. -/
def State.phaseRank (s : State) : Nat :=
  match s.ph with
  | .w0 | .rd0 => 11
  | .w1 | .rd1 => 2 * (3 - s.idx) + 3
  | .w2 | .rd2 => 3
  | .w3 | .rd3 => 1
  | .t0 => 3 * 257 + 2
  | .t1 => 3 * (257 - s.textPos) + 1
  | .t2 _ => 3 * (257 - s.textPos)
  | .n0 => 3 * 6 + 2
  | .n1 => 3 * (6 - s.idx) + 1
  | .n2 _ => 3 * (6 - s.idx)
  | .idle | .k2 | .only => 0

/-- The work left to the running command: SEQ's in its K step and in those after it, and one for each step that an agent
of the environment is to take. -/
def State.rank (s : State) : Nat :=
  11 * (3 - s.kIdx) + s.phaseRank + s.start.toNat + s.stop.toNat + (!s.rxrdy).toNat + s.txd.isSome.toNat
    + s.uStage.isSome.toNat

section rank
variable {s t : State} {i : Instr}

/-- A command has at most four K steps (R152). -/
theorem plan_index_lt {c : Config} {k : Nat} {st : KStep} (h : plan c i k = some st) : k < 4 := by
  obtain ⟨_, _, -, rfl, -⟩ | ⟨_, _, -, rfl, -⟩ | ⟨-, hk, -⟩ | ⟨-, h⟩ | ⟨_, _, _, -, -, h⟩ := plan_cases h
  · decide
  · decide
  · exact hk
  · obtain ⟨rfl, -⟩ | ⟨rfl, -⟩ | ⟨rfl, -⟩ := h <;> decide
  · obtain ⟨rfl, -⟩ | ⟨rfl, -⟩ | ⟨rfl, -⟩ := h <;> decide

/-- A step of a running command holds, ends the command with a fault or with BUSY = 0, or lowers the rank. -/
theorem Advance.rank_lt (h : Advance i s t) (hi : s.idx ≤ 5 ∧ s.textPos ≤ Config.tmemSize) :
    t = s ∧ s.holds i ∨ t.fault ≠ none ∨ t.busy = false ∨ t.rank < s.rank := by
  have bit : ∀ b : Bool, b.toNat ≤ 1 := Bool.toNat_le
  have hidx := hi.1
  have hpos : s.textPos ≤ 256 := hi.2
  cases h with
  | hold h => exact .inl ⟨rfl, h⟩
  | fault => exact .inr (.inl (by simp))
  | ended _ hb => exact .inr (.inr (.inl hb))
  | setUpWrite p sadd n hp | setUpRead sadd n hp =>
    refine .inr (.inr (.inr ?_))
    simp only [State.rank, State.phaseRank, hp, Bool.toNat_true]
    omega
  | send b ph hph hp he hlt | take ph hph hp he hlt hr =>
    refine .inr (.inr (.inr ?_))
    obtain rfl | rfl := hph <;> simp [State.rank, State.phaseRank, *] <;> omega
  | stopWrite hp | stopRead hp =>
    refine .inr (.inr (.inr ?_))
    simp only [State.rank, State.phaseRank, hp, Bool.toNat_true]
    omega
  | nextK st hplan hp =>
    have hk := plan_index_lt hplan
    have low : s.phaseRank = 1 := by obtain hp | hp := hp <;> simp [State.phaseRank, hp]
    have high : (s.nextK st.entry).phaseRank ≤ 11 := by cases st <;> simp [State.nextK, State.phaseRank, KStep.entry]
    refine .inr (.inr (.inr ?_))
    simp only [State.rank, State.nextK, low] at high ⊢
    omega
  | startText src _ hp | format buf _ hp | fetchText c hp | fetchDigit c hp =>
    refine .inr (.inr (.inr ?_))
    simp only [State.rank, State.phaseRank, hp]
    omega
  | sendChar c hp | sendDigit c hp =>
    refine .inr (.inr (.inr ?_))
    simp only [State.rank, State.phaseRank, hp, Option.isSome_some, Bool.toNat_true]
    omega

/-- A rule of BUSENV lowers the rank where it is enabled. -/
theorem rank_busStep_lt {r : BusRule} (h : busEnabled r s = true) : (busStep r s).rank < s.rank := by
  cases r with
  | eStart =>
    simp only [busEnabled, Bool.and_eq_true, Bool.not_eq_true'] at h
    obtain ⟨⟨hstart, hstop⟩, hact⟩ := h
    simp [busStep, eStart_enabled hstart hstop hact, State.rank, State.phaseRank, hstart]
  | eTx =>
    simp only [busEnabled, Bool.and_eq_true, beq_iff_eq] at h
    obtain ⟨⟨hact, hd⟩, htxd⟩ := h
    obtain ⟨b, hb⟩ := Option.isSome_iff_exists.1 htxd
    by_cases hn : s.cnt + 1#2 < s.nbytes
    · simp [busStep, eTx_next hact hd hb hn, State.rank, State.phaseRank, hb]
    · simp [busStep, eTx_last hact hd hb hn, State.rank, State.phaseRank, hb]
  | eRx =>
    simp only [busEnabled, Bool.and_eq_true, beq_iff_eq, Bool.not_eq_true', decide_eq_true_eq] at h
    obtain ⟨⟨⟨hact, hd⟩, hr⟩, hn⟩ := h
    simp [busStep, eRx_enabled hact hd hr hn, State.rank, State.phaseRank, hr]
  | eStop =>
    have hstop : s.stop = true := h
    simp [busStep, eStop_enabled hstop, State.rank, State.phaseRank, hstop]

/-- LINEENV lowers the rank where it is enabled. -/
theorem rank_lineStep_lt (h : lineEnabled s = true) : (lineStep s).rank < s.rank := by
  obtain ⟨b, hb⟩ := Option.isSome_iff_exists.1 h
  simp [lineStep, hb, State.rank, State.phaseRank]

/-! ### The environment lifts every hold (R113, R187, R208) -/

/-- The step of an agent of the environment, BUSENV or LINEENV, is enabled. -/
def State.enables (s : State) (a : Agent) : Bool :=
  match a with
  | .bus r => busEnabled r s
  | .line => lineEnabled s
  | .host | .seq => false

/-- Where a running command holds, a step of the environment is enabled. -/
theorem exists_enables_of_holds (h : s.phaseOk i) (hc : s.consoleOk) (hh : s.holds i) :
    ∃ a : Agent, s.enables a = true := by
  have stage : s.uTxrdy = false → ∃ a : Agent, s.enables a = true := fun h => by
    obtain ⟨hready, -⟩ := hc
    rw [h] at hready
    exact ⟨.line, by simpa [State.enables, lineEnabled] using hready.symm⟩
  have stop : s.stop = true → ∃ a : Agent, s.enables a = true := fun h => ⟨.bus .eStop, h⟩
  have start : s.start = true → s.stop = false → s.busact = false → ∃ a : Agent, s.enables a = true :=
    fun h h' h'' => ⟨.bus .eStart, by simp [State.enables, busEnabled, h, h', h'']⟩
  have send : s.busact = true → s.dir = .write → s.txd.isSome = true → ∃ a : Agent, s.enables a = true :=
    fun h h' h'' => ⟨.bus .eTx, by simp [State.enables, busEnabled, h, h', h'']⟩
  unfold State.holds at hh
  unfold State.phaseOk at h
  generalize s.ph = ph at h hh
  cases ph with
  | w1 =>
    obtain ⟨hr, -⟩ := hh
    obtain ⟨-, n, -, -, hd, -, hstop, -, -, -, -, ⟨hs, ha, -⟩ | ⟨-, -, hr', -⟩ | ⟨-, ha, -, hb, -⟩⟩ := h
    · exact start hs hstop ha
    · simp [hr] at hr'
    · exact send ha hd hb
  | w2 =>
    obtain ⟨ht, -⟩ := hh
    obtain ⟨-, n, -, -, hd, -, -, -, ha, -, -, -, ⟨-, hb, -⟩ | ⟨ht', -⟩⟩ := h
    · exact send ha hd hb
    · simp [ht] at ht'
  | rd1 =>
    obtain ⟨hr, -⟩ := hh
    obtain ⟨-, n, -, -, hd, hn, hstop, -, -, hlt, -, ⟨hs, ha, -⟩ | ⟨-, ha, -, -, hcnt⟩ | ⟨-, -, hr', -⟩⟩ := h
    · exact start hs hstop ha
    · exact ⟨.bus .eRx, by simp [State.enables, busEnabled, ha, hd, hr, BitVec.lt_def, hcnt, hn, hlt]⟩
    · simp [hr] at hr'
  | rd2 =>
    obtain ⟨ht, -⟩ := hh
    obtain ⟨-, n, -, -, -, -, -, -, -, -, -, -, ht', -⟩ := h
    simp [ht] at ht'
  | w3 | rd3 => exact stop hh.1
  | t2 c | n2 c => exact stage hh.1
  | only => exact stage (hc.2.1 ▸ hh.1)
  | _ => exact hh.elim

/-! ### Steps that leave the block as it is -/

/-- What the rank, the holds and the enabled steps are about: the state without HOST's program, the values read and the
schedule. -/
def State.block (s : State) : State := { s with host := [], hostReads := [], sched := [], tick := 0 }

@[simp] theorem State.scheduled_block (s : State) : s.scheduled.block = s.block := by
  unfold State.scheduled
  split <;> rfl

theorem rank_eq_of_block (h : t.block = s.block) : t.rank = s.rank :=
  (congrArg State.rank h : t.block.rank = s.block.rank)

theorem enables_eq_of_block (h : t.block = s.block) (a : Agent) : t.enables a = s.enables a := by
  have own : ∀ s : State, s.block.enables a = s.enables a := fun s => by
    cases a with
    | bus r => cases r <;> rfl
    | _ => rfl
  rw [← own t, h, own]

/-- A step of a running command that goes on lowers the rank, or leaves the block as it is: then SEQ holds, if it is SEQ's
step, and the step was not enabled, if it is the environment's. -/
theorem agentStep_rank {a : Agent} (h : StateInv s) (hf : s.fault = none) (hb : s.busy = true)
    (ha : agentStep a s = .next t) (hf' : t.fault = none) (hb' : t.busy = true) :
    t.rank < s.rank
      ∨ t.block = s.block ∧ s.enables a = false ∧ (a = .seq → ∃ i, s.cur = some i ∧ s.holds i) := by
  cases a with
  | host =>
    cases ha
    obtain e | ⟨code, e⟩ | ⟨ops, e⟩ := hostStep_busy_cases hb <;> rw [e] at hf' ⊢
    · exact .inr ⟨rfl, rfl, nofun⟩
    · simp at hf'
    · exact .inr ⟨rfl, rfl, nofun⟩
  | seq =>
    obtain ⟨i, hc, hw, hphase⟩ := h.running hf hb
    rw [agentStep, seqStep_running hb hc] at ha
    obtain ⟨rfl, hh⟩ | hfault | hidle | hlt := (exec_advance hphase h.strNul ha).rank_lt h.index
    · exact .inr ⟨rfl, rfl, fun _ => ⟨i, hc, hh⟩⟩
    · exact absurd hf' hfault
    · simp [hb'] at hidle
    · exact .inl hlt
  | bus r =>
    cases ha
    cases he : busEnabled r s with
    | true => exact .inl (rank_busStep_lt he)
    | false => exact .inr ⟨by rw [busStep_of_not_enabled r he], he, nofun⟩
  | line =>
    cases ha
    cases he : lineEnabled s with
    | true => exact .inl (rank_lineStep_lt he)
    | false =>
      obtain e | ⟨b, hs, -⟩ := lineStep_cases s
      · exact .inr ⟨by rw [e], he, nofun⟩
      · simp [lineEnabled, hs] at he

end rank

/-! ### Fair runs -/

section fair
variable {run : Nat → State} {n : Nat}

/-- No state of a run has faulted, and each meets the invariant if the first does. -/
theorem IsRun.stateInv (hrun : IsRun run) (h : StateInv (run 0)) (m : Nat) : StateInv (run m) := by
  induction m with
  | zero => exact h
  | succ m ih => exact stepKeepsTheInvariant _ _ ih (hrun m)

/-- A step of a run while BUSY = 1 lowers the rank, or leaves the block as it is and lets the mover rest. -/
theorem IsRun.rank_step (hrun : IsRun run) (h : StateInv (run 0)) {m : Nat} (hb : (run m).busy = true)
    (hb' : (run (m + 1)).busy = true) :
    (run (m + 1)).rank < (run m).rank
      ∨ (run (m + 1)).block = (run m).block ∧ (run m).enables (run m).mover = false
        ∧ ((run m).mover = .seq → ∃ i, (run m).cur = some i ∧ (run m).holds i) := by
  obtain ⟨-, hf, ha⟩ := step_next (hrun m)
  obtain ⟨-, hf', -⟩ := step_next (hrun (m + 1))
  have hblock := State.scheduled_block (run m)
  obtain hlt | ⟨hsame, he, hseq⟩ := agentStep_rank (hrun.stateInv h m).scheduled (by simpa using hf) (by simpa using hb)
    ha hf' hb'
  · exact .inl (rank_eq_of_block hblock ▸ hlt)
  · refine .inr ⟨hsame.trans hblock, enables_eq_of_block hblock _ ▸ he, fun hm => ?_⟩
    obtain ⟨i, hc, hh⟩ := hseq hm
    exact ⟨i, by simpa using hc, by simpa [State.holds] using hh⟩

/-- In a fair run the rank falls while BUSY = 1: else the block stays as it is, SEQ comes to move and holds, and the step of
the environment that lifts the hold stays enabled until it is taken. -/
theorem exists_rank_lt (hrun : IsRun run) (h : StateInv (run 0)) (seq : SeqFair run) (bus : BusFair run)
    (line : LineFair run) (hb : ∀ m, n ≤ m → (run m).busy = true) : ∃ m, n ≤ m ∧ (run m).rank < (run n).rank := by
  by_contra! hrank
  have step := fun m (hm : n ≤ m) => hrun.rank_step h (hb m hm) (hb (m + 1) (Nat.le_succ_of_le hm))
  have same : ∀ m, n ≤ m → (run m).block = (run n).block := by
    intro m hm
    induction m, hm using Nat.le_induction with
    | base => rfl
    | succ m hm ih =>
      obtain hlt | ⟨hsame, -⟩ := step m hm
      · exact absurd (rank_eq_of_block ih ▸ hlt) (hrank _ (Nat.le_succ_of_le hm)).not_gt
      · exact hsame.trans ih
  have rests := fun m (hm : n ≤ m) => (step m hm).resolve_left
    (rank_eq_of_block ((same (m + 1) (Nat.le_succ_of_le hm)).trans (same m hm).symm) ▸ lt_irrefl _)
  obtain ⟨m, hm, hmover⟩ := seq n hb
  obtain ⟨-, -, hseq⟩ := rests m hm
  obtain ⟨i, hc, hh⟩ := hseq hmover
  have inv := hrun.stateInv h m
  obtain ⟨-, hf, -⟩ := step_next (hrun m)
  obtain ⟨j, hj, -, hphase⟩ := inv.running hf (hb m hm)
  obtain rfl : i = j := Option.some.inj (hc.symm.trans hj)
  obtain ⟨a, ha⟩ := exists_enables_of_holds hphase inv.console hh
  have stays : ∀ k, n ≤ k → (run k).enables a = true := fun k hk =>
    (enables_eq_of_block ((same k hk).trans (same m hm).symm) a).trans ha
  obtain ⟨k, hk, hmoves⟩ : ∃ k, n ≤ k ∧ (run k).mover = a := by
    cases a with
    | bus r => exact bus r n stays
    | line => exact line n stays
    | host | seq => simp [State.enables] at ha
  obtain ⟨-, he, -⟩ := rests k hk
  simp [hmoves, stays k hk] at he

/-- In a fair run BUSY = 1 does not last, for the rank does not fall for ever. -/
theorem not_busy_forever (hrun : IsRun run) (h : StateInv (run 0)) (seq : SeqFair run) (bus : BusFair run)
    (line : LineFair run) : ¬∀ m, n ≤ m → (run m).busy = true := by
  induction hr : (run n).rank using Nat.strong_induction_on generalizing n with
  | _ r ih =>
    intro hb
    obtain ⟨m, hm, hlt⟩ := exists_rank_lt hrun h seq bus line hb
    exact ih _ (hr ▸ hlt) rfl fun k hk => hb k (hm.trans hk)

end fair

/-! ### The obligations -/

/-- Settles O57: a step of the running command that is no hold ends the command or lowers its rank, so it is not the same
state; of HOST's operations only a WAITIDLE at BUSY = 1 leaves itself to do. -/
theorem holdPointsAreTheListedOnes : Obligations.HoldPointsAreTheListedOnes := by
  refine ⟨fun s i h hf hb hc => ⟨⟨fun he => ?_, exec_of_holds⟩, ⟨fun hs => ?_, fun hh => ⟨hf, hb, i, hc, hh⟩⟩⟩,
    fun s hf hne => ?_⟩
  · obtain ⟨j, hj, -, hphase⟩ := h.running hf hb
    obtain rfl : i = j := Option.some.inj (hc.symm.trans hj)
    obtain ⟨-, hh⟩ | hfault | hidle | hlt := (exec_advance hphase h.strNul he).rank_lt h.index
    · exact hh
    · exact absurd hf hfault
    · simp [hb] at hidle
    · exact absurd hlt (lt_irrefl _)
  · obtain ⟨-, -, j, hj, hh⟩ := hs
    obtain rfl : i = j := Option.some.inj (hc.symm.trans hj)
    exact hh
  · obtain ⟨op, ops, hh⟩ := List.exists_cons_of_ne_nil hne
    unfold State.hostWaits
    cases op with
    | read width off =>
      cases hr : hostRead s width off with
      | error f => simp [hostStep_read_error hh hr, hh]
      | ok v => simp [hostStep_read_ok hh hr, hh]
    | write width off v =>
      cases hw : hostWrite s width off v with
      | error f => simp [hostStep_write_error hh hw, hh]
      | ok t => simp [hostStep_write_ok hh hw, hh]
    | waitIdle => cases hb : s.busy <;> simp [hostStep_waitIdle hh, hh, hf, hb]

/-- Settles O59: the rank of a running command falls as long as BUSY = 1, and a run that hangs has BUSY = 1 for ever. -/
theorem fairRunsFinishEveryCommand : Obligations.FairRunsFinishEveryCommand := by
  intro run hrun h seq bus line
  refine ⟨fun n _ => ?_, fun hang => ?_⟩
  · by_contra! hb
    exact not_busy_forever hrun h seq bus line fun m hm => by simpa using hb m hm
  · obtain ⟨n, hb⟩ := busy_of_hangs hang
    exact not_busy_forever hrun h seq bus line hb

end Sys2Proof.Machine
end

section
/-!
PROOFS of the obligations about whole bus commands, and their support: runs under a schedule put together from those of its
parts, a whole write transaction and a whole read transaction, and the commands as runs of these (R102 to R107, R151 to
R161).
-/

namespace Sys2Proof.Machine

/-! ### Runs under a schedule -/

/-- The agents of the schedule `l` move `s` to `t`, and use up `l` alone. -/
def Runs (l : List Agent) (s t : State) : Prop :=
  ∀ rest, runSteps l.length { s with sched := l ++ rest } = .next { t with sched := rest }

/-- The command `i` runs, on a block that is well configured and has not faulted. -/
def State.runs (s : State) (i : Instr) : Prop :=
  s.config.wf = true ∧ s.fault = none ∧ s.busy = true ∧ s.cur = some i

section runs
variable {s t u : State} {l m : List Agent} {i : Instr}

theorem runSteps_add {a b : Nat} (h : runSteps a s = .next t) : runSteps (a + b) s = runSteps b t := by
  induction a generalizing s with
  | zero =>
    cases h
    rw [Nat.zero_add]
  | succ a ih =>
    rw [Nat.add_right_comm, runSteps]
    rw [runSteps] at h
    split at h
    · exact ih h
    · cases h
    · cases h

theorem Runs.refl (s : State) : Runs [] s s := fun _ => rfl

theorem Runs.append (h : Runs l s t) (h' : Runs m t u) : Runs (l ++ m) s u := fun rest => by
  rw [List.length_append, List.append_assoc, runSteps_add (h (m ++ rest))]
  exact h' rest

theorem Runs.cons {a : Agent} (h : Runs [a] s t) (h' : Runs m t u) : Runs (a :: m) s u := h.append h'

theorem Runs.runSteps_eq (h : Runs l s t) {rest : List Agent} (hs : s.sched = l ++ rest) :
    runSteps l.length s = .next { t with sched := rest } := by
  have := h rest
  rwa [← hs] at this

/-- One step of the agent that moves. -/
theorem Runs.agent {a : Agent} (hs : s.runs i)
    (h : ∀ rest, agentStep a { s with sched := rest } = .next { t with sched := rest }) : Runs [a] s t := fun rest => by
  obtain ⟨hw, hf, -⟩ := hs
  exact runSteps_next ((step_scheduled (s := { s with sched := a :: rest }) hw hf rfl).trans (h rest))

/-- One step of the running command. -/
theorem Runs.seq (hs : s.runs i) (h : ∀ rest, exec i { s with sched := rest } = .next { t with sched := rest }) :
    Runs [.seq] s t :=
  .agent hs fun rest => by
    obtain ⟨-, -, hb, hc⟩ := hs
    exact (seqStep_running (s := { s with sched := rest }) hb hc).trans (h rest)

/-- One step of BUSENV. -/
theorem Runs.bus {r : BusRule} (hs : s.runs i)
    (h : ∀ rest, busStep r { s with sched := rest } = { t with sched := rest }) : Runs [.bus r] s t :=
  .agent hs fun rest => congrArg _ (h rest)

theorem Runs.of_eq (h : Runs l s t) (e : t = u) : Runs l s u := e ▸ h

/-- A block of steps repeated for each byte of a list. -/
theorem Runs.forEach {block : List Agent} {f : List Byte → State} {bytes : List Byte}
    (h : ∀ sent b rest, bytes = sent ++ b :: rest → Runs block (f sent) (f (sent ++ [b]))) :
    Runs (List.replicate bytes.length block).flatten (f []) (f bytes) := by
  suffices ∀ rest sent, bytes = sent ++ rest → Runs (List.replicate rest.length block).flatten (f sent) (f bytes) from
    this bytes [] rfl
  intro rest
  induction rest with
  | nil =>
    intro sent e
    rw [List.append_nil] at e
    exact e ▸ .refl _
  | cons b rest ih =>
    intro sent e
    exact (h sent b rest e).append (ih (sent ++ [b]) (by simp [e]))

end runs

/-! ### The steps of BUSENV, where they are enabled (R110 to R114) -/

section busenv
variable {s : State} {i : Instr}

theorem runs_eStart (hs : s.runs i) (hstart : s.start = true) (hstop : s.stop = false) (hact : s.busact = false) :
    Runs [.bus .eStart] s
      { s with busTrace := s.busTrace ++ [.start, .addr s.sadd s.dir], busact := true, start := false, cnt := 0#2,
               txrdy := if s.dir = .write then true else s.txrdy } :=
  .bus hs fun rest => eStart_enabled (s := { s with sched := rest }) hstart hstop hact

theorem runs_eTx_next {b : Byte} (hs : s.runs i) (hact : s.busact = true) (hd : s.dir = .write) (hb : s.txd = some b)
    (hn : s.cnt + 1#2 < s.nbytes) :
    Runs [.bus .eTx] s
      { s with busTrace := s.busTrace ++ [.wr b], txd := none, cnt := s.cnt + 1#2, txrdy := true } :=
  .bus hs fun rest => eTx_next (s := { s with sched := rest }) hact hd hb hn

theorem runs_eTx_last {b : Byte} (hs : s.runs i) (hact : s.busact = true) (hd : s.dir = .write) (hb : s.txd = some b)
    (hn : ¬s.cnt + 1#2 < s.nbytes) :
    Runs [.bus .eTx] s { s with busTrace := s.busTrace ++ [.wr b], txd := none, cnt := s.cnt + 1#2, tc := true } :=
  .bus hs fun rest => eTx_last (s := { s with sched := rest }) hact hd hb hn

theorem runs_eRx {b : Byte} {more : List Byte} (hs : s.runs i) (hact : s.busact = true) (hd : s.dir = .read)
    (hr : s.rxrdy = false) (hn : s.cnt < s.nbytes) (hdraws : s.draws = b :: more) :
    Runs [.bus .eRx] s
      { s with draws := more, busTrace := s.busTrace ++ [.rd b], rxd := b, rxrdy := true, cnt := s.cnt + 1#2,
               tc := if s.cnt + 1#2 = s.nbytes then true else s.tc } :=
  .bus hs fun rest => eRx_draws (s := { s with sched := rest }) hact hd hr hn hdraws

theorem runs_eStop (hs : s.runs i) (hstop : s.stop = true) :
    Runs [.bus .eStop] s
      { s with busTrace := s.busTrace ++ [.stop], stop := false, tc := false, busact := false, txrdy := false,
               cnt := 0#2 } :=
  .bus hs fun rest => eStop_enabled (s := { s with sched := rest }) hstop

end busenv

/-! ### A whole write transaction (R102, R107) -/

/-- In the K step of `s` the command `i` writes `n` bytes to the slave `sadd`: W0 loads PBUF by `load`, and `fin` is what
follows W3. -/
def State.writesIn (s : State) (i : Instr) (load : Pbuf → Pbuf) (sadd : BitVec 7) (n : Nat) (fin : State → State) : Prop :=
  ∀ t : State, t.kIdx = s.kIdx → t.config = s.config →
    exec i t = .next (btdWrite (fun t => { t with pbuf := load t.pbuf }) sadd n fin t)

/-- The state in a write of `n` bytes from the idle bus of `s`, with the bytes `sent` on the bus and none in I2C_TXD. -/
def State.sending (s : State) (sadd : BitVec 7) (n : Nat) (sent : List Byte) : State :=
  { s with sadd := sadd, dir := .write, nbytes := BitVec.ofNat 2 n, start := false, busact := true, txd := none,
           txrdy := decide (sent.length < n), tc := decide (n ≤ sent.length), cnt := BitVec.ofNat 2 sent.length,
           idx := sent.length, ph := if sent.length < n then .w1 else .w2,
           busTrace := s.busTrace ++ [.start, .addr sadd .write] ++ sent.map BusEvent.wr }

/-- The state after a write of `bytes` from the idle bus of `s`, in W3. -/
def State.written (s : State) (sadd : BitVec 7) (bytes : List Byte) : State :=
  { s with sadd := sadd, dir := .write, nbytes := BitVec.ofNat 2 bytes.length, idx := bytes.length, ph := .w3,
           busTrace := s.busTrace ++ writeEvents sadd bytes }

section write
variable {s : State} {i : Instr} {load : Pbuf → Pbuf} {sadd : BitVec 7} {n : Nat} {fin : State → State}
  {sent bytes : List Byte} {b : Byte}

/-- The count after one more byte is below `n` exactly if its index is (R111). -/
theorem ofNat_succ_lt {k : Nat} (hk : k < n) (hn : n ≤ 3) : BitVec.ofNat 2 k + 1#2 < BitVec.ofNat 2 n ↔ k + 1 < n := by
  simp only [BitVec.lt_def, BitVec.toNat_add, BitVec.toNat_ofNat]
  omega

/-- A step of a K step that writes is a step of BTD_WRITE. -/
theorem Runs.btdWrite {t : State} (hs : s.runs i) (hw : s.writesIn i load sadd n fin)
    (h : ∀ rest, btdWrite (fun t => { t with pbuf := load t.pbuf }) sadd n fin { s with sched := rest }
      = { t with sched := rest }) : Runs [.seq] s t :=
  .seq hs fun rest => (hw { s with sched := rest } rfl rfl).trans (congrArg _ (h rest))

theorem runs_w0 (hs : s.runs i) (hw : s.writesIn i load sadd n fin) (hp : s.ph = .w0) (hpe : s.pe = true)
    (hv : (load s.pbuf).firstInvalid n = none) :
    Runs [.seq] s { s with pbuf := load s.pbuf, sadd := sadd, dir := .write, nbytes := BitVec.ofNat 2 n, start := true,
                           idx := 0, ph := .w1 } :=
  .btdWrite hs hw fun rest => btdWrite_setUp (s := { s with sched := rest }) hp hpe hv

theorem runs_w1 (hs : s.runs i) (hw : s.writesIn i load sadd n fin) (hp : s.ph = .w1) (hlt : s.idx < n)
    (hr : s.txrdy = true) (hb : s.pbuf.get s.idx = some b) :
    Runs [.seq] s { s with txd := some b, txrdy := false, idx := s.idx + 1, ph := if s.idx + 1 < n then .w1 else .w2 } :=
  .btdWrite hs hw fun rest => btdWrite_sends (s := { s with sched := rest }) hp hlt hr hb

theorem runs_w2 (hs : s.runs i) (hw : s.writesIn i load sadd n fin) (hp : s.ph = .w2) (ht : s.tc = true) :
    Runs [.seq] s { s with stop := true, ph := .w3 } :=
  .btdWrite hs hw fun rest => btdWrite_requestsStop (s := { s with sched := rest }) hp ht

theorem runs_w3 (hs : s.runs i) (hw : s.writesIn i load sadd n fin) (hp : s.ph = .w3) (hstop : s.stop = false)
    (hfin : ∀ t rest, fin { t with sched := rest } = { fin t with sched := rest }) : Runs [.seq] s (fin s) :=
  .btdWrite hs hw fun rest => (btdWrite_goesOn (s := { s with sched := rest }) hp hstop).trans (hfin s rest)

/-- W0 and E_START open the transaction. -/
theorem runs_openWrite (hs : s.runs i) (hw : s.writesIn i load sadd n fin) (hp : s.ph = .w0) (hpe : s.pe = true)
    (hidle : s.busIdle) (hv : (load s.pbuf).firstInvalid n = none) (hn : 0 < n) :
    Runs [.seq, .bus .eStart] s ({ s with pbuf := load s.pbuf }.sending sadd n []) := by
  obtain ⟨-, hstop, hact, -, -, htc, htxd, -⟩ := hidle
  refine (runs_w0 hs hw hp hpe hv).cons (.of_eq (runs_eStart hs rfl hstop hact) ?_)
  simp [State.sending, hn, hn.ne', htc, htxd]

/-- W1 and E_TX send a byte. -/
theorem runs_sendByte (hs : s.runs i) (hw : s.writesIn i load sadd n fin) (hlt : sent.length < n) (hn : n ≤ 3)
    (hb : s.pbuf.get sent.length = some b) :
    Runs [.seq, .bus .eTx] (s.sending sadd n sent) (s.sending sadd n (sent ++ [b])) := by
  refine (runs_w1 (s := s.sending sadd n sent) hs hw (if_pos hlt) hlt (decide_eq_true hlt) hb).cons ?_
  have last := ofNat_succ_lt hlt hn
  by_cases hlast : sent.length + 1 < n
  · refine .of_eq (runs_eTx_next hs rfl rfl rfl (last.2 hlast)) ?_
    simp [State.sending, hlast, Nat.not_le.2 hlt, Nat.not_le.2 hlast, BitVec.ofNat_add]
  · refine .of_eq (runs_eTx_last hs rfl rfl rfl (mt last.1 hlast)) ?_
    simp [State.sending, hlast, Nat.le_of_not_lt hlast, BitVec.ofNat_add]

/-- W2, E_STOP and W3 close the transaction. -/
theorem runs_closeWrite (hs : s.runs i) (hw : s.writesIn i load sadd bytes.length fin) (hidle : s.busIdle)
    (hfin : ∀ t rest, fin { t with sched := rest } = { fin t with sched := rest }) :
    Runs [.seq, .bus .eStop, .seq] (s.sending sadd bytes.length bytes) (fin (s.written sadd bytes)) := by
  obtain ⟨hstart, hstop, hact, htx, -, htc, htxd, hcnt⟩ := hidle
  refine (runs_w2 (s := s.sending sadd bytes.length bytes) hs hw (if_neg (lt_irrefl _)) (by simp [State.sending])).cons
    (.cons (.of_eq (runs_eStop hs rfl) ?_) (runs_w3 hs hw rfl hstop hfin))
  simp [State.sending, State.written, writeEvents, hstart, hstop, hact, htx, htc, htxd, hcnt]

/-- A whole write transaction on an idle bus. -/
theorem runs_write (hs : s.runs i) (hw : s.writesIn i load sadd bytes.length fin) (hp : s.ph = .w0) (hpe : s.pe = true)
    (hidle : s.busIdle) (hpos : 0 < bytes.length) (hle : bytes.length ≤ 3)
    (hbytes : ∀ (k : Nat) (b : Byte), bytes[k]? = some b → (load s.pbuf).get k = some b)
    (hfin : ∀ t rest, fin { t with sched := rest } = { fin t with sched := rest }) :
    Runs (writeSched bytes.length) s (fin ({ s with pbuf := load s.pbuf }.written sadd bytes)) := by
  have valid : (load s.pbuf).firstInvalid bytes.length = none := Pbuf.firstInvalid_none.2 fun k hk => by
    rw [hbytes k _ (List.getElem?_eq_getElem hk)]
    rfl
  refine ((runs_openWrite hs hw hp hpe hidle valid hpos).append (.forEach fun sent b rest e => ?_)).append
    (runs_closeWrite hs hw hidle hfin)
  exact runs_sendByte hs hw (by simp [e]) hle (hbytes _ _ (by simp [e]))

end write

/-! ### A whole read transaction (R104, R107) -/

/-- In the K step of `s` the command `i` reads `n` bytes from the slave `sadd`, and `fin` is what follows RD3. -/
def State.readsIn (s : State) (i : Instr) (sadd : BitVec 7) (n : Nat) (fin : State → State) : Prop :=
  ∀ t : State, t.kIdx = s.kIdx → t.config = s.config → exec i t = .next (btdRead sadd n fin t)

/-- PBUF with `bytes` in it from index 0 on. -/
def Pbuf.fill (p : Pbuf) (bytes : List Byte) : Pbuf := ⟨bytes[0]?.or p.b0, bytes[1]?.or p.b1, bytes[2]?.or p.b2⟩

/-- The state in a read of `n` bytes from the idle bus of `s`, with the bytes `got` taken and none in I2C_RXD. -/
def State.receiving (s : State) (sadd : BitVec 7) (n : Nat) (got : List Byte) : State :=
  { s with sadd := sadd, dir := .read, nbytes := BitVec.ofNat 2 n, start := false, busact := true, rxrdy := false,
           tc := decide (n ≤ got.length), cnt := BitVec.ofNat 2 got.length, idx := got.length,
           ph := if got.length < n then .rd1 else .rd2, pbuf := s.pbuf.fill got, rxd := got.getLastD s.rxd,
           draws := s.draws.drop got.length,
           busTrace := s.busTrace ++ [.start, .addr sadd .read] ++ got.map BusEvent.rd }

/-- The state after a read of `bytes` from the idle bus of `s`, in RD3. -/
def State.received (s : State) (sadd : BitVec 7) (bytes : List Byte) : State :=
  { s with sadd := sadd, dir := .read, nbytes := BitVec.ofNat 2 bytes.length, idx := bytes.length, ph := .rd3,
           pbuf := s.pbuf.fill bytes, rxd := bytes.getLastD s.rxd, draws := s.draws.drop bytes.length,
           busTrace := s.busTrace ++ readEvents sadd bytes }

section read
variable {s : State} {i : Instr} {sadd : BitVec 7} {n : Nat} {fin : State → State} {got bytes : List Byte} {b : Byte}

theorem Pbuf.get_fill (p : Pbuf) (bytes : List Byte) {k : Nat} (hk : k < 3) :
    (p.fill bytes).get k = bytes[k]?.or (p.get k) := by
  have hc : k = 0 ∨ k = 1 ∨ k = 2 := by omega
  rcases hc with rfl | rfl | rfl <;> rfl

/-- The bytes filled in are there. -/
theorem Pbuf.get_fill_of_getElem? (p : Pbuf) (hle : bytes.length ≤ 3) {k : Nat} (h : bytes[k]? = some b) :
    (p.fill bytes).get k = some b := by
  obtain ⟨hk, -⟩ := List.getElem?_eq_some_iff.1 h
  rw [Pbuf.get_fill p bytes (by omega), h, Option.some_or]

/-- The bytes past those filled in are as they were. -/
theorem Pbuf.get_fill_of_le (p : Pbuf) {k : Nat} (h : bytes.length ≤ k) : (p.fill bytes).get k = p.get k := by
  by_cases hk : k < 3
  · rw [Pbuf.get_fill p bytes hk, List.getElem?_eq_none h, Option.none_or]
  · obtain ⟨m, rfl⟩ := Nat.exists_eq_add_of_le (Nat.le_of_not_lt hk)
    rw [Nat.add_comm]
    rfl

/-- The next byte filled in. -/
theorem Pbuf.set_fill (p : Pbuf) (h : got.length < 3) : (p.fill got).set got.length b = p.fill (got ++ [b]) := by
  match got, h with
  | [], _ => rfl
  | [_], _ => rfl
  | [_, _], _ => rfl

/-- A step of a K step that reads is a step of BTD_READ. -/
theorem Runs.btdRead {t : State} (hs : s.runs i) (hr : s.readsIn i sadd n fin)
    (h : ∀ rest, btdRead sadd n fin { s with sched := rest } = { t with sched := rest }) : Runs [.seq] s t :=
  .seq hs fun rest => (hr { s with sched := rest } rfl rfl).trans (congrArg _ (h rest))

theorem runs_rd0 (hs : s.runs i) (hr : s.readsIn i sadd n fin) (hp : s.ph = .rd0) (hpe : s.pe = true) :
    Runs [.seq] s { s with sadd := sadd, dir := .read, nbytes := BitVec.ofNat 2 n, start := true, idx := 0, ph := .rd1 } :=
  .btdRead hs hr fun rest => btdRead_setUp (s := { s with sched := rest }) hp hpe

theorem runs_rd1 (hs : s.runs i) (hr : s.readsIn i sadd n fin) (hp : s.ph = .rd1) (hlt : s.idx < n)
    (hrx : s.rxrdy = true) :
    Runs [.seq] s { s with pbuf := s.pbuf.set s.idx s.rxd, rxrdy := false, idx := s.idx + 1,
                           ph := if s.idx + 1 < n then .rd1 else .rd2 } :=
  .btdRead hs hr fun rest => btdRead_takes (s := { s with sched := rest }) hp hlt hrx

theorem runs_rd2 (hs : s.runs i) (hr : s.readsIn i sadd n fin) (hp : s.ph = .rd2) (ht : s.tc = true) :
    Runs [.seq] s { s with stop := true, ph := .rd3 } :=
  .btdRead hs hr fun rest => btdRead_requestsStop (s := { s with sched := rest }) hp ht

theorem runs_rd3 (hs : s.runs i) (hr : s.readsIn i sadd n fin) (hp : s.ph = .rd3) (hstop : s.stop = false)
    (hfin : ∀ t rest, fin { t with sched := rest } = { fin t with sched := rest }) : Runs [.seq] s (fin s) :=
  .btdRead hs hr fun rest => (btdRead_goesOn (s := { s with sched := rest }) hp hstop).trans (hfin s rest)

/-- RD0 and E_START open the transaction. -/
theorem runs_openRead (hs : s.runs i) (hr : s.readsIn i sadd n fin) (hp : s.ph = .rd0) (hpe : s.pe = true)
    (hidle : s.busIdle) (hn : 0 < n) : Runs [.seq, .bus .eStart] s (s.receiving sadd n []) := by
  obtain ⟨-, hstop, hact, -, hrx, htc, -⟩ := hidle
  refine (runs_rd0 hs hr hp hpe).cons (.of_eq (runs_eStart hs rfl hstop hact) ?_)
  simp [State.receiving, Pbuf.fill, hn, hn.ne', htc, hrx]

/-- E_RX and RD1 take a byte. -/
theorem runs_takeByte (hs : s.runs i) (hr : s.readsIn i sadd n fin) (hlt : got.length < n) (hn : n ≤ 3)
    {more : List Byte} (hd : s.draws = got ++ b :: more) :
    Runs [.bus .eRx, .seq] (s.receiving sadd n got) (s.receiving sadd n (got ++ [b])) := by
  have count : BitVec.ofNat 2 got.length < BitVec.ofNat 2 n := by
    simp only [BitVec.lt_def, BitVec.toNat_ofNat]
    omega
  have last : BitVec.ofNat 2 got.length + 1#2 = BitVec.ofNat 2 n ↔ n ≤ got.length + 1 := by
    simp only [← BitVec.toNat_inj, BitVec.toNat_add, BitVec.toNat_ofNat]
    omega
  have draws : s.draws.drop got.length = b :: more := by simp [hd]
  refine (runs_eRx (s := s.receiving sadd n got) hs rfl rfl rfl count draws).cons
    (.of_eq (runs_rd1 hs hr (if_pos hlt) hlt rfl) ?_)
  simp [State.receiving, Pbuf.set_fill, hlt, hlt.trans_le hn, hd, last, BitVec.ofNat_add]

/-- RD2, E_STOP and RD3 close the transaction. -/
theorem runs_closeRead (hs : s.runs i) (hr : s.readsIn i sadd bytes.length fin) (hidle : s.busIdle)
    (hfin : ∀ t rest, fin { t with sched := rest } = { fin t with sched := rest }) :
    Runs [.seq, .bus .eStop, .seq] (s.receiving sadd bytes.length bytes) (fin (s.received sadd bytes)) := by
  obtain ⟨hstart, hstop, hact, htx, hrx, htc, -, hcnt⟩ := hidle
  refine (runs_rd2 (s := s.receiving sadd bytes.length bytes) hs hr (if_neg (lt_irrefl _))
    (by simp [State.receiving])).cons (.cons (.of_eq (runs_eStop hs rfl) ?_) (runs_rd3 hs hr rfl hstop hfin))
  simp [State.receiving, State.received, readEvents, hstart, hstop, hact, htx, hrx, htc, hcnt]

/-- A whole read transaction on an idle bus. -/
theorem runs_read (hs : s.runs i) (hr : s.readsIn i sadd bytes.length fin) (hp : s.ph = .rd0) (hpe : s.pe = true)
    (hidle : s.busIdle) (hpos : 0 < bytes.length) (hle : bytes.length ≤ 3) {more : List Byte}
    (hd : s.draws = bytes ++ more) (hfin : ∀ t rest, fin { t with sched := rest } = { fin t with sched := rest }) :
    Runs (readSched bytes.length) s (fin (s.received sadd bytes)) := by
  refine ((runs_openRead hs hr hp hpe hidle hpos).append (.forEach fun got b rest e => ?_)).append
    (runs_closeRead hs hr hidle hfin)
  exact runs_takeByte hs hr (by simp [e]) hle (more := rest ++ more) (by simp [hd, e])

end read

/-! ### The composite commands on an idle bus (R151, R152, R154) -/

section composite
variable {s : State} {i : Instr} {reg : BitVec 6} {sc : Bool} {d : Descriptor} {w : BitVec 16}

/-- The state after the pointer write of a composite read, at the start of its K1. -/
def State.pointed (s : State) (reg : BitVec 6) : State :=
  ({ s with pbuf := s.pbuf.set 0 (regByte reg) }.written Config.sensorSadd [regByte reg]).nextK .rd0

/-- The pointer write of a composite read. -/
theorem runs_point (hs : s.runs i) (hw : s.writesIn i (fun p => p.set 0 (regByte reg)) Config.sensorSadd 1 (·.nextK .rd0))
    (hp : s.ph = .w0) (hpe : s.pe = true) (hidle : s.busIdle) : Runs (writeSched 1) s (s.pointed reg) :=
  runs_write (bytes := [regByte reg]) hs hw hp hpe hidle (by simp) (by simp)
    (fun k b hk => by
      obtain ⟨hlt, hb⟩ := List.getElem?_eq_some_iff.1 hk
      obtain rfl : k = 0 := Nat.lt_one_iff.1 hlt
      exact congrArg some hb)
    fun _ _ => rfl

/-- The state after the pointer write and the read of a composite read, at its K2. -/
def State.answered (s : State) (reg : BitVec 6) (bytes : List Byte) : State :=
  ((s.pointed reg).received Config.sensorSadd bytes).nextK .k2

/-- The two transactions of a composite read. -/
theorem runs_answer {bytes more : List Byte} (hs : s.runs i)
    (hw : s.writesIn i (fun p => p.set 0 (regByte reg)) Config.sensorSadd 1 (·.nextK .rd0))
    (hr : (s.pointed reg).readsIn i Config.sensorSadd bytes.length (·.nextK .k2)) (hp : s.ph = .w0) (hpe : s.pe = true)
    (hidle : s.busIdle) (hpos : 0 < bytes.length) (hle : bytes.length ≤ 3) (hd : s.draws = bytes ++ more) :
    Runs (writeSched 1 ++ readSched bytes.length) s (s.answered reg bytes) :=
  (runs_point hs hw hp hpe hidle).append (runs_read (s := s.pointed reg) hs hr rfl hpe hidle hpos hle hd fun _ _ => rfl)

/-- SENSOR_INIT is at the start of its K step `k`. -/
def State.startsInit (s : State) (k : Nat) : Prop :=
  s.runs .sensorInit ∧ s.kIdx = k ∧ s.ph = .w0 ∧ s.pe = true ∧ s.busIdle

/-- The state after the K step of SENSOR_INIT that writes the word `w` to the register `reg`, in W3. -/
def State.initialised (s : State) (reg : BitVec 6) (w : BitVec 16) : State :=
  (s.loadWrite reg w).written Config.sensorSadd [regByte reg, w.extractLsb' 8 8, w.extractLsb' 0 8]

/-- A K step of SENSOR_INIT. -/
theorem runs_wr16 {k : Nat} (h : s.startsInit k) (hwr : (initWrites s.config)[k]? = some (reg, w)) :
    Runs (writeSched 3) s (initNext k (s.initialised reg w)) := by
  obtain ⟨hs, hk, hp, hpe, hidle⟩ := h
  have writes : s.writesIn .sensorInit
      (fun p => ((p.set 0 (regByte reg)).set 1 (w.extractLsb' 8 8)).set 2 (w.extractLsb' 0 8)) Config.sensorSadd 3
      (initNext k) := fun t htk htc => by
    rw [exec_sensorInit (by rw [htc, htk, hk]; exact hwr), htk, hk]
    rfl
  refine runs_write (bytes := [regByte reg, w.extractLsb' 8 8, w.extractLsb' 0 8]) hs writes hp hpe hidle (by simp)
    (by simp) (fun j b hj => ?_) fun t rest => ?_
  · match j, hj with
    | 0, hj | 1, hj | 2, hj => exact hj
  · unfold initNext
    split <;> rfl

/-- A K step of SENSOR_INIT that is not the last leads to the next. -/
theorem runs_wr16_next {k : Nat} (h : s.startsInit k) (hlt : k < 3)
    (hwr : (initWrites s.config)[k]? = some (reg, w)) :
    ∃ t, t = (s.initialised reg w).nextK .w0 ∧ t.config = s.config ∧ Runs (writeSched 3) s t ∧ t.startsInit (k + 1) := by
  refine ⟨_, rfl, rfl, (runs_wr16 h hwr).of_eq (if_pos hlt), ?_⟩
  obtain ⟨hs, hk, -, hpe, hidle⟩ := h
  exact ⟨hs, congrArg (· + 1) hk, rfl, hpe, hidle⟩

/-- The bytes of a register decode to the value that a read of it gives. -/
theorem finishRes_of_measured {bytes : List Byte} {v : Word} {p : Pbuf} (h : measured d sc bytes = some v)
    (hp : s.pbuf = p.fill bytes) : decodeToRes d sc s = s.finishRes v := by
  unfold measured at h
  split at h
  next b0 b1 hw =>
    cases h
    exact decodeToRes_ok (State.decodePayload_w16 hw (by rw [hp]; rfl) (by rw [hp]; rfl))
  next b0 b1 b2 hw =>
    cases h
    exact decodeToRes_ok (State.decodePayload_w24 hw (by rw [hp]; rfl) (by rw [hp]; rfl) (by rw [hp]; rfl))
  next => cases h

/-- Only as many bytes as the register has give a value. -/
theorem length_of_measured {bytes : List Byte} {v : Word} (h : measured d sc bytes = some v) :
    bytes.length = descBytes d := by
  unfold measured at h
  split at h
  next b0 b1 hw => simp [descBytes, hw]
  next b0 b1 b2 hw => simp [descBytes, hw]
  next => cases h

/-- K2 of a numeric read. -/
theorem runs_decode {bytes : List Byte} {v : Word} {p : Pbuf} (hs : s.runs i) (hm : measures s.config i = some (reg, sc))
    (hd : s.desc reg = some d) (hk : s.kIdx = 2) (hval : measured d sc bytes = some v) (hp : s.pbuf = p.fill bytes) :
    Runs [.seq] s (s.finishRes v) :=
  .seq hs fun rest => (exec_measures_finish (s := { s with sched := rest }) hm hd hk).trans
    (congrArg _ (finishRes_of_measured (s := { s with sched := rest }) hval hp))

end composite

/-! ### The obligations -/

/-- Settles O24: the command is one write transaction of the bytes in PBUF. -/
theorem i2cWriteRunsToDone : Obligations.I2cWriteRunsToDone := by
  intro s sadd nb bytes rest hw hf hb hc hp hpe hidle hne hlen hbytes hsched
  have hnb : nb.toNat ≠ 0 := fun h => hne (BitVec.eq_of_toNat_eq h)
  have hlt := nb.isLt
  have run : Runs (writeSched bytes.length) s _ :=
    runs_write (load := id) ⟨hw, hf, hb, hc⟩ (fun t _ _ => by rw [hlen]; rfl) hp hpe hidle (by omega) (by omega) hbytes
      fun _ _ => rfl
  rw [← hlen] at hsched ⊢
  rw [run.runSteps_eq hsched]
  simp [State.written, State.done, hlen]

/-- Settles O25: the command is one read transaction. -/
theorem i2cReadRunsToDone : Obligations.I2cReadRunsToDone := by
  intro s sadd nb bytes more rest hw hf hb hc hp hpe hidle hne hlen hdraws hsched
  have hnb : nb.toNat ≠ 0 := fun h => hne (BitVec.eq_of_toNat_eq h)
  have hlt := nb.isLt
  have run : Runs (readSched bytes.length) s _ :=
    runs_read ⟨hw, hf, hb, hc⟩ (fun t _ _ => by rw [hlen]; rfl) hp hpe hidle (by omega) (by omega) hdraws fun _ _ => rfl
  rw [← hlen] at hsched ⊢
  refine ⟨s.pbuf.fill bytes, bytes.getLastD s.rxd, ?_, fun k b hk => Pbuf.get_fill_of_getElem? _ (by omega) hk,
    fun k hk => Pbuf.get_fill_of_le _ hk⟩
  rw [run.runSteps_eq hsched]
  simp [State.received, State.done, hlen, hdraws]

/-- Settles O37: the pointer write, the read of the descriptor's width, and the decode. -/
theorem numericReadRunsToDone : Obligations.NumericReadRunsToDone := by
  intro s i reg sc d bytes more v rest hw hf hb hc hm hd hp hk hpe hidle hdraws hval hsched
  have hs : s.runs i := ⟨hw, hf, hb, hc⟩
  have hlen := length_of_measured hval
  have range := descBytes_range d
  have desc : ∀ t : State, t.config = s.config → t.desc reg = some d := fun t htc => by rw [State.desc, htc]; exact hd
  have point : s.writesIn i (fun p => p.set 0 (regByte reg)) Config.sensorSadd 1 (·.nextK .rd0) := fun t htk htc =>
    exec_measures_point (htc ▸ hm) (desc t htc) (htk.trans hk)
  have read : (s.pointed reg).readsIn i Config.sensorSadd bytes.length (·.nextK .k2) := fun t htk htc => by
    rw [hlen]
    exact exec_measures_read (htc ▸ hm) (desc t htc) (htk.trans (congrArg (· + 1) hk))
  have run := (runs_answer hs point read hp hpe hidle (by omega) (by omega) hdraws).append
    (runs_decode (s := s.answered reg bytes) hs hm hd (congrArg (· + 2) hk) hval rfl)
  refine ⟨(s.pointed reg).pbuf.fill bytes, bytes.getLastD s.rxd, ?_,
    fun k b hk => Pbuf.get_fill_of_getElem? _ (by omega) hk, fun k hk => ?_⟩
  · rw [run.runSteps_eq hsched]
    simp [State.answered, State.pointed, State.written, State.received, State.nextK, State.finishRes, Config.sensorSadd,
      regByte, hk, hdraws]
  · rw [Pbuf.get_fill_of_le _ hk]
    exact Pbuf.get_set_ne (by omega)

/-- Settles O38: the pointer write, the read of two bytes, and the string made of them. -/
theorem mfrIdReadRunsToDone : Obligations.MfrIdReadRunsToDone := by
  intro s b0 b1 more rest hw hf hb hc hp hk hpe hidle hdraws hsched
  have hs : s.runs .readMfrId := ⟨hw, hf, hb, hc⟩
  have transactions : Runs (writeSched 1 ++ readSched 2) s (s.answered s.config.regs.mfrId [b0, b1]) :=
    runs_answer (bytes := [b0, b1]) hs (fun t htk htc => by rw [exec_readMfrId_point (htk.trans hk), htc]; rfl)
      (fun t htk _ => exec_readMfrId_read (htk.trans (congrArg (· + 1) hk))) hp hpe hidle (by simp) (by simp) hdraws
  have make : Runs [.seq] (s.answered s.config.regs.mfrId [b0, b1])
      { s.answered s.config.regs.mfrId [b0, b1] with str := some ⟨b0, b1, 0x00#8⟩, busy := false } :=
    .seq hs fun rest => (exec_readMfrId_finish (congrArg (· + 2) hk)).trans (congrArg _ (makeStr_ok rfl rfl))
  rw [(transactions.append make).runSteps_eq hsched]
  simp [State.answered, State.pointed, State.written, State.received, State.nextK, Config.sensorSadd, regByte, hk, hdraws,
    Pbuf.fill, Pbuf.set]

/-- Settles O39: four write transactions, K step by K step. -/
theorem sensorInitRunsToDone : Obligations.SensorInitRunsToDone := by
  intro s w rest hw hf hb hc hp hk hpe hidle hinit hsched
  have words : s.config.initWords = w := by simp [Config.initWords, hinit]
  obtain ⟨s1, e1, c1, run1, at1⟩ := runs_wr16_next (s := s) ⟨⟨hw, hf, hb, hc⟩, hk, hp, hpe, hidle⟩ (by decide) rfl
  obtain ⟨s2, e2, c2, run2, at2⟩ := runs_wr16_next at1 (by decide) (by rw [c1]; rfl)
  obtain ⟨s3, e3, c3, run3, at3⟩ := runs_wr16_next at2 (by decide) (by rw [c2, c1]; rfl)
  have run4 := runs_wr16 at3 (by rw [c3, c2, c1]; rfl)
  refine ((((run1.append run2).append run3).append run4).runSteps_eq hsched).trans ?_
  rw [e3, e2, e1]
  simp [initNext, State.initialised, State.written, State.nextK, State.done, State.loadWrite, Config.sensorSadd, regByte,
    hk, words, Pbuf.set]

end Sys2Proof.Machine
end

section
/-!
PROOFS of the obligations about whole console commands, and their support: each step of a text and of a number as a run, and
the characters that reach the line (R174 to R185).
-/

namespace Sys2Proof.Machine

/-! ### The steps of the printing commands and of LINEENV, where they are enabled (R174, R176, R180, R186) -/

/-- The stage is empty, with both its flags up. -/
def State.stageEmpty (s : State) : Prop := s.uStage = none ∧ s.uTxrdy = true ∧ s.uTc = true

section steps
variable {s : State} {i : Instr} {src : TextSrc} {c : Byte} {w : Nat} {places : List Nat} {num : NumSrc w} {n : Nat}

theorem runs_line (hs : s.runs i) (hc : s.uStage = some c) :
    Runs [.line] s { s with lineTrace := s.lineTrace ++ [c], uStage := none, uTxrdy := true, uTc := true } :=
  .agent hs fun rest => by simp [agentStep, lineStep, hc]

theorem runs_t0 (hs : s.runs (.writeText src)) (hp : s.ph = .t0) (he : s.uEn = true)
    (hstr : src = .str → s.str.isSome = true) : Runs [.seq] s { s with textPos := 0, ph := .t1 } :=
  .seq hs fun rest => (exec_writeText_t0 (s := { s with sched := rest }) hp).trans
    (congrArg _ (seqT0_starts (s := { s with sched := rest }) he hstr))

/-- The end of T1 and N1 does not ask for the schedule. -/
theorem takeChar_sched (c : Byte) (send : Byte → Phase) (s : State) (rest : List Agent) :
    takeChar c send { s with sched := rest } = { takeChar c send s with sched := rest } := by
  unfold takeChar
  split <;> rfl

theorem runs_t1 (hs : s.runs (.writeText src)) (hp : s.ph = .t1) (hc : s.textChar src s.textPos = .ok (some c)) :
    Runs [.seq] s (takeChar c Phase.t2 s) :=
  .seq hs fun rest => (exec_writeText_t1 (s := { s with sched := rest }) hp).trans
    (congrArg _ ((seqT1_ok (s := { s with sched := rest }) hc).trans (takeChar_sched c _ s rest)))

theorem runs_t2 (hs : s.runs (.writeText src)) (hp : s.ph = .t2 c) (hr : s.uTxrdy = true) :
    Runs [.seq] s (s.fillStage c).nextChar :=
  .seq hs fun rest => (exec_writeText_t2 (s := { s with sched := rest }) hp).trans
    (congrArg _ (seqTxByte_ready (s := { s with sched := rest }) hr))

/-- The command `i` writes the number of the source `num` with the given places. -/
def writesNumber (i : Instr) (places : List Nat) (num : NumSrc w) : Prop :=
  ∀ s : State, exec i s = .next (writeNumber places num s)

theorem runs_n0 (hs : s.runs i) (hi : writesNumber i places num) (hp : s.ph = .n0) (he : s.uEn = true)
    (hn : s.numOperand num = .ok n) :
    Runs [.seq] s { s with dbuf := fmtPlaces places n 0 false s.dbuf, idx := 0, ph := .n1 } :=
  .seq hs fun rest => (hi _).trans (congrArg _ ((writeNumber_n0 (s := { s with sched := rest }) hp).trans
    (seqN0_formats (s := { s with sched := rest }) he hn)))

theorem runs_n1 (hs : s.runs i) (hi : writesNumber i places num) (hp : s.ph = .n1) (hc : s.dbuf[s.idx]? = some c) :
    Runs [.seq] s (takeChar c Phase.n2 s) :=
  .seq hs fun rest => (hi _).trans (congrArg _ ((writeNumber_n1 (s := { s with sched := rest }) hp).trans
    ((seqN1_fetches (s := { s with sched := rest }) hc).trans (takeChar_sched c _ s rest))))

theorem runs_n2 (hs : s.runs i) (hi : writesNumber i places num) (hp : s.ph = .n2 c) (hr : s.uTxrdy = true) :
    Runs [.seq] s (s.fillStage c).nextDigit :=
  .seq hs fun rest => (hi _).trans (congrArg _ ((writeNumber_n2 (s := { s with sched := rest }) hp).trans
    (seqTxByte_ready (s := { s with sched := rest }) hr)))

end steps

/-! ### A whole text (R176) -/

/-- The state in a text from `s` with the characters `sent` on the line, before the next fetch. -/
def State.texting (s : State) (sent : List Byte) : State :=
  { s with ph := .t1, textPos := sent.length, lineTrace := s.lineTrace ++ sent }

section text
variable {s : State} {src : TextSrc} {cs sent : List Byte} {c : Byte}

/-- T1, TXBYTE and E_LINE send a character. -/
theorem runs_sendChar (hs : s.runs (.writeText src)) (hempty : s.stageEmpty)
    (hchar : s.textChar src sent.length = .ok (some c)) (hc : c ≠ 0x00#8) :
    Runs [.seq, .seq, .line] (s.texting sent) (s.texting (sent ++ [c])) := by
  obtain ⟨hstage, hready, hidle⟩ := hempty
  refine .cons (.of_eq (runs_t1 hs rfl hchar) (takeChar_char hc)) (.cons (runs_t2 hs rfl hready)
    (.of_eq (runs_line hs rfl) ?_))
  simp [State.texting, State.nextChar, State.fillStage, hstage, hready, hidle]

/-- A whole text: `cs` and a NUL are what is fetched. -/
theorem runs_text (hs : s.runs (.writeText src)) (hp : s.ph = .t0) (he : s.uEn = true)
    (hstr : src = .str → s.str.isSome = true) (hempty : s.stageEmpty) (hcs : ∀ c ∈ cs, c ≠ 0x00#8)
    (hchar : ∀ (k : Nat) (c : Byte), (cs ++ [0x00#8])[k]? = some c → s.textChar src k = .ok (some c)) :
    Runs (textSched cs.length) s (s.texting cs).done := by
  have start : Runs [.seq] s (s.texting []) := .of_eq (runs_t0 hs hp he hstr) (by simp [State.texting])
  have stop : Runs [.seq] (s.texting cs) (s.texting cs).done :=
    .of_eq (runs_t1 hs rfl (hchar cs.length 0x00#8 List.getElem?_concat_length)) takeChar_nul
  refine (start.append (.forEach fun sent c rest e => runs_sendChar hs hempty (hchar _ _ ?_) (hcs c ?_))).append stop
  · simp [e]
  · simp [e]

/-- The characters of a text in TMEM. -/
theorem textChar_tmem_of_read {a : BitVec 8} (hend : a.toNat + cs.length < 256)
    (hnul : s.tmem.read (a.toNat + cs.length) = some 0x00#8)
    (hchars : ∀ (k : Nat) (c : Byte), cs[k]? = some c → s.tmem.read (a.toNat + k) = some c) {k : Nat}
    (hk : (cs ++ [0x00#8])[k]? = some c) : s.textChar (.tmem a) k = .ok (some c) := by
  obtain ⟨hlt, -⟩ := List.getElem?_eq_some_iff.1 hk
  rw [List.length_append, List.length_singleton] at hlt
  refine State.textChar_tmem (by omega) ?_
  obtain hlt' | rfl : k < cs.length ∨ k = cs.length := by omega
  · exact hchars k c (List.getElem?_append_left hlt' ▸ hk)
  · rw [hnul, ← hk, List.getElem?_concat_length]

/-- The characters of STR. -/
theorem textChar_str_of_append {t : StrReg} {more : List Byte} (hstr : s.str = some t)
    (ht : [t.b0, t.b1, t.b2] = cs ++ 0x00#8 :: more) {k : Nat} (hk : (cs ++ [0x00#8])[k]? = some c) :
    s.textChar .str k = .ok (some c) := by
  obtain ⟨hlt, -⟩ := List.getElem?_eq_some_iff.1 hk
  rw [State.textChar_str hstr, ht, List.append_cons, List.getElem?_append_left hlt, hk]

end text

/-! ### A whole number (R180, R181) -/

/-- The state in a number write from `s` with the digits `sent` on the line, before the next fetch. -/
def State.numbering (s : State) (sent : List Byte) : State :=
  { s with ph := .n1, idx := sent.length, lineTrace := s.lineTrace ++ sent }

section number
variable {s : State} {i : Instr} {w : Nat} {places : List Nat} {num : NumSrc w} {n k : Nat} {sent : List Byte} {c : Byte}

/-- N1, TXBYTE and E_LINE send a digit. -/
theorem runs_sendDigit (hs : s.runs i) (hi : writesNumber i places num) (hempty : s.stageEmpty)
    (hchar : s.dbuf[sent.length]? = some c) (hc : c ≠ 0x00#8) :
    Runs [.seq, .seq, .line] (s.numbering sent) (s.numbering (sent ++ [c])) := by
  obtain ⟨hstage, hready, hidle⟩ := hempty
  refine .cons (.of_eq (runs_n1 hs hi rfl hchar) (takeChar_char hc)) (.cons (runs_n2 hs hi rfl hready)
    (.of_eq (runs_line hs rfl) ?_))
  simp [State.numbering, State.nextDigit, State.fillStage, hstage, hready, hidle]

/-- A whole number write: the formatter puts the numeral into DBUF, and its digits are sent. -/
theorem runs_number (hs : s.runs i) (hk : k < 5) (hi : writesNumber i (placesBelow (k + 1)) num)
    (hn : s.numOperand num = .ok n) (hlt : n < 10 ^ (k + 1)) (hp : s.ph = .n0) (he : s.uEn = true)
    (hempty : s.stageEmpty) :
    Runs (textSched (numeral n).length) s
      ({ s with dbuf := putText (numeral n) 0 s.dbuf }.numbering (numeral n)).done := by
  have hlen := length_numeral_le hlt
  obtain ⟨hnul, hdigits⟩ := getElem?_putText (ds := numeral n) (by omega) s.dbuf
  have start : Runs [.seq] s ({ s with dbuf := putText (numeral n) 0 s.dbuf }.numbering []) :=
    .of_eq (runs_n0 hs hi hp he hn) (by simp [State.numbering, fmtPlaces_numeral hlt])
  have stop : Runs [.seq] ({ s with dbuf := putText (numeral n) 0 s.dbuf }.numbering (numeral n)) _ :=
    .of_eq (runs_n1 hs hi rfl hnul) takeChar_nul
  refine (start.append (.forEach fun sent c rest e => runs_sendDigit hs hi hempty ?_ ?_)).append stop
  · have hlt : sent.length < (numeral n).length := by simp [e]
    rw [hdigits _ hlt]
    simp [e]
  · rintro rfl
    have := (numeral_digits n 0x00#8 (by simp [e])).1
    simp at this

end number

/-! ### The obligations -/

/-- Settles O46: each character before the NUL is fetched, staged and sent. -/
theorem textReachesTheLine : Obligations.TextReachesTheLine := by
  intro s src cs rest hw hf hb hc hp he hstage hready hidle hcs hsrc hsched
  have run : Runs (textSched cs.length) s (s.texting cs).done :=
    match src, hc, hsrc with
    | .tmem a, hc, ⟨hend, hnul, hchars⟩ =>
      runs_text ⟨hw, hf, hb, hc⟩ hp he nofun ⟨hstage, hready, hidle⟩ hcs fun _ _ =>
        textChar_tmem_of_read hend hnul hchars
    | .str, hc, ⟨t, more, hstr, ht⟩ =>
      runs_text ⟨hw, hf, hb, hc⟩ hp he (fun _ => by rw [hstr]; rfl) ⟨hstage, hready, hidle⟩ hcs fun _ _ =>
        textChar_str_of_append hstr ht
  exact run.runSteps_eq hsched

/-- Settles O47: the operand has at most three or five digits, and its numeral is what DBUF holds before the NUL. -/
theorem numberReachesTheLineInDecimal : Obligations.NumberReachesTheLineInDecimal := by
  intro s i n hw hf hb hc hp he hstage hready hidle hi
  suffices run : Runs (textSched (numeral n).length) s
      ({ s with dbuf := putText (numeral n) 0 s.dbuf }.numbering (numeral n)).done from
    ⟨numeral n, isDecimal_numeral n, fun rest hsched => ⟨_, run.runSteps_eq hsched⟩⟩
  obtain ⟨v, rfl, rfl⟩ | ⟨v, rfl, rfl⟩ | ⟨r, rfl, hr, rfl⟩ | ⟨r, rfl, hr, rfl⟩ := hi
  · exact runs_number (k := 2) (num := .imm v) ⟨hw, hf, hb, hc⟩ (by decide) (fun _ => rfl) rfl (by omega) hp he
      ⟨hstage, hready, hidle⟩
  · exact runs_number (k := 4) (num := .imm v) ⟨hw, hf, hb, hc⟩ (by decide) (fun _ => rfl) rfl (by omega) hp he
      ⟨hstage, hready, hidle⟩
  · exact runs_number (k := 2) (num := NumSrc.res (w := 8)) ⟨hw, hf, hb, hc⟩ (by decide) (fun _ => rfl)
      (State.numOperand_res hr) (by omega) hp he ⟨hstage, hready, hidle⟩
  · exact runs_number (k := 4) (num := NumSrc.res (w := 16)) ⟨hw, hf, hb, hc⟩ (by decide) (fun _ => rfl)
      (State.numOperand_res hr) (by omega) hp he ⟨hstage, hready, hidle⟩

end Sys2Proof.Machine
end
